-- ==== Sys2Proof/Word.lean ====
section
/-! DEFINITION. The word types of KAOS-CORE (R9): u8, u32 and u64 as bit vectors, whose `+` and `*` wrap. -/

namespace Sys2Proof

/-- u8 (R9): a key, nonce, message or keystream byte. -/
abbrev Byte := BitVec 8

/-- u32 (R9): a register, a command word, a value on the 32-bit data path (R60). -/
abbrev Word := BitVec 32

/-- u64 (R9): a mixer lane, or the interchange encoding of a binary64 (R95). -/
abbrev DWord := BitVec 64

end Sys2Proof
end

