-- ==== Sys2Proof/Config.lean ====
section
/-! DEFINITION. What the spec leaves OPEN (R6) or draws (I7, I8, I9, I10): the mixer parameters, the
window's place on the bus, and the free values. Every opaque constant here has no body: nothing can be
proved of its value, so a statement about the model holds whatever it is. -/

namespace Sys2Proof

/-- A value for each of the three lanes or coordinates, indexed 1..3 as R6 and R111 index them. -/
structure Three (α : Type) where
  m1 : α
  m2 : α
  m3 : α
deriving DecidableEq, Repr, Inhabited

/-- The OPEN mixer parameters of R6. `fb` holds binary64 encodings (R95). The constraints of R119 are
`MixerParams.wf` (WellFormed.lean). -/
structure MixerParams where
  /-- `LANE_INIT[1..3]` (R111). -/
  laneInit : Three DWord
  /-- `KROT[1..3]` (R112). -/
  krot : Three Nat
  /-- `KMUL[1..3]` (R112). -/
  kmul : Three DWord
  /-- `NSH[0..11]` (R113). -/
  nsh : Vector Nat 12
  /-- `NW[0..11]` (R113). -/
  nw : Vector DWord 12
  /-- `NROT` (R113). -/
  nrot : Nat
  /-- `FX[1..3]` (R115). -/
  fx : Three DWord
  /-- `FB[1..3]` (R117), as encodings. -/
  fb : Three DWord
deriving DecidableEq, Repr, Inhabited

/-- What one KAOS-CORE is built with: the OPEN parameters of R6, which are arguments of the model. They stand in
State as a field that no step changes, so that a statement about every state holds for every choice of them. -/
structure BlockConfig where
  /-- The mixer parameters (R119). -/
  mixer : MixerParams
  /-- Which 16 KiB slot of the bus the window occupies: `ENGINE_BASE` is 0x4000 times this (R61, D3). -/
  slot : Nat
deriving DecidableEq, Repr, Inhabited

/-- Any mixer parameters at all (R6, D16). `Machine.mixerParams` admits them under R119. -/
opaque Config.mixerChoice : MixerParams

/-- Any slot of the bus (R61, D3). -/
opaque Config.engineSlot : Nat

/-- The n-th draw of a byte: an unwritten buffer byte (R67, R251) or a DATA_OUT byte read while busy (R70 c). -/
opaque Config.freeByte : Nat → Byte

/-- The n-th draw of a register value: X_LO…Z_HI or KB read while busy (R70 c). -/
opaque Config.freeWord : Nat → Word

/-- The n-th draw of a 64-bit pattern, from which `Machine.nanPattern` makes the pattern of a NaN (R140, D20). -/
opaque Config.freeNan : Nat → DWord

end Sys2Proof
end

