-- ==== Sys2Proof/Syntax.lean ====
section
/-! DEFINITION. The commands of KAOS-CORE (R92) and the fields of the one command format CMDW (R90). -/

namespace Sys2Proof

/-- The five commands, one for each row of the opcode map (R92). No command has an operand field: every
operand is an implicit register (R94). -/
inductive Instr where
  | mix
  | step
  | extract
  | encrypt
  | decrypt
deriving DecidableEq, Repr

/-- The format CMDW (R90): the fields of one 32-bit command word. -/
structure CmdWord where
  /-- RSV, bits 31:4: must be zero (R93). -/
  rsv : BitVec 28
  /-- OP, bits 3:0: the operation code (R92). -/
  op : BitVec 4
deriving DecidableEq, Repr

/-- The mnemonic of a command (R96). -/
def Instr.mnemonic : Instr → String
  | .mix => "MIX"
  | .step => "STEP"
  | .extract => "EXTRACT"
  | .encrypt => "ENCRYPT"
  | .decrypt => "DECRYPT"

/-- ENCRYPT and DECRYPT read LEN; no other command does (R25, R94). -/
def Instr.usesLen : Instr → Bool
  | .mix => false
  | .step => false
  | .extract => false
  | .encrypt => true
  | .decrypt => true

end Sys2Proof
end

