-- ==== Sys2Proof/WellFormed.lean ====
section
/-! DEFINITION. Well-formedness: of a command word (R90, R93), of a command, and of a mixer configuration
(R119). Each check is a Bool, so that it can be evaluated. -/

namespace Sys2Proof

/-- The reserved field of a command word is zero (R93). -/
def CmdWord.rsvZero (c : CmdWord) : Bool := c.rsv == 0

/-- The operation code is one the opcode map assigns: 1..5 (R92, R93). -/
def CmdWord.opAssigned (c : CmdWord) : Bool := decide (1 ≤ c.op.toNat ∧ c.op.toNat ≤ 5)

/-- A legal command word: every word outside R92 is illegal (R93). -/
def CmdWord.wf (c : CmdWord) : Bool := c.rsvZero && c.opAssigned

/-- The fields of a command's word (R90, R92). -/
def Instr.fields : Instr → CmdWord
  | .mix => ⟨0, 0x1⟩
  | .step => ⟨0, 0x2⟩
  | .extract => ⟨0, 0x3⟩
  | .encrypt => ⟨0, 0x4⟩
  | .decrypt => ⟨0, 0x5⟩

/-- A command is well formed when its fields are. A command has no operand field (R90), so each of the
five is. -/
def Instr.wf (i : Instr) : Bool := i.fields.wf

/-- All three values are pairwise different. -/
def Three.distinct {α : Type} [DecidableEq α] (t : Three α) : Bool :=
  t.m1 != t.m2 && t.m1 != t.m3 && t.m2 != t.m3

/-- All three values pass a check. -/
def Three.all {α : Type} (p : α → Bool) (t : Three α) : Bool := p t.m1 && p t.m2 && p t.m3

/-- KROT: "three different rotate amounts", each in 1..63 (R119). -/
def MixerParams.krotOk (p : MixerParams) : Bool :=
  p.krot.distinct && p.krot.all fun r => decide (1 ≤ r ∧ r ≤ 63)

/-- KMUL: "a distinct odd 64-bit constant" for each lane (R119). -/
def MixerParams.kmulOk (p : MixerParams) : Bool :=
  p.kmul.distinct && p.kmul.all fun k => k.getLsbD 0

/-- FX: each "one more odd constant" (R119). -/
def MixerParams.fxOk (p : MixerParams) : Bool := p.fx.all fun k => k.getLsbD 0

/-- NSH: each shift in 0..56, so that no bit of a nonce byte is shifted out (R119). -/
def MixerParams.nshOk (p : MixerParams) : Bool := p.nsh.toList.all fun n => decide (n ≤ 56)

/-- NROT in 1..63 (R119). -/
def MixerParams.nrotOk (p : MixerParams) : Bool := decide (1 ≤ p.nrot ∧ p.nrot ≤ 63)

/-- FB: each a binary64 strictly between 0.0 and 1.0 (R119). The encodings of the positive binary64 values
rise with the values, 0.0 is 0x0000000000000000 and 1.0 is 0x3FF0000000000000 (R95). -/
def MixerParams.fbOk (p : MixerParams) : Bool :=
  p.fb.all fun b => decide (0 < b.toNat ∧ b.toNat < 0x3FF0000000000000)

/-- The mixer configurations a model admits (R119). LANE_INIT and NW are unconstrained. -/
def MixerParams.wf (p : MixerParams) : Bool :=
  p.krotOk && p.kmulOk && p.fxOk && p.nshOk && p.nrotOk && p.fbOk

end Sys2Proof
end

