-- ==== Sys2Proof/Decode.lean ====
section
/-! DEFINITION. Decoding a command word (R90, R91), the byte form of one (R64), and the encoder (R92). Every
32-bit word is one of the five commands or is rejected by name (R93). -/

namespace Sys2Proof

/-- Why a word is no command (R93). -/
inductive DecodeError where
  /-- A nonzero bit in 31:4. -/
  | reservedBits (rsv : BitVec 28)
  /-- OP = 0x0 or 0x6..0xF. -/
  | reservedOp (op : BitVec 4)
  /-- Fewer than the four bytes of one command word (R90): no command. -/
  | shortWord (bytes : Nat)
deriving DecidableEq, Repr

/-- The fields of a 32-bit word: OP is bits 3:0 and RSV bits 31:4 (R90). -/
def CmdWord.ofWord (w : Word) : CmdWord := ⟨w.extractLsb' 4 28, w.extractLsb' 0 4⟩

/-- The 32-bit word of the fields: {RSV, OP} (R8, R90). -/
def CmdWord.toWord (c : CmdWord) : Word := c.rsv ++ c.op

/-- The command of an operation code (R91). -/
def opcode (op : BitVec 4) : Except DecodeError Instr :=
  match op.toNat with
  | 0x1 => .ok .mix
  | 0x2 => .ok .step
  | 0x3 => .ok .extract
  | 0x4 => .ok .encrypt
  | 0x5 => .ok .decrypt
  | _ => .error (.reservedOp op)

/-- R91: the reserved bits are tested first, then OP selects the command. -/
def decodeWord (w : Word) : Except DecodeError Instr :=
  let c := CmdWord.ofWord w
  if c.rsv ≠ 0 then .error (.reservedBits c.rsv) else opcode c.op

/-- The word of four bytes, the first the least significant (R64). -/
def wordOfBytes (b0 b1 b2 b3 : Byte) : Word := b3 ++ b2 ++ b1 ++ b0

/-- One command from a list of bytes, and the bytes left over. -/
def decode : List Byte → Except DecodeError (Instr × List Byte)
  | b0 :: b1 :: b2 :: b3 :: rest =>
    match decodeWord (wordOfBytes b0 b1 b2 b3) with
    | .ok i => .ok (i, rest)
    | .error e => .error e
  | bs => .error (.shortWord bs.length)

/-- The command word of a command (R92). -/
def encode (i : Instr) : Word := i.fields.toWord

/-- The four bytes of a command's word as the bus carries them, lowest lane first (R60, R64). -/
def encodeBytes (i : Instr) : List Byte :=
  (List.range 4).map fun k => (encode i).extractLsb' (8 * k) 8

/-- The bytes of a number, the least significant first: `n` of them (R64). -/
def bytesOfNat : Nat → Nat → List Byte
  | 0, _ => []
  | n + 1, v => BitVec.ofNat 8 v :: bytesOfNat n (v / 256)

/-- The command the decoder reads from an instruction of `nbits` bits numbered as the opcode table numbers
them. One command is 32 bits (R90): a shorter row is filled with zeros, and a value whose bits do not fit
in one command word leaves nonzero bytes behind and is no command. -/
def decodeTableWord (nbits w : Nat) : Option Instr :=
  let bits := w % 2 ^ nbits
  match decode (bytesOfNat 4 bits) with
  | .ok (i, []) => if bits < 2 ^ 32 then some i else none
  | .ok _ => none
  | .error _ => none

/-- The command word of `nbits` bits `w`, numbered as the opcode table numbers them; the bits above are 0 (R90). -/
def wordOfTable (nbits w : Nat) : Word := BitVec.ofNat 32 (w % 2 ^ nbits)

end Sys2Proof
end

