-- ==== Sys2Proof/Machine/Float.lean ====
section
/-! DEFINITION. IEEE 754 binary64 arithmetic as KAOS-CORE uses it (R10, R140): round to nearest, ties to even,
each operation rounded once, subnormals kept, no flags.

A large constant factor stands first in every product: the kernel then never unrolls it where the other factor is
unknown.

A finite value is held exactly: its sign and its magnitude as a whole number of the least subnormal, 2^-1074,
of which every finite binary64 is a multiple. All NaNs are one value here, because no operation's result
depends on the sign or payload of a NaN: the pattern of a NaN is drawn where a register stores it (R140, D20). -/

namespace Sys2Proof.Machine

open Sys2Proof

/-- A binary64 value (R10, R95). -/
inductive F64 where
  /-- Any NaN: its sign and payload are unspecified (R140). -/
  | nan
  /-- An infinity and its sign (`true` is negative). -/
  | inf (neg : Bool)
  /-- The finite value ± mag · 2^-1074. Zeros are signed. -/
  | fin (neg : Bool) (mag : Nat)
deriving DecidableEq, Repr, Inhabited

/-- The least subnormal is 2^-1074 (R95). Irreducible, so that elaboration never multiplies out 2^1074. -/
@[irreducible] def F64.unitExp : Nat := 1074

/-- 1.0 as a magnitude: 2^1074 times the least subnormal. -/
def F64.one : Nat := 2 ^ F64.unitExp

/-- 2^1024 as a magnitude: the least magnitude past every finite binary64. -/
def F64.limit : Nat := 2 ^ (F64.unitExp + 1024)

/-- How far a magnitude's leading bit lies above bit 52: the weight, as a power of two, of the last place of
a 53-bit significand, and 0 for subnormals. -/
def F64.lastPlace (mag : Nat) : Nat := mag.log2 - 52

/-- The value is a binary64: 53 significant bits at most, below the limit (R95). -/
def F64.wf : F64 → Bool
  | .nan => true
  | .inf _ => true
  | .fin _ mag => decide (mag < F64.limit) && mag % 2 ^ F64.lastPlace mag == 0

/-- The integer nearest to num/den, ties to even. -/
def roundHalfEven (num den : Nat) : Nat :=
  let q := num / den
  let r := num % den
  if 2 * r < den then q else if den < 2 * r then q + 1 else q + q % 2

/-- The magnitude nearest to num/den with 53 significant bits, ties to even, without an upper limit. -/
def roundMag (num den : Nat) : Nat :=
  let k := F64.lastPlace (num / den)
  roundHalfEven num (den * 2 ^ k) * 2 ^ k

/-- The binary64 nearest to ± (num/den) · 2^-1074, ties to even, infinity on overflow (R140). -/
def F64.round (neg : Bool) (num den : Nat) : F64 :=
  let mag := roundMag num den
  if mag < F64.limit then .fin neg mag else .inf neg

/-- The value with the opposite sign. -/
def F64.neg : F64 → F64
  | .nan => .nan
  | .inf s => .inf !s
  | .fin s m => .fin (!s) m

/-- `fadd` (R10): an exact sum rounded once. A zero sum of values of opposite sign is +0. -/
def fadd : F64 → F64 → F64
  | .nan, _ => .nan
  | _, .nan => .nan
  | .inf s, .inf t => if s = t then .inf s else .nan
  | .inf s, .fin _ _ => .inf s
  | .fin _ _, .inf t => .inf t
  | .fin s m, .fin t n =>
    if s = t then F64.round s (m + n) 1
    else if m = n then .fin false 0
    else if n < m then F64.round s (m - n) 1
    else F64.round t (n - m) 1

/-- `fsub` (R10). -/
def fsub (a b : F64) : F64 := fadd a b.neg

/-- `fmul` (R10): an exact product rounded once. Zero times infinity is a NaN. -/
def fmul : F64 → F64 → F64
  | .nan, _ => .nan
  | _, .nan => .nan
  | .inf s, .inf t => .inf (s != t)
  | .inf s, .fin t n => if n = 0 then .nan else .inf (s != t)
  | .fin s m, .inf t => if m = 0 then .nan else .inf (s != t)
  | .fin s m, .fin t n => F64.round (s != t) (m * n) F64.one

/-- `fdiv` (R10): an exact quotient rounded once. 0/0 and ∞/∞ are NaNs and a nonzero value over 0 is infinite. -/
def fdiv : F64 → F64 → F64
  | .nan, _ => .nan
  | _, .nan => .nan
  | .inf _, .inf _ => .nan
  | .inf s, .fin t _ => .inf (s != t)
  | .fin s _, .inf t => .fin (s != t) 0
  | .fin s m, .fin t n =>
    if n = 0 then (if m = 0 then .nan else .inf (s != t))
    else F64.round (s != t) (F64.one * m) n

/-- `fabs` (R10): the sign bit is cleared. -/
def fabs : F64 → F64
  | .nan => .nan
  | .inf _ => .inf false
  | .fin _ m => .fin false m

/-- `ffloor` (R10): the largest integral binary64 not greater than the value, exact. -/
def ffloor : F64 → F64
  | .nan => .nan
  | .inf s => .inf s
  | .fin false m => .fin false (F64.one * (m / F64.one))
  | .fin true m => .fin true (F64.one * ((F64.one - 1 + m) / F64.one))

/-- `ffmod` (R10): the exact remainder a − n·b with n = trunc(a/b). It has the sign of a. -/
def ffmod : F64 → F64 → F64
  | .nan, _ => .nan
  | _, .nan => .nan
  | .inf _, _ => .nan
  | .fin s m, .inf _ => .fin s m
  | .fin s m, .fin _ n => if n = 0 then .nan else .fin s (m % n)

/-- `cvt_u64` (R10): to nearest, ties to even. -/
def cvtU64 (v : DWord) : F64 := F64.round false (F64.one * v.toNat) 1

/-- `cvt_u32` (R10): exact. -/
def cvtU32 (v : Word) : F64 := F64.round false (F64.one * v.toNat) 1

/-- `isfinite` (R10). -/
def isfinite : F64 → Bool
  | .nan => false
  | .inf _ => false
  | .fin _ _ => true

/-- Comparison with 0.0, which both zeros equal (R117). -/
def F64.isZero : F64 → Bool
  | .fin _ m => m == 0
  | .nan => false
  | .inf _ => false

/-- `ftoint` (R10): the integer of an integral binary64 in 0.0..255.0, and nothing elsewhere. -/
def ftoint : F64 → Option Nat
  | .fin neg m =>
    if m % F64.one = 0 ∧ m / F64.one ≤ 255 ∧ (neg = false ∨ m = 0) then some (m / F64.one) else none
  | .nan => none
  | .inf _ => none

/-- The value of an encoding: sign in bit 63, biased exponent in 62:52, fraction in 51:0 (R95). -/
def F64.ofBits (b : DWord) : F64 :=
  let neg := b.getLsbD 63
  let e := (b.extractLsb' 52 11).toNat
  let f := (b.extractLsb' 0 52).toNat
  if e = 2047 then (if f = 0 then .inf neg else .nan)
  else if e = 0 then .fin neg f
  else .fin neg ((2 ^ 52 + f) * 2 ^ (e - 1))

/-- An encoding from its sign (bit 63), biased exponent (62:52) and fraction (51:0) (R95). -/
def F64.pack (neg : Bool) (e f : Nat) : DWord :=
  BitVec.ofNat 64 (neg.toNat * 2 ^ 63 + e * 2 ^ 52 + f)

/-- The biased exponent of a finite magnitude. -/
def F64.expField (mag : Nat) : Nat := if mag < 2 ^ 52 then 0 else F64.lastPlace mag + 1

/-- The fraction of a finite magnitude: the significand without its leading bit. -/
def F64.fracField (mag : Nat) : Nat := if mag < 2 ^ 52 then mag else mag / 2 ^ F64.lastPlace mag - 2 ^ 52

/-- The encoding of a value that is not a NaN. A NaN has no encoding of its own (R140). -/
def F64.toBits : F64 → Option DWord
  | .nan => none
  | .inf s => some (F64.pack s 2047 0)
  | .fin s m => some (F64.pack s (F64.expField m) (F64.fracField m))

/-- The encoding is that of a NaN: exponent all ones, fraction nonzero (R95). -/
def isNanPattern (b : DWord) : Bool := b.extractLsb' 52 11 == 2047#11 && b.extractLsb' 0 52 != 0#52

end Sys2Proof.Machine
end

