-- ==== Sys2Proof/Machine/Params.lean ====
section
/-! DEFINITION. The parameters of KAOS-CORE (R6): the FIXED and DECIDED values, the mixer configuration under
R119, the test profile TP (R121), and the pattern of a drawn NaN. -/

namespace Sys2Proof.Machine

open Sys2Proof

/-- The encodings of the FIXED binary64 parameters (R6, R31). -/
def sigmaBits : DWord := 0x4024000000000000
def rhoBits : DWord := 0x403C000000000000
def betaBits : DWord := 0x4005555555555555
def dtBits : DWord := 0x3F847AE147AE147B

/-- SIGMA, RHO, BETA and DT as the stepper uses them: the values the parameter registers read (R141). -/
def sigma : F64 := F64.ofBits sigmaBits
def rho : F64 := F64.ofBits rhoBits
def beta : F64 := F64.ofBits betaBits
def dt : F64 := F64.ofBits dtBits

/-- K_PHI, K_E, K_PI and K_CTR of the extractor (R6, R161, R164). -/
def kPhi : F64 := F64.ofBits 0x3FF9E3779B97F4A8
def kE : F64 := F64.ofBits 0x4005BF0A8B145769
def kPi : F64 := F64.ofBits 0x400921FB54442D18
def kCtr : F64 := F64.ofBits 0x3E7AD7F29ABCAF48

/-- K_DIV: the binary64 nearest 2^64 − 1, which is 2^64 (R6, R116). -/
def kDiv : F64 := F64.ofBits 0x43F0000000000000

/-- 1.0 and 256.0, the literals of R116, R164 and R165. -/
def fOne : F64 := F64.ofBits 0x3FF0000000000000
def f256 : F64 := F64.ofBits 0x4070000000000000

/-- WARMUP: the number of discard steps (R6, R191). -/
def warmupCount : Nat := 5000

/-- MAXLEN: the capacity of each message buffer in bytes (R6, R32, R66). -/
def maxLen : Nat := 4096

/-- The identification constant (R22). -/
def idValue : Word := 0x4B414F53

/-- ENGINE_BASE: a 16 KiB-aligned bus address (R6, R61). -/
def engineBase (c : BlockConfig) : Nat := 0x4000 * c.slot

/-- The test profile TP of the mixer parameters (R121). -/
def testProfile : MixerParams where
  laneInit := ⟨0, 0, 0⟩
  krot := ⟨7, 19, 37⟩
  kmul := ⟨0x9E3779B97F4A7C15, 0xBF58476D1CE4E5B9, 0x94D049BB133111EB⟩
  nsh := ⟨#[0, 8, 16, 24, 32, 40, 48, 56, 0, 8, 16, 24], rfl⟩
  nw := ⟨#[1, 3, 5, 7, 9, 11, 13, 15, 17, 19, 21, 23], rfl⟩
  nrot := 11
  fx := ⟨0xD6E8FEB86659FD93, 0xA0761D6478BD642F, 0xE7037ED1A0B428DB⟩
  fb := ⟨0x3FB999999999999A, 0x3FC999999999999A, 0x3FD3333333333333⟩

/-- The mixer parameters of the machine at power-on: any configuration R119 admits. The unknown choice of Config stands
where it is admissible. Where it is not it stands for no machine, and an admissible one takes its place, so
that the values this can have are exactly the admissible configurations (D16). -/
def mixerParams : MixerParams := if Config.mixerChoice.wf then Config.mixerChoice else testProfile

/-- The OPEN parameters of the machine at power-on: any admissible choice (R6, R119). -/
def blockConfig : BlockConfig := ⟨mixerParams, Config.engineSlot⟩

/-- The k-th drawn NaN pattern: any pattern of a NaN, and always one (R140, D20). As above, a free pattern
that is no NaN stands for no draw. -/
def nanPattern (k : Nat) : DWord :=
  if isNanPattern (Config.freeNan k) then Config.freeNan k else 0x7FF8000000000000

end Sys2Proof.Machine
end

