-- ==== Sys2Proof/Machine/State.lean ====
section
/-! DEFINITION. The state of KAOS-CORE (R20 to R36), the events that drive it (R190, R250), the answers of
its bus port (R60), and its state after power-on reset. -/

namespace Sys2Proof.Machine

open Sys2Proof

/-- PHASE together with PENDING (R20): PENDING, the accepted command word, exists only while busy. -/
inductive Phase where
  | idle
  | busy (pending : Word)
deriving DecidableEq, Repr

/-- The errors of R220. The codes 5–15 are reserved and never reported, so they have no constructor. -/
inductive ErrCode where
  /-- code 0, NONE -/
  | noError
  /-- code 1, ILLEGAL_COMMAND -/
  | illegalCommand
  /-- code 2, INVALID_LENGTH -/
  | invalidLength
  /-- code 3, LENGTH_EXCEEDS_BUFFER -/
  | lengthExceedsBuffer
  /-- code 4, NUMERIC -/
  | numeric
deriving DecidableEq, Repr

/-- The widths of a host access: 1, 2 or 4 bytes (R60). -/
inductive BusWidth where
  | byte
  | half
  | word
deriving DecidableEq, Repr

/-- What can happen next to the block. The two agents are the host, whose steps are bus accesses, and the
engine (R190). The reset input (R250) is the platform's. -/
inductive Event where
  /-- `MemRead` at a bus address (R60). -/
  | read (addr : Nat) (w : BusWidth)
  /-- `MemWrite` at a bus address. The access carries the low 1, 2 or 4 bytes of `v` (R60). -/
  | write (addr : Nat) (w : BusWidth) (v : Word)
  /-- The engine's turn: it takes its one enabled step if it has one (R190). -/
  | engine
  /-- The reset input is asserted and released: one transition (R250). -/
  | reset
deriving DecidableEq, Repr

/-- The port's answer to one access (R60). -/
inductive Response where
  /-- A read's bytes, zero-extended into the 32-bit bus word (R99). -/
  | data (v : Word)
  /-- A write's `OK`. -/
  | ok
  /-- `BUS_ERROR`: a bus response only, no engine error (R60). -/
  | busError
deriving DecidableEq, Repr

/-- The host-visible registers of R21. -/
inductive Reg where
  | id | cmd | status | len | ctr | kb | warmup | maxlen
  | key (k : Fin 8)
  | nonce (k : Fin 3)
  | xLo | xHi | yLo | yHi | zLo | zHi
  | sigmaLo | sigmaHi | rhoLo | rhoHi | betaLo | betaHi | dtLo | dtHi
deriving DecidableEq, Repr

/-- The bytes of the two message buffers that have been written, by offset in the window (R66): offsets
strictly rising. A byte that is not listed has no value of its own: each read of it is a draw (R67). -/
abbrev Memory := List Host.Cell

/-- The state of the machine. The hardwired registers (ID, WARMUP, MAXLEN, SIGMA, RHO, BETA, DT) are
constants and have no field (R22, R31, R32). CMD holds no value (R23). The mixer lanes, the warmup count and
the byte index exist only inside one atomic engine step (R35), so they are values of the functions that
compute it. The fields `cfg`, `draws`, `agenda` and `responses` are the MODEL's own, not registers of the spec. -/
structure State where
  /-- MODEL: the OPEN parameters this block is built with (R6). No step changes them. -/
  cfg : BlockConfig
  /-- PHASE and PENDING (R20). STATUS.BUSY reads it (R24). -/
  phase : Phase
  /-- STATUS.DONE (R24). -/
  done : Bool
  /-- STATUS.ERR and STATUS.ERRCODE (R24): ERR is 1 when this is not `noError`. -/
  err : ErrCode
  /-- LEN (R25). -/
  len : Word
  /-- CTR (R26). -/
  ctr : Word
  /-- KB bits 7:0. Bits 31:8 read 0 (R27). -/
  kb : Byte
  /-- KEY0–KEY7 (R28). -/
  key : Vector Word 8
  /-- NONCE0–NONCE2 (R29). -/
  nonce : Vector Word 3
  /-- X_LO (R30). -/
  xLo : Word
  /-- X_HI (R30). -/
  xHi : Word
  /-- Y_LO (R30). -/
  yLo : Word
  /-- Y_HI (R30). -/
  yHi : Word
  /-- Z_LO (R30). -/
  zLo : Word
  /-- Z_HI (R30). -/
  zHi : Word
  /-- DATA_IN and DATA_OUT (R66, R67). -/
  mem : Memory
  /-- MODEL: how many draws have been taken; the index of the next free value (R67, R70 c, R140). -/
  draws : Nat
  /-- MODEL: the events still to come, in the one order in which they take effect (R71). -/
  agenda : List Event
  /-- MODEL: the port's answers so far, the newest first (R60, R71). -/
  responses : List Response
deriving DecidableEq, Repr

/-- What stops the machine with a fault. No command does: errors are reported in STATUS (R227). -/
inductive Fault where
  /-- Raised by `hostRead` and `hostWrite`: the agenda holds an access at a bus address outside the 16 KiB
  window, which does not reach KAOS-CORE and whose effect is the platform's (R61). Safe: the model stops. -/
  | outsideWindow (addr : Nat)
deriving DecidableEq, Repr

/-- Why a step has no meaning. -/
inductive Refusal where
  /-- Raised by no arm of `exec` any more: every command has its meaning. Safe: the model stops. -/
  | notModelled (mnemonic : String)
deriving DecidableEq, Repr

/-- The machine right after power-on reset (R36, R250): every writable register 0, PHASE idle, STATUS 0, and
no buffer byte written (R67). The OPEN parameters are any admissible ones. No event is scheduled, no answer has been given and no draw taken. -/
def State.reset : State where
  cfg := blockConfig
  phase := .idle
  done := false
  err := .noError
  len := 0
  ctr := 0
  kb := 0
  key := Vector.replicate 8 0
  nonce := Vector.replicate 3 0
  xLo := 0
  xHi := 0
  yLo := 0
  yHi := 0
  zLo := 0
  zHi := 0
  mem := []
  draws := 0
  agenda := []
  responses := []

end Sys2Proof.Machine
end

