-- ==== Sys2Proof/Machine/Flags.lean ====
section
/-! DEFINITION. The STATUS register (R24): its fields as functions of the state and the word a read returns.
KAOS-CORE has no condition codes and keeps no IEEE flags (R34); these are its only status bits. -/

namespace Sys2Proof.Machine

open Sys2Proof

/-- The error codes of R220. -/
def ErrCode.code : ErrCode → BitVec 4
  | .noError => 0
  | .illegalCommand => 1
  | .invalidLength => 2
  | .lengthExceedsBuffer => 3
  | .numeric => 4

/-- STATUS.BUSY: 1 while PHASE = BUSY (R24). -/
def State.busy (s : State) : Bool :=
  match s.phase with
  | .idle => false
  | .busy _ => true

/-- STATUS.ERR: 1 when the last completed command failed (R24). -/
def State.errFlag (s : State) : Bool := s.err != .noError

/-- The word a read of STATUS returns: BUSY in bit 0, DONE in bit 1, ERR in bit 2, ERRCODE in bits 7:4, and
every reserved bit 0 (R24). -/
def State.statusWord (s : State) : Word :=
  0#24 ++ s.err.code ++ 0#1 ++ BitVec.ofBool s.errFlag ++ BitVec.ofBool s.done ++ BitVec.ofBool s.busy

end Sys2Proof.Machine
end

