-- ==== Sys2Proof/Machine/Ops.lean ====
section
/-! DEFINITION. The named operations every meaning and every bus access is made of: the written-bytes list, the
draws, the registers, starting and completing a command, and the reset input. -/

namespace Sys2Proof.Machine

open Sys2Proof

/-! ### The list of written bytes -/

/-- Offsets strictly rising: the one form a memory has, so that equal memories are equal lists. -/
abbrev Memory.wf (m : Memory) : Prop := m.Pairwise fun a b => a.1 < b.1

/-- The byte written at an offset, or nothing where none has been written (R67). -/
def Memory.lookup : Memory → Nat → Option Byte
  | [], _ => none
  | c :: m, a => if c.1 = a then some c.2 else Memory.lookup m a

/-- A byte written at an offset, in its place in the order. -/
def Memory.insert : Memory → Nat → Byte → Memory
  | [], a, b => [(a, b)]
  | c :: m, a, b =>
    if c.1 = a then (a, b) :: m
    else if a < c.1 then (a, b) :: c :: m
    else c :: Memory.insert m a b

/-- The `n` bytes from an offset on hold unspecified values again (R251). -/
def Memory.forget (m : Memory) (a n : Nat) : Memory := m.filter fun c => decide (c.1 < a ∨ a + n ≤ c.1)

/-! ### Draws

The k-th draw is the k-th free value of Config. Every operation that draws counts its draws in the state, so that
each draw is a fresh value. -/

/-- A draw of a byte (R67, R70 c). -/
def State.drawByte (s : State) : Byte × State :=
  (Config.freeByte s.draws, { s with draws := s.draws + 1 })

/-- A draw of a register value (R70 c). -/
def State.drawWord (s : State) : Word × State :=
  (Config.freeWord s.draws, { s with draws := s.draws + 1 })

/-- The encoding a register stores for a value: its own, or for a NaN the k-th drawn NaN pattern (R140). -/
def storedBits (v : F64) (k : Nat) : DWord := v.toBits.getD (nanPattern k)

/-- How many draws storing a value takes: one for a NaN. -/
def storeDraws (v : F64) : Nat := if v.toBits.isNone then 1 else 0

/-! ### Buffer bytes -/

/-- The offset of `IN[i]` (R66). -/
def inOff (i : Nat) : Nat := 0x1000 + i

/-- The offset of `OUT[i]` (R66). -/
def outOff (i : Nat) : Nat := 0x2000 + i

/-- The offset is that of a byte of one of the two buffers: an index below MAXLEN (R66). -/
def isBufferByte (off : Nat) : Bool :=
  decide (inOff 0 ≤ off ∧ off < inOff maxLen) || decide (outOff 0 ≤ off ∧ off < outOff maxLen)

/-- The byte at a buffer offset: the written byte, the k-th draw where none has been written (R67), and 0 at an
index from MAXLEN on, which is reserved (R66). -/
def byteAt (off : Nat) (m : Memory) (k : Nat) : Byte :=
  if isBufferByte off then (m.lookup off).getD (Config.freeByte k) else 0

/-- How many draws reading a byte takes: one where none has been written. -/
def byteDraws (off : Nat) (m : Memory) : Nat := if isBufferByte off && (m.lookup off).isNone then 1 else 0

/-- A read of one buffer byte. -/
def State.readByte (off : Nat) (s : State) : Byte × State :=
  (byteAt off s.mem s.draws, { s with draws := s.draws + byteDraws off s.mem })

/-- The memory after a byte is stored at an offset. An index from MAXLEN on is reserved and ignores the write
(R66). -/
def storeByte (off : Nat) (b : Byte) (m : Memory) : Memory := if isBufferByte off then m.insert off b else m

/-- A write of one buffer byte. -/
def State.writeByte (off : Nat) (b : Byte) (s : State) : State := { s with mem := storeByte off b s.mem }

/-! ### The state triple X, Y, Z -/

/-- A ChaoticState: the triple (x, y, z) (R30). -/
structure Chaos where
  x : F64
  y : F64
  z : F64
deriving DecidableEq, Repr

/-- `x <- v` writes both halves of X (R30), and so for y and z, in that order. -/
def State.writeChaos (c : Chaos) (s : State) : State :=
  let ky := s.draws + storeDraws c.x
  let kz := ky + storeDraws c.y
  { s with
    xLo := (storedBits c.x s.draws).extractLsb' 0 32, xHi := (storedBits c.x s.draws).extractLsb' 32 32
    yLo := (storedBits c.y ky).extractLsb' 0 32, yHi := (storedBits c.y ky).extractLsb' 32 32
    zLo := (storedBits c.z kz).extractLsb' 0 32, zHi := (storedBits c.z kz).extractLsb' 32 32
    draws := kz + storeDraws c.z }

/-- KB receives a keystream byte. Bits 31:8 of the register read 0 (R27). -/
def State.writeKb (b : Byte) (s : State) : State := { s with kb := b }

/-! ### The register map -/

/-- The register at an offset of the register space. No register: a reserved offset (R21, R33). -/
def Reg.ofOffset (off : Nat) : Option Reg :=
  match off with
  | 0x000 => some .id
  | 0x004 => some .cmd
  | 0x008 => some .status
  | 0x00C => some .len
  | 0x010 => some .ctr
  | 0x014 => some .kb
  | 0x018 => some .warmup
  | 0x01C => some .maxlen
  | 0x020 => some (.key 0)
  | 0x024 => some (.key 1)
  | 0x028 => some (.key 2)
  | 0x02C => some (.key 3)
  | 0x030 => some (.key 4)
  | 0x034 => some (.key 5)
  | 0x038 => some (.key 6)
  | 0x03C => some (.key 7)
  | 0x040 => some (.nonce 0)
  | 0x044 => some (.nonce 1)
  | 0x048 => some (.nonce 2)
  | 0x050 => some .xLo
  | 0x054 => some .xHi
  | 0x058 => some .yLo
  | 0x05C => some .yHi
  | 0x060 => some .zLo
  | 0x064 => some .zHi
  | 0x070 => some .sigmaLo
  | 0x074 => some .sigmaHi
  | 0x078 => some .rhoLo
  | 0x07C => some .rhoHi
  | 0x080 => some .betaLo
  | 0x084 => some .betaHi
  | 0x088 => some .dtLo
  | 0x08C => some .dtHi
  | _ => none

/-- The low and the high half of a binary64 encoding (R30, R31). -/
def lowHalf (b : DWord) : Word := b.extractLsb' 0 32
def highHalf (b : DWord) : Word := b.extractLsb' 32 32

/-- The value of a register (R22–R32). CMD reads 0 (R23). -/
def State.readReg (s : State) : Reg → Word
  | .id => idValue
  | .cmd => 0
  | .status => s.statusWord
  | .len => s.len
  | .ctr => s.ctr
  | .kb => s.kb.zeroExtend 32
  | .warmup => BitVec.ofNat 32 warmupCount
  | .maxlen => BitVec.ofNat 32 maxLen
  | .key k => s.key[k]
  | .nonce k => s.nonce[k]
  | .xLo => s.xLo
  | .xHi => s.xHi
  | .yLo => s.yLo
  | .yHi => s.yHi
  | .zLo => s.zLo
  | .zHi => s.zHi
  | .sigmaLo => lowHalf sigmaBits
  | .sigmaHi => highHalf sigmaBits
  | .rhoLo => lowHalf rhoBits
  | .rhoHi => highHalf rhoBits
  | .betaLo => lowHalf betaBits
  | .betaHi => highHalf betaBits
  | .dtLo => lowHalf dtBits
  | .dtHi => highHalf dtBits

/-- A host write to a register while idle: an RW register takes the word, a RO register ignores it (R21). CMD
holds no value (R23); what a write to it starts is `State.accept`. -/
def State.writeReg (r : Reg) (v : Word) (s : State) : State :=
  match r with
  | .len => { s with len := v }
  | .ctr => { s with ctr := v }
  | .key k => { s with key := s.key.set k v }
  | .nonce k => { s with nonce := s.nonce.set k v }
  | .xLo => { s with xLo := v }
  | .xHi => { s with xHi := v }
  | .yLo => { s with yLo := v }
  | .yHi => { s with yHi := v }
  | .zLo => { s with zLo := v }
  | .zHi => { s with zHi := v }
  | .id | .cmd | .status | .kb | .warmup | .maxlen => s
  | .sigmaLo | .sigmaHi | .rhoLo | .rhoHi | .betaLo | .betaHi | .dtLo | .dtHi => s

/-- The registers whose reads return draws while a command runs (R70 c). -/
def Reg.volatile : Reg → Bool
  | .xLo | .xHi | .yLo | .yHi | .zLo | .zHi | .kb => true
  | .id | .cmd | .status | .len | .ctr | .warmup | .maxlen | .key _ | .nonce _ => false
  | .sigmaLo | .sigmaHi | .rhoLo | .rhoHi | .betaLo | .betaHi | .dtLo | .dtHi => false

/-! ### Starting and completing a command -/

/-- A command ends: PHASE is idle, DONE is 1, and ERR and ERRCODE report the outcome (R225; `complete(c)` of
R224). This is all that raising an error does: nothing is saved and control goes nowhere (R227). -/
def State.complete (c : ErrCode) (s : State) : State := { s with phase := .idle, done := true, err := c }

/-- A command is accepted: PHASE busy, PENDING the word, STATUS {BUSY = 1, DONE = 0, ERR = 0} (R224). -/
def State.begin (w : Word) (s : State) : State := { s with phase := .busy w, done := false, err := .noError }

/-- The message length: LEN as a two's complement integer (R25). -/
def State.lenValue (s : State) : Int := s.len.toInt

/-- The length checks of the driver, in their order (R194, R226). -/
def State.lengthError (s : State) : Option ErrCode :=
  if s.lenValue ≤ 0 then some .invalidLength
  else if (maxLen : Int) < s.lenValue then some .lengthExceedsBuffer
  else none

/-- A write of a word to CMD while idle (R224): an illegal word and a refused length complete at once, and any
other command makes the engine busy. -/
def State.accept (w : Word) (s : State) : State :=
  match decodeWord w with
  | .error _ => s.complete .illegalCommand
  | .ok i =>
    if i.usesLen then
      match s.lengthError with
      | some e => s.complete e
      | none => s.begin w
    else s.begin w

/-! ### Reset -/

/-- How many bytes of DATA_OUT the running command could have written: LEN of them for an ENCRYPT or DECRYPT
that passed the length checks, none for another command or when idle (R251). -/
def State.outAtRisk (s : State) : Nat :=
  match s.phase with
  | .idle => 0
  | .busy w =>
    match decodeWord w with
    | .error _ => 0
    | .ok i => if i.usesLen && s.lengthError.isNone then s.lenValue.toNat else 0

/-- The reset input (R250): every register takes its reset value and the buffers keep their contents, except
that the OUT bytes an abandoned command could have written are unspecified (R251). -/
def State.resetInput (s : State) : State :=
  { State.reset with
    cfg := s.cfg
    mem := s.mem.forget (outOff 0) s.outAtRisk
    draws := s.draws
    agenda := s.agenda
    responses := s.responses }

/-! ### The agenda and the port's answers -/

/-- The port answers an access (R60). -/
def State.respond (r : Response) (s : State) : State := { s with responses := r :: s.responses }

/-- The command the engine's next turn executes: what PENDING decodes to while busy (R91, R190). -/
def State.fetch (s : State) : Option (Except DecodeError Instr) :=
  match s.phase with
  | .idle => none
  | .busy w => some (decodeWord w)

/-- The state in which the engine is about to execute a given word: it has been accepted, and the engine's
turn comes before any other event. -/
def State.withPending (w : Word) (s : State) : State :=
  { s.begin w with
    agenda := match s.agenda with
      | [] => []
      | e :: es => .engine :: e :: es }

end Sys2Proof.Machine
end

