-- ==== Sys2Proof/Machine/Bus.lean ====
section
/-! DEFINITION. The bus port (R60–R71): the window, widths and alignment, reads and writes while idle and while
busy. -/

namespace Sys2Proof.Machine

open Sys2Proof

/-- The number of bytes of an access (R60). -/
def BusWidth.bytes : BusWidth → Nat
  | .byte => 1
  | .half => 2
  | .word => 4

/-- The offset of a bus address in the 16 KiB window at ENGINE_BASE, or nothing outside it (R61). -/
def busOffset (c : BlockConfig) (addr : Nat) : Option Nat :=
  if engineBase c ≤ addr ∧ addr < engineBase c + 0x4000 then some (addr - engineBase c) else none

/-- The four regions of the window (R61). -/
inductive Region where
  | registers
  | dataIn
  | dataOut
  | reserved
deriving DecidableEq, Repr

/-- The region of an offset below 0x4000 (R61). -/
def regionOf (off : Nat) : Region :=
  if off < 0x1000 then .registers
  else if off < 0x2000 then .dataIn
  else if off < 0x3000 then .dataOut
  else .reserved

/-- The widths a region accepts: any in the buffers, only 4 bytes elsewhere (R61). -/
def widthAllowed (r : Region) (w : BusWidth) : Bool :=
  match r with
  | .registers => w == .word
  | .dataIn => true
  | .dataOut => true
  | .reserved => w == .word

/-- The access is aligned and of a width its region accepts. Any other gets `BUS_ERROR` (R62). -/
def accessOk (off : Nat) (w : BusWidth) : Bool :=
  decide (off % w.bytes = 0) && widthAllowed (regionOf off) w

/-- `n` buffer bytes from an offset on, the first in bits 7:0, zero-extended (R64, R99). -/
def State.readBytes : Nat → Nat → State → Word × State
  | 0, _, s => (0, s)
  | n + 1, off, s =>
    let (b, s) := s.readByte off
    let (v, s) := State.readBytes n (off + 1) s
    ((v <<< 8) ||| b.zeroExtend 32, s)

/-- As `readBytes`, of DATA_OUT while busy: every byte is a draw (R70 c), but for reserved indices (R66). -/
def State.drawBytes : Nat → Nat → State → Word × State
  | 0, _, s => (0, s)
  | n + 1, off, s =>
    let (b, s) := if isBufferByte off then s.drawByte else (0, s)
    let (v, s) := State.drawBytes n (off + 1) s
    ((v <<< 8) ||| b.zeroExtend 32, s)

/-- The low `n` bytes of a value stored from an offset on, the byte in bits 7:0 first (R64). -/
def State.writeBytes : Nat → Nat → Word → State → State
  | 0, _, _, s => s
  | n + 1, off, v, s => State.writeBytes n (off + 1) (v >>> 8) (s.writeByte off (v.extractLsb' 0 8))

/-- A read of a register offset (R21, R33), with the draws of a busy read (R70). -/
def State.readOffset (off : Nat) (s : State) : Word × State :=
  match Reg.ofOffset off with
  | none => (0, s)
  | some r => if s.busy && r.volatile then s.drawWord else (s.readReg r, s)

/-- A read access at an offset of the window: the port's answer, and the state with any draws counted. -/
def State.serveRead (off : Nat) (w : BusWidth) (s : State) : Response × State :=
  if accessOk off w then
    match regionOf off with
    | .registers =>
      let (v, s) := s.readOffset off
      (.data v, s)
    | .dataIn =>
      let (v, s) := State.readBytes w.bytes off s
      (.data v, s)
    | .dataOut =>
      let (v, s) := if s.busy then State.drawBytes w.bytes off s else State.readBytes w.bytes off s
      (.data v, s)
    | .reserved => (.data 0, s)
  else (.busError, s)

/-- A write to a register offset while idle: CMD starts a command, reserved offsets ignore it (R21, R23, R33). -/
def State.writeOffset (off : Nat) (v : Word) (s : State) : State :=
  match Reg.ofOffset off with
  | none => s
  | some r => if r = .cmd then s.accept v else s.writeReg r v

/-- A write access at an offset of the window. While busy every write is answered and ignored (R70 a). -/
def State.serveWrite (off : Nat) (w : BusWidth) (v : Word) (s : State) : Response × State :=
  if accessOk off w then
    if s.busy then (.ok, s)
    else
      match regionOf off with
      | .registers => (.ok, s.writeOffset off v)
      | .dataIn => (.ok, State.writeBytes w.bytes off v s)
      | .dataOut => (.ok, State.writeBytes w.bytes off v s)
      | .reserved => (.ok, s)
  else (.busError, s)

/-- The host's step `MemRead` at a bus address (R60). -/
def hostRead (addr : Nat) (w : BusWidth) (s : State) : Host.Outcome State Fault Refusal :=
  match busOffset s.cfg addr with
  | none => .fault (.outsideWindow addr)
  | some off =>
    let (r, s) := s.serveRead off w
    .next (s.respond r)

/-- The host's step `MemWrite` at a bus address (R60). -/
def hostWrite (addr : Nat) (w : BusWidth) (v : Word) (s : State) : Host.Outcome State Fault Refusal :=
  match busOffset s.cfg addr with
  | none => .fault (.outsideWindow addr)
  | some off =>
    let (r, s) := s.serveWrite off w v
    .next (s.respond r)

end Sys2Proof.Machine
end

