-- ==== Sys2Proof/Machine/Operands.lean ====
section
/-! DEFINITION. The operands of the commands (R94, R95): all implicit, none scaled or shifted. -/

namespace Sys2Proof.Machine

open Sys2Proof

/-- Byte `b` of a register, b = 0..3: bits 8b+7:8b (R28, R64). -/
def byteOfWord (v : Word) (b : Nat) : Byte := v.extractLsb' (8 * b) 8

/-- `key[j]`, j = 0..31: byte j mod 4 of KEY(j div 4) (R28, R120). -/
def State.keyByte (s : State) (j : Fin 32) : Byte :=
  byteOfWord (s.key[j.val / 4]'(by omega)) (j.val % 4)

/-- `nonce[j]`, j = 0..11: byte j mod 4 of NONCE(j div 4) (R29, R120). -/
def State.nonceByte (s : State) (j : Fin 12) : Byte :=
  byteOfWord (s.nonce[j.val / 4]'(by omega)) (j.val % 4)

/-- The encodings in X, Y and Z: the high half above the low half (R30). -/
def State.xBits (s : State) : DWord := s.xHi ++ s.xLo
def State.yBits (s : State) : DWord := s.yHi ++ s.yLo
def State.zBits (s : State) : DWord := s.zHi ++ s.zLo

/-- The state triple (x, y, z) of the registers (R30). -/
def State.chaos (s : State) : Chaos :=
  ⟨F64.ofBits s.xBits, F64.ofBits s.yBits, F64.ofBits s.zBits⟩

end Sys2Proof.Machine
end

