-- ==== Sys2Proof/Machine/Extractor.lean ====
section
/-! DEFINITION. The KeystreamExtractor KBYTEF (R160–R170) and the EXTRACT command (R171, R172). -/

namespace Sys2Proof.Machine

open Sys2Proof

/-- The combination x·φ + y·e + z·π: three products, summed left to right (R161). -/
def combination (c : Chaos) : F64 := fadd (fadd (fmul c.x kPhi) (fmul c.y kE)) (fmul c.z kPi)

/-- The fractional part of |comb| (R163). -/
def fraction (comb : F64) : F64 :=
  let a := fabs comb
  fsub a (ffloor a)

/-- The fraction perturbed by the counter, modulo 1.0 (R164). -/
def perturb (fr : F64) (c : Word) : F64 := ffmod (fadd fr (fmul (cvtU32 c) kCtr)) fOne

/-- The scaled fraction as an integer (R165). Nothing only if it is not in 0..255, which R165 excludes. -/
def scaleByte (fr : F64) : Option Nat := (ftoint (ffloor (fmul fr f256))).map (· % 256)

/-- Pass 1 (R166). -/
def pass1 (b c : Nat) : Nat := (b + c % 256) % 256

/-- Pass 2 (R167): every term is of the byte pass 1 left. -/
def pass2 (b c : Nat) : Nat := b ^^^ ((b >>> 4) ^^^ ((b <<< 3) % 256) ^^^ (c % 97))

/-- Pass 3 (R168). -/
def pass3 (b : Nat) : Nat := (b * 167 + 123) % 256

/-- The three passes in order, of the unsigned value of the counter (R170). -/
def passes (b : Nat) (c : Word) : Byte := BitVec.ofNat 8 (pass3 (pass2 (pass1 b c.toNat) c.toNat))

/-- `KBYTEF(x, y, z, c)` (R160): a byte, or nothing where it raises NUMERIC (R162). -/
def kbyteF (c : Chaos) (ctr : Word) : Option Byte :=
  let comb := combination c
  if isfinite comb then (scaleByte (perturb (fraction comb) ctr)).map fun b => passes b ctr
  else none

/-- EXTRACT (R171): KB receives the byte; a combination that is not finite completes with NUMERIC and changes
nothing else (R172). -/
def execExtract (s : State) : Host.Outcome State Fault Refusal :=
  match kbyteF s.chaos s.ctr with
  | some b => .next ((s.writeKb b).complete .noError)
  | none => .next (s.complete .numeric)

end Sys2Proof.Machine
end

