-- ==== Sys2Proof/Machine/Mixer.lean ====
section
/-! DEFINITION. The StateMixer MIXF (R110–R118) and the MIX command (R120). -/

namespace Sys2Proof.Machine

open Sys2Proof

/-- `rotl64(a, r)` for 0 ≤ r < 64 (R9). -/
def rotl64 (a : DWord) (r : Nat) : DWord := if r = 0 then a else (a <<< r) ||| (a >>> (64 - r))

/-- The three accumulator lanes L1, L2, L3 (R111). -/
abbrev Lanes := Three DWord

/-- One lane absorbs a key byte: rotate the lane, then xor in byte × constant (R112). -/
def absorbKeyLane (r : Nat) (k : DWord) (b : Byte) (l : DWord) : DWord := rotl64 l r ^^^ (b.zeroExtend 64 * k)

/-- A key byte is absorbed into all three lanes (R112). -/
def absorbKey (p : MixerParams) (b : Byte) (l : Lanes) : Lanes where
  m1 := absorbKeyLane p.krot.m1 p.kmul.m1 b l.m1
  m2 := absorbKeyLane p.krot.m2 p.kmul.m2 b l.m2
  m3 := absorbKeyLane p.krot.m3 p.kmul.m3 b l.m3

/-- Nonce byte j is absorbed: shift-xor, weighted add, rotate-xor (R113). -/
def absorbNonce (p : MixerParams) (j : Fin 12) (b : Byte) (l : Lanes) : Lanes where
  m1 := l.m1 ^^^ (b.zeroExtend 64 <<< p.nsh[j])
  m2 := l.m2 + b.zeroExtend 64 * p.nw[j]
  m3 := rotl64 l.m3 p.nrot ^^^ b.zeroExtend 64

/-- The cross-mix: three statements, each reading the lanes as the one before left them (R114). -/
def crossMix (l : Lanes) : Lanes :=
  let l1 := l.m1 ^^^ (l.m2 ^^^ l.m3)
  let l2 := l.m2 + 3 * l1
  let l3 := l.m3 ^^^ ((l1 >>> 32) ^^^ (l2 <<< 32))
  ⟨l1, l2, l3⟩

/-- Final whitening (R115). -/
def whiten (p : MixerParams) (l : Lanes) : Lanes := ⟨l.m1 ^^^ p.fx.m1, l.m2 ^^^ p.fx.m2, l.m3 ^^^ p.fx.m3⟩

/-- The lanes after all key bytes, in order (R111, R112). -/
def keyLanes (p : MixerParams) (key : Fin 32 → Byte) : Lanes :=
  (List.finRange 32).foldl (fun l j => absorbKey p (key j) l) p.laneInit

/-- The lanes after all nonce bytes, in order, from given lanes (R113). -/
def nonceLanes (p : MixerParams) (nonce : Fin 12 → Byte) (l : Lanes) : Lanes :=
  (List.finRange 12).foldl (fun l j => absorbNonce p j (nonce j) l) l

/-- The final lanes (R111–R115). -/
def mixLanes (p : MixerParams) (key : Fin 32 → Byte) (nonce : Fin 12 → Byte) : Lanes :=
  whiten p (crossMix (nonceLanes p nonce (keyLanes p key)))

/-- A lane as a coordinate: divided by 2^64, modulo 1.0 (R116). -/
def laneCoord (l : DWord) : F64 := ffmod (fdiv (cvtU64 l) kDiv) fOne

/-- The zero fallback of one coordinate (R117). -/
def zeroFallback (fb : DWord) (c : F64) : F64 := if c.isZero then F64.ofBits fb else c

/-- `MIXF(key, nonce)` (R110–R117). -/
def mixF (p : MixerParams) (key : Fin 32 → Byte) (nonce : Fin 12 → Byte) : Chaos :=
  let l := mixLanes p key nonce
  { x := zeroFallback p.fb.m1 (laneCoord l.m1)
    y := zeroFallback p.fb.m2 (laneCoord l.m2)
    z := zeroFallback p.fb.m3 (laneCoord l.m3) }

/-- The initial state the key and nonce registers give (R120). -/
def State.mixed (s : State) : Chaos := mixF s.cfg.mixer s.keyByte s.nonceByte

/-- MIX (R120): (x, y, z) <- MIXF(key, nonce). It cannot fail. -/
def execMix (s : State) : Host.Outcome State Fault Refusal :=
  .next ((s.writeChaos s.mixed).complete .noError)

end Sys2Proof.Machine
end

