-- ==== Sys2Proof/Machine/Stepper.lean ====
section
/-! DEFINITION. The ChaoticStepper STEPF (R142, R143) and the STEP command (R145). -/

namespace Sys2Proof.Machine

open Sys2Proof

/-- `STEPF(x, y, z)` (R142): the operations in the order written, all three increments from the unprimed
values (R143). -/
def stepF (c : Chaos) : Chaos :=
  let dx := fmul (fmul sigma (fsub c.y c.x)) dt
  let dy := fmul (fsub (fmul c.x (fsub rho c.z)) c.y) dt
  let dz := fmul (fsub (fmul c.x c.y) (fmul beta c.z)) dt
  ⟨fadd c.x dx, fadd c.y dy, fadd c.z dz⟩

/-- STEPF applied n times (R146, R191). -/
def stepN : Nat → Chaos → Chaos
  | 0, c => c
  | n + 1, c => stepN n (stepF c)

/-- STEP (R145): (x, y, z) <- STEPF(x, y, z). It cannot fail, whatever the values (R144). -/
def execStep (s : State) : Host.Outcome State Fault Refusal :=
  .next ((s.writeChaos (stepF s.chaos)).complete .noError)

end Sys2Proof.Machine
end

