-- ==== Sys2Proof/Machine/Driver.lean ====
section
/-! DEFINITION. The CipherDriver (R191–R194) and the ENCRYPT and DECRYPT commands (R195–R197). -/

namespace Sys2Proof.Machine

open Sys2Proof

/-- The keystream bytes at `n` positions from position `i` on, and the state after them: each byte advances the
state by one step and is extracted from the advanced state with the position as counter (R192). Nothing where
an extraction raises NUMERIC (R197). -/
def keystream : Nat → Nat → Chaos → Option (List Byte × Chaos)
  | 0, _, c => some ([], c)
  | n + 1, i, c =>
    let c' := stepF c
    match kbyteF c' (BitVec.ofNat 32 i) with
    | none => none
    | some k =>
      match keystream n (i + 1) c' with
      | none => none
      | some (ks, c'') => some (k :: ks, c'')

/-- The whole keystream of a message of `n` bytes: from the mixed state, after the warmup (R191, R193). -/
def State.driven (s : State) (n : Nat) : Option (List Byte × Chaos) :=
  keystream n 0 (stepN warmupCount s.mixed)

/-- `OUT[i] <- IN[i] ^ k` for the bytes of a keystream, ascending from position `i`: the memory after it, and the
number of draws taken by then (R68, R192). -/
def xorBytes : List Byte → Nat → Memory → Nat → Memory × Nat
  | [], _, m, d => (m, d)
  | k :: ks, i, m, d =>
    xorBytes ks (i + 1) (storeByte (outOff i) (byteAt (inOff i) m d ^^^ k) m) (d + byteDraws (inOff i) m)

/-- The output loop over a keystream, from position 0 (R192). -/
def State.xorOut (ks : List Byte) (s : State) : State :=
  { s with
    mem := (xorBytes ks 0 s.mem s.draws).1
    draws := (xorBytes ks 0 s.mem s.draws).2 }

/-- The driver procedure of both commands (R193–R195). The length is checked before any computation; the whole
keystream is computed before anything is written, so that a NUMERIC error has no side effect (R197). -/
def State.drive (s : State) : State :=
  match s.lengthError with
  | some e => s.complete e
  | none =>
    match s.driven s.lenValue.toNat with
    | none => s.complete .numeric
    | some (ks, c) => ((s.xorOut ks).writeChaos c).complete .noError

/-- ENCRYPT (R195). -/
def execEncrypt (s : State) : Host.Outcome State Fault Refusal := .next s.drive

/-- DECRYPT (R196): the same procedure, by the self-inverse of xor. -/
def execDecrypt (s : State) : Host.Outcome State Fault Refusal := .next s.drive

end Sys2Proof.Machine
end

