-- ==== Sys2Proof/Machine/Engine.lean ====
section
/-! DEFINITION. The engine's turn (R190). -/

namespace Sys2Proof.Machine

open Sys2Proof

/-- The engine's turn (R190): while busy it executes the command PENDING names, completely, as one transition.
A pending word that is no command, which acceptance never leaves (R224), completes as an illegal one (R91).
While idle the engine does nothing (R232). -/
def engineTurn (s : State) : Host.Outcome State Fault Refusal :=
  match s.fetch with
  | none => .next s
  | some (.ok i) => exec i s
  | some (.error _) => .next (s.complete .illegalCommand)

end Sys2Proof.Machine
end

