-- ==== Sys2Proof/Machine/Step.lean ====
section
/-! DEFINITION. One step of KAOS-CORE: the next event of the agenda takes effect (R71, R190). -/

namespace Sys2Proof.Machine

open Sys2Proof

/-- One step: the first event of the agenda, or the engine's turn when no event is scheduled, so that an accepted
command always completes (R190). -/
def step (s : State) : Host.Outcome State Fault Refusal :=
  match s.agenda with
  | [] => engineTurn s
  | .engine :: rest => engineTurn { s with agenda := rest }
  | .reset :: rest => .next (State.resetInput { s with agenda := rest })
  | .read addr w :: rest => hostRead addr w { s with agenda := rest }
  | .write addr w v :: rest => hostWrite addr w v { s with agenda := rest }

/-- The state in which the very next step executes the command of `nbits` bits `w`: it is PENDING, as after the
accepted CMD write that carries it (R90, R224), and the engine's turn is next. -/
def State.withFetchWord (s : State) (nbits w : Nat) : State :=
  s.withPending (wordOfTable nbits w)

end Sys2Proof.Machine
end

