-- ==== Sys2Proof/Machine/HostProgram.lean ====
section
/-! DEFINITION. The host notation (R12, R97) as events: what a host program puts on the agenda of a block with a
given ENGINE_BASE. A pseudo-operation has no meaning of its own (R97): it is the accesses it expands to. -/

namespace Sys2Proof.Machine

open Sys2Proof

/-- `wr OFF, V` (R12). -/
def wr (c : BlockConfig) (off : Nat) (v : Word) : Event := .write (engineBase c + off) .word v

/-- `wrb OFF, V` (R12). -/
def wrb (c : BlockConfig) (off : Nat) (b : Byte) : Event := .write (engineBase c + off) .byte (b.zeroExtend 32)

/-- `rd OFF` (R12). -/
def rd (c : BlockConfig) (off : Nat) : Event := .read (engineBase c + off) .word

/-- A 1-byte read, as `readout` makes it (R97). -/
def rdb (c : BlockConfig) (off : Nat) : Event := .read (engineBase c + off) .byte

/-- `wait` (R12, R97) in the interleaving where the engine's step comes after `polls` polls that return
BUSY = 1: those polls, the engine's turn, and the poll that returns BUSY = 0. -/
def waitIdle (c : BlockConfig) (polls : Nat) : List Event :=
  List.replicate polls (rd c 0x008) ++ [.engine, rd c 0x008]

/-- `cmd NAME`: the CMD write of the command's word, then `wait` (R12, R97). -/
def cmd (c : BlockConfig) (i : Instr) (polls : Nat) : List Event := wr c 0x004 (encode i) :: waitIdle c polls

/-- `setkey` (R97). -/
def setkey (c : BlockConfig) (b : Fin 32 → Byte) : List Event :=
  (List.finRange 8).map fun k =>
    wr c (0x020 + 4 * k.val)
      (wordOfBytes (b ⟨4 * k.val, by omega⟩) (b ⟨4 * k.val + 1, by omega⟩)
        (b ⟨4 * k.val + 2, by omega⟩) (b ⟨4 * k.val + 3, by omega⟩))

/-- `setnonce` (R97). -/
def setnonce (c : BlockConfig) (b : Fin 12 → Byte) : List Event :=
  (List.finRange 3).map fun k =>
    wr c (0x040 + 4 * k.val)
      (wordOfBytes (b ⟨4 * k.val, by omega⟩) (b ⟨4 * k.val + 1, by omega⟩)
        (b ⟨4 * k.val + 2, by omega⟩) (b ⟨4 * k.val + 3, by omega⟩))

/-- The offset of the low half of X, Y or Z, the coordinate numbered 0, 1, 2 (R21). -/
def coordOff (r : Fin 3) : Nat := 0x050 + 8 * r.val

/-- `setstate R, v` (R97): low half, then high half. -/
def setstate (c : BlockConfig) (r : Fin 3) (v : DWord) : List Event :=
  [wr c (coordOff r) (lowHalf v), wr c (coordOff r + 4) (highHalf v)]

/-- `getstate R` (R97). -/
def getstate (c : BlockConfig) (r : Fin 3) : List Event := [rd c (coordOff r), rd c (coordOff r + 4)]

/-- `setlen n`, two's complement (R97). -/
def setlen (c : BlockConfig) (n : Int) : Event := wr c 0x00C (BitVec.ofInt 32 n)

/-- `setctr c` (R97). -/
def setctr (c : BlockConfig) (v : Word) : Event := wr c 0x010 v

/-- `getkb` (R97). -/
def getkb (c : BlockConfig) : Event := rd c 0x014

/-- `loadmsg` (R97): one 1-byte write for each message byte. -/
def loadmsg (c : BlockConfig) (m : List Byte) : List Event := m.mapIdx fun i b => wrb c (inOff i) b

/-- `readout n` (R97). -/
def readout (c : BlockConfig) (n : Nat) : List Event := (List.range n).map fun i => rdb c (outOff i)

/-- `check` (R97): success when the answer is 0x00000002. -/
def check (c : BlockConfig) : Event := rd c 0x008

/-- The key and nonce of a persisted key-material file: 32 key bytes, then 12 nonce bytes (R205). -/
def loadKeyFile (c : BlockConfig) (file : Fin 44 → Byte) : List Event :=
  setkey c (fun j => file ⟨j.val, by omega⟩) ++ setnonce c (fun j => file ⟨32 + j.val, by omega⟩)

end Sys2Proof.Machine
end

