-- ==== Sys2Proof/Safety.lean ====
section
/-! DEFINITION. What counts as a good state and a safe run, in the terms the statements use. -/

namespace Sys2Proof.Machine

open Sys2Proof

/-- The event is no access outside the window: the accesses that reach KAOS-CORE (R61). -/
def Event.inWindow (c : BlockConfig) : Event → Bool
  | .read addr _ => (busOffset c addr).isSome
  | .write addr _ _ => (busOffset c addr).isSome
  | .engine => true
  | .reset => true

/-- Every scheduled access reaches the block. -/
def State.agendaInWindow (s : State) : Bool := s.agenda.all fun e => e.inWindow s.cfg

/-- Every listed byte is a byte of one of the two buffers (R66). -/
def Memory.inBuffers (m : Memory) : Bool := m.all fun c => isBufferByte c.1

/-- PHASE, PENDING and STATUS agree (R20, R24, R224): while busy a legal command is pending, its length has been
accepted, and DONE and ERR are 0; while idle and not done, ERR is 0. -/
def State.statusCoherent (s : State) : Bool :=
  match s.phase with
  | .idle => s.done || s.err == .noError
  | .busy w =>
    !s.done && s.err == .noError &&
      match decodeWord w with
      | .error _ => false
      | .ok i => !i.usesLen || s.lengthError.isNone

/-- The invariant of the machine: memory in its one form and inside the buffers, status coherent. -/
def State.Inv (s : State) : Prop :=
  s.mem.wf ∧ s.mem.inBuffers = true ∧ s.statusCoherent = true

/-- The end of a host program: its last access has completed and STATUS reads BUSY = 0 (R261). -/
def State.ended (s : State) : Bool := s.agenda.isEmpty && !s.busy

/-- The state is not stopped by `k` steps: no fault and no refusal. -/
def SafeFor (k : Nat) (s : State) : Prop := ∃ t, Sys2Proof.core.run k s = .next t

/-- Each value of the triple is a binary64: a NaN, an infinity, or a finite value with at most 53 significant
bits (R95). -/
def Chaos.wf (c : Chaos) : Bool := c.x.wf && c.y.wf && c.z.wf

/-- The registers no command writes, the OPEN parameters, the events to come and the answers given are the same
in both states (R94). -/
def State.sameOperands (s t : State) : Prop :=
  t.cfg = s.cfg ∧ t.len = s.len ∧ t.ctr = s.ctr ∧ t.key = s.key ∧ t.nonce = s.nonce ∧
    t.agenda = s.agenda ∧ t.responses = s.responses

/-- The six state registers hold the same words in both states (R30). -/
def State.sameTriple (s t : State) : Prop :=
  t.xLo = s.xLo ∧ t.xHi = s.xHi ∧ t.yLo = s.yLo ∧ t.yHi = s.yHi ∧ t.zLo = s.zLo ∧ t.zHi = s.zHi

/-- Every buffer byte is as it was: written with the same value, or unwritten (R67). -/
def State.sameBytes (s t : State) : Prop := ∀ a, t.mem.lookup a = s.mem.lookup a

/-- Every buffer byte but OUT[0..n−1] is as it was (R68, R200). -/
def State.sameBytesButOut (n : Nat) (s t : State) : Prop :=
  ∀ a, (∀ i, i < n → a ≠ outOff i) → t.mem.lookup a = s.mem.lookup a

/-- Everything but PHASE, STATUS and the draw count is as it was: what a command that fails leaves (R221). -/
def State.sameButStatus (s t : State) : Prop :=
  s.sameOperands t ∧ s.sameTriple t ∧ t.kb = s.kb ∧ s.sameBytes t

/-- How many of the `n` bytes from an offset on have not been written, so that reading them takes as many draws
(R67). -/
def State.unwritten (off n : Nat) (s : State) : Nat :=
  (List.range n).countP fun k => (s.mem.lookup (off + k)).isNone

/-- Keystream position i of the message under the state's key and nonce: extracted from the state after
WARMUP + i + 1 steps, with i as the counter (R193). -/
def State.positionByte (s : State) (i : Nat) : Option Byte :=
  kbyteF (stepN (warmupCount + i + 1) s.mixed) (BitVec.ofNat 32 i)

/-- The commands of a list, one after another, as the engine executes them. -/
def execAll : List Instr → State → Host.Outcome State Fault Refusal
  | [], s => .next s
  | i :: is, s =>
    match exec i s with
    | .next t => execAll is t
    | .fault r => .fault r
    | .refused r => .refused r

/-- Byte i of the host sequence of R201: STEP, CTR <- i, EXTRACT, and the host's OUT[i] <- IN[i] ^ KB. -/
def primitiveByte (i : Nat) (s : State) : Host.Outcome State Fault Refusal :=
  match exec .step s with
  | .next s =>
    match exec .extract (s.writeReg .ctr (BitVec.ofNat 32 i)) with
    | .next s =>
      let (b, s) := s.readByte (inOff i)
      .next (s.writeByte (outOff i) (b ^^^ s.kb))
    | .fault r => .fault r
    | .refused r => .refused r
  | .fault r => .fault r
  | .refused r => .refused r

/-- Bytes i..i+n−1 of the host sequence of R201. -/
def primitiveBytes : Nat → Nat → State → Host.Outcome State Fault Refusal
  | 0, _, s => .next s
  | n + 1, i, s =>
    match primitiveByte i s with
    | .next t => primitiveBytes n (i + 1) t
    | .fault r => .fault r
    | .refused r => .refused r

/-- The host sequence of R201 for n bytes: MIX, WARMUP STEPs, then the bytes. -/
def primitiveSequence (n : Nat) (s : State) : Host.Outcome State Fault Refusal :=
  match execAll (.mix :: List.replicate warmupCount .step) s with
  | .next t => primitiveBytes n 0 t
  | .fault r => .fault r
  | .refused r => .refused r

/-- The integer multiple of 2^-1074 a sign and a magnitude stand for. -/
def signed (neg : Bool) (mag : Nat) : Int := if neg then -(mag : Int) else mag

end Sys2Proof.Machine
end

