-- ==== Sys2Proof/Certificates/Slice0/Obligations.lean ====
section
/-! DEFINITION. The statements for the provers, by the spec's numbered rules. Every statement holds for every
choice of the OPEN parameters, which stand in the state, and for every value of the draws. -/

open Sys2Proof Sys2Proof.Machine

/-! ### Encoding (R90–R93) -/

/-- R92: each command is selected by exactly one 32-bit word. -/
def Obligations.EachCommandHasExactlyOneWord : Prop :=
  ∀ w : Word,
    (decodeWord w = .ok .mix ↔ w = 0x00000001) ∧
    (decodeWord w = .ok .step ↔ w = 0x00000002) ∧
    (decodeWord w = .ok .extract ↔ w = 0x00000003) ∧
    (decodeWord w = .ok .encrypt ↔ w = 0x00000004) ∧
    (decodeWord w = .ok .decrypt ↔ w = 0x00000005)

/-- R90, R64: the byte decoder reads a command exactly where the bytes begin with its encoding, and leaves the
rest. Every command is well formed, so no premise is needed. -/
def Obligations.DecodeReadsExactlyEncodedBytes : Prop :=
  ∀ (bs : List Byte) (i : Instr) (rest : List Byte),
    decode bs = .ok (i, rest) ↔ bs = encodeBytes i ++ rest

/-- R93: a word with a nonzero reserved bit is rejected for that, any other illegal word for its OP. -/
def Obligations.IllegalWordsRejectedByName : Prop :=
  ∀ w : Word,
    (16 ≤ w.toNat → decodeWord w = .error (.reservedBits (w.extractLsb' 4 28))) ∧
    (w.toNat < 16 → (w.toNat = 0 ∨ 6 ≤ w.toNat) → decodeWord w = .error (.reservedOp (w.extractLsb' 0 4)))

/-- R90, R92: the five command words, written out as the bytes the bus carries, decode to their commands. -/
def Obligations.WrittenOutWordsDecode : Prop :=
  decode [0x01, 0, 0, 0] = .ok (.mix, []) ∧ decode [0x02, 0, 0, 0] = .ok (.step, []) ∧
  decode [0x03, 0, 0, 0] = .ok (.extract, []) ∧ decode [0x04, 0, 0, 0] = .ok (.encrypt, []) ∧
  decode [0x05, 0, 0, 0] = .ok (.decrypt, []) ∧ decodeTableWord 32 0x00000004 = some .encrypt

/-! ### The engine and the order of events (R71, R190) -/

/-- R190: the engine's turn executes the pending command. That it comes when the agenda says so, or when no other
event is scheduled, is the model's choice (log entry 7). -/
def Obligations.StepExecutesPendingCommand : Prop :=
  ∀ (s : State) (w : Word) (i : Instr) (es : List Event),
    s.phase = .busy w → decodeWord w = .ok i →
    (s.agenda = .engine :: es → step s = exec i { s with agenda := es }) ∧
    (s.agenda = [] → step s = exec i s)

/-- The word placed for the next step is the command that runs, in the state its acceptance leaves (R224). How a
command is placed is the model's choice (log entry 9). -/
def Obligations.PlacedWordRunsNext : Prop :=
  ∀ (s : State) (i : Instr), step (s.withFetchWord 32 (encode i).toNat) = exec i (s.begin (encode i))

/-- R190, R225: from a good busy state the engine's turn completes the command in one step: idle, DONE = 1, and
STATUS the success value or the NUMERIC value. -/
def Obligations.EngineTurnCompletesCommand : Prop :=
  ∀ (s : State) (w : Word), s.Inv → s.phase = .busy w → (s.agenda = [] ∨ ∃ es, s.agenda = .engine :: es) →
    ∃ t, step s = .next t ∧ t.phase = .idle ∧ t.agenda = s.agenda.tail ∧
      (t.statusWord = 0x00000002 ∨ t.statusWord = 0x00000046)

/-- R190, R262: when every scheduled access reaches the block, one step more than there are events ends with no
event left and the engine idle: an accepted command always completes. The agenda is the model's (log entry 7). -/
def Obligations.AgendaDrainsToIdle : Prop :=
  ∀ s : State, s.agendaInWindow = true →
    ∃ t, Sys2Proof.core.run (s.agenda.length + 1) s = .next t ∧ t.ended = true

/-- A run whose scheduled accesses all reach the block never stops: no command and no bus access faults or is
refused (R227, R61). That accesses are scheduled by the state is the model's choice (log entry 7). -/
def Obligations.RunsInsideTheWindowNeverStop : Prop :=
  ∀ s : State, s.agendaInWindow = true → ∀ k, SafeFor k s

/-- An access outside the window stops the model by name. Its effect is the platform's (R61); the fault is the
model's choice (log entry 10). -/
def Obligations.AccessOutsideWindowFaults : Prop :=
  ∀ (s : State) (a : Nat) (w : BusWidth) (v : Word) (es : List Event),
    (a < engineBase s.cfg ∨ engineBase s.cfg + 0x4000 ≤ a) →
    (s.agenda = .read a w :: es ∨ s.agenda = .write a w v :: es) → step s = .fault (.outsideWindow a)

/-- Every step keeps the invariant: the written bytes in their one form and inside the two buffers, and PHASE,
PENDING and STATUS in agreement. -/
def Obligations.EveryStepKeepsInvariant : Prop :=
  ∀ s t : State, s.Inv → step s = .next t → t.Inv

/-- The reset state meets the invariant, and its mixer parameters are ones R119 admits. -/
def Obligations.ResetMeetsInvariant : Prop :=
  State.reset.Inv ∧ State.reset.cfg.mixer.wf = true

/-- R7, R22, R31, R32: no step changes the hardwired registers, or the parameters the block is built with, which
the model holds in its state (log entry 1). -/
def Obligations.HardwiredRegistersNeverChange : Prop :=
  ∀ s t : State, step s = .next t →
    t.cfg = s.cfg ∧
    t.readReg .id = 0x4B414F53 ∧ t.readReg .warmup = 0x00001388 ∧ t.readReg .maxlen = 0x00001000 ∧
    t.readReg .sigmaLo = 0x00000000 ∧ t.readReg .sigmaHi = 0x40240000 ∧
    t.readReg .rhoLo = 0x00000000 ∧ t.readReg .rhoHi = 0x403C0000 ∧
    t.readReg .betaLo = 0x55555555 ∧ t.readReg .betaHi = 0x40055555 ∧
    t.readReg .dtLo = 0x47AE147B ∧ t.readReg .dtHi = 0x3F847AE1

/-- R28, R29, R94: the key and the nonce change only by an idle host write to one of their registers, or by
reset. -/
def Obligations.KeyAndNonceChangeOnlyByHostOrReset : Prop :=
  ∀ s t : State, step s = .next t → (t.key ≠ s.key ∨ t.nonce ≠ s.nonce) →
    (∃ es, s.agenda = .reset :: es) ∨
    (s.phase = .idle ∧ ∃ off v es, s.agenda = .write (engineBase s.cfg + off) .word v :: es ∧
      0x020 ≤ off ∧ off ≤ 0x048 ∧ off % 4 = 0)

/-- R24, R225: STATUS changes only when the engine completes a command, when an idle word write to CMD is taken,
or by reset. -/
def Obligations.StatusChangesOnlyByCommandOrReset : Prop :=
  ∀ s t : State, step s = .next t → t.statusWord ≠ s.statusWord →
    (∃ es, s.agenda = .reset :: es) ∨
    (s.busy = true ∧ (s.agenda = [] ∨ ∃ es, s.agenda = .engine :: es)) ∨
    (s.phase = .idle ∧ ∃ v es, s.agenda = .write (engineBase s.cfg + 0x004) .word v :: es)

/-! ### STATUS (R24) -/

/-- R24: the places of the STATUS fields, the error codes of R220, and the reserved bits. -/
def Obligations.StatusWordFields : Prop :=
  ∀ s : State,
    s.statusWord.getLsbD 0 = s.busy ∧ s.statusWord.getLsbD 1 = s.done ∧
    s.statusWord.getLsbD 2 = s.errFlag ∧ s.statusWord.getLsbD 3 = false ∧
    s.statusWord.extractLsb' 4 4 = s.err.code ∧ s.statusWord.extractLsb' 8 24 = 0 ∧
    (s.err = .illegalCommand → s.err.code = 1) ∧ (s.err = .invalidLength → s.err.code = 2) ∧
    (s.err = .lengthExceedsBuffer → s.err.code = 3) ∧ (s.err = .numeric → s.err.code = 4) ∧
    (s.errFlag = false → s.err.code = 0)

/-- R24: the legal values of STATUS, in every good state. -/
def Obligations.StatusReadsLegalValue : Prop :=
  ∀ s : State, s.Inv →
    s.statusWord ∈ ([0x00000000, 0x00000001, 0x00000002, 0x00000016, 0x00000026, 0x00000036, 0x00000046] : List Word)

/-! ### The bus port (R60–R70) -/

/-- R224: what a host write at CMD does, in every case: ignored while busy; no command when misaligned or
narrow; else the command is rejected at once or accepted. STATUS reads 0x16, 0x26, 0x36 or 0x01 after it, and
nothing but PHASE and STATUS changes. -/
def Obligations.CommandAcceptance : Prop :=
  ∀ (s : State) (v : Word) (es : List Event),
    (∀ (off : Nat) (w : BusWidth), 4 ≤ off → off < 8 → ¬ (off = 4 ∧ w = .word) →
      s.agenda = .write (engineBase s.cfg + off) w v :: es →
      step s = .next { s with agenda := es, responses := .busError :: s.responses }) ∧
    (s.agenda = .write (engineBase s.cfg + 4) .word v :: es →
      (s.busy = true → step s = .next { s with agenda := es, responses := .ok :: s.responses }) ∧
      (s.busy = false →
        ∃ t, step s = .next t ∧
          t = { s with
            agenda := es, responses := .ok :: s.responses, phase := t.phase, done := t.done, err := t.err } ∧
          (v ∉ ([1, 2, 3, 4, 5] : List Word) → t.phase = .idle ∧ t.statusWord = 0x00000016) ∧
          (v ∈ ([4, 5] : List Word) → s.len.toInt ≤ 0 → t.phase = .idle ∧ t.statusWord = 0x00000026) ∧
          (v ∈ ([4, 5] : List Word) → 4096 < s.len.toInt → t.phase = .idle ∧ t.statusWord = 0x00000036) ∧
          (v ∈ ([1, 2, 3] : List Word) ∨ (v ∈ ([4, 5] : List Word) ∧ 0 < s.len.toInt ∧ s.len.toInt ≤ 4096) →
            t.phase = .busy v ∧ t.statusWord = 0x00000001)))

/-- R62: a misaligned access, and a narrow access to register space or the reserved window, gets BUS_ERROR and
has no effect, read or write. -/
def Obligations.BadAccessGetsBusError : Prop :=
  ∀ (s : State) (off : Nat) (w : BusWidth) (v : Word) (es : List Event), off < 0x4000 →
    (off % w.bytes ≠ 0 ∨ ((off < 0x1000 ∨ 0x3000 ≤ off) ∧ w ≠ .word)) →
    (s.agenda = .read (engineBase s.cfg + off) w :: es ∨ s.agenda = .write (engineBase s.cfg + off) w v :: es) →
    step s = .next { s with agenda := es, responses := .busError :: s.responses }

/-- R70 (a), R62, R255: while busy every host write is ignored. It is answered OK where it is aligned and of a
width its region takes, and BUS_ERROR elsewhere. -/
def Obligations.BusyWriteIgnored : Prop :=
  ∀ (s : State) (off : Nat) (w : BusWidth) (v : Word) (es : List Event), off < 0x4000 → s.busy = true →
    s.agenda = .write (engineBase s.cfg + off) w v :: es →
    step s = .next { s with
      agenda := es
      responses :=
        (if off % w.bytes = 0 ∧ (w = .word ∨ (0x1000 ≤ off ∧ off < 0x3000)) then .ok else .busError) :: s.responses }

/-- R21, R63, R69, R70 (b): the register map, each offset with its register and the value it reads. A word read at
an offset of the map answers that value, while idle, and while busy where a running command cannot change it;
nothing but the answer is recorded. No other offset is a register's. -/
def Obligations.RegisterReadAnswersValue : Prop :=
  ∀ (s : State) (map : List (Nat × Reg × Word)),
    map =
      [(0x000, .id, 0x4B414F53), (0x004, .cmd, 0), (0x008, .status, s.statusWord), (0x00C, .len, s.len),
        (0x010, .ctr, s.ctr), (0x014, .kb, s.kb.zeroExtend 32), (0x018, .warmup, 0x00001388),
        (0x01C, .maxlen, 0x00001000),
        (0x020, .key 0, s.key[0]), (0x024, .key 1, s.key[1]), (0x028, .key 2, s.key[2]), (0x02C, .key 3, s.key[3]),
        (0x030, .key 4, s.key[4]), (0x034, .key 5, s.key[5]), (0x038, .key 6, s.key[6]), (0x03C, .key 7, s.key[7]),
        (0x040, .nonce 0, s.nonce[0]), (0x044, .nonce 1, s.nonce[1]), (0x048, .nonce 2, s.nonce[2]),
        (0x050, .xLo, s.xLo), (0x054, .xHi, s.xHi), (0x058, .yLo, s.yLo), (0x05C, .yHi, s.yHi),
        (0x060, .zLo, s.zLo), (0x064, .zHi, s.zHi),
        (0x070, .sigmaLo, 0x00000000), (0x074, .sigmaHi, 0x40240000),
        (0x078, .rhoLo, 0x00000000), (0x07C, .rhoHi, 0x403C0000),
        (0x080, .betaLo, 0x55555555), (0x084, .betaHi, 0x40055555),
        (0x088, .dtLo, 0x47AE147B), (0x08C, .dtHi, 0x3F847AE1)] →
    (∀ off r v, (off, r, v) ∈ map →
      Reg.ofOffset off = some r ∧ s.readReg r = v ∧
        ∀ es, (s.busy = false ∨ r ∉ ([.xLo, .xHi, .yLo, .yHi, .zLo, .zHi, .kb] : List Reg)) →
          s.agenda = .read (engineBase s.cfg + off) .word :: es →
          step s = .next { s with agenda := es, responses := .data v :: s.responses }) ∧
    ∀ off r, Reg.ofOffset off = some r → ∃ v, (off, r, v) ∈ map

/-- R70 (c): while busy a word read of X_LO…Z_HI or KB, and an aligned read of DATA_OUT of any width, answer draws, a
DATA_OUT read one for each byte. The draws are the model's free values, of which nothing is known (log entry 5). -/
def Obligations.BusyVolatileReadIsDraw : Prop :=
  ∀ (s : State) (off : Nat) (w : BusWidth) (es : List Event), s.busy = true →
    s.agenda = .read (engineBase s.cfg + off) w :: es →
    (w = .word → off ∈ ([0x050, 0x054, 0x058, 0x05C, 0x060, 0x064, 0x014] : List Nat) →
      step s = .next { s with
        agenda := es, draws := s.draws + 1, responses := .data (Config.freeWord s.draws) :: s.responses }) ∧
    (0x2000 ≤ off → off < 0x3000 → off % w.bytes = 0 →
      ∃ v : Word,
        step s = .next { s with agenda := es, draws := s.draws + w.bytes, responses := .data v :: s.responses } ∧
        v.toNat < 2 ^ (8 * w.bytes) ∧ ∀ k, k < w.bytes → v.extractLsb' (8 * k) 8 = Config.freeByte (s.draws + k))

/-- R69: a read changes nothing, busy or idle, but the recorded answer and the model's count of draws. -/
def Obligations.ReadsHaveNoSideEffect : Prop :=
  ∀ (s t : State) (a : Nat) (w : BusWidth) (es : List Event), s.agenda = .read a w :: es → step s = .next t →
    ∃ r d, t = { s with agenda := es, draws := s.draws + d, responses := r :: s.responses }

/-- R25, R26, R28, R29, R30: a word written to a RW register while idle is read back as written, and every other
register and every buffer byte is as it was. -/
def Obligations.WritableRegisterReadsBack : Prop :=
  ∀ (s : State) (off : Nat) (v : Word), s.busy = false →
    (off = 0x00C ∨ off = 0x010 ∨ (0x020 ≤ off ∧ off ≤ 0x048) ∨ (0x050 ≤ off ∧ off ≤ 0x064)) → off % 4 = 0 →
    s.agenda = [.write (engineBase s.cfg + off) .word v, .read (engineBase s.cfg + off) .word] →
    ∃ t, Sys2Proof.core.run 2 s = .next t ∧ t.responses = .data v :: .ok :: s.responses ∧
      t.mem = s.mem ∧ t.statusWord = s.statusWord ∧
      ∀ off' r, off' ≠ off → Reg.ofOffset off' = some r → t.readReg r = s.readReg r

/-- R21, R33: a word write to a read-only register or a reserved offset is answered and ignored, and a reserved
offset reads 0. -/
def Obligations.ReadOnlyAndReservedIgnoreWrites : Prop :=
  ∀ (s : State) (off : Nat) (v : Word) (es : List Event), off < 0x4000 → off % 4 = 0 →
    (off ∈ ([0x000, 0x008, 0x014, 0x018, 0x01C, 0x04C, 0x068, 0x06C] : List Nat) ∨
      (0x070 ≤ off ∧ off < 0x1000) ∨ 0x3000 ≤ off) →
    (s.agenda = .write (engineBase s.cfg + off) .word v :: es →
      step s = .next { s with agenda := es, responses := .ok :: s.responses }) ∧
    ((off ∈ ([0x04C, 0x068, 0x06C] : List Nat) ∨ 0x090 ≤ off) →
      s.agenda = .read (engineBase s.cfg + off) .word :: es →
      step s = .next { s with agenda := es, responses := .data 0 :: s.responses })

/-- R64, R66: a word stored in a buffer while idle is read byte by byte little-endian: the byte at offset + k is
bits 8k+7:8k. -/
def Obligations.StoredWordReadsLittleEndian : Prop :=
  ∀ (s : State) (off k : Nat) (v : Word), s.busy = false →
    0x1000 ≤ off → off < 0x3000 → off % 4 = 0 → k < 4 →
    s.agenda = [.write (engineBase s.cfg + off) .word v, .read (engineBase s.cfg + (off + k)) .byte] →
    ∃ t, Sys2Proof.core.run 2 s = .next t ∧
      t.responses = .data ((v.extractLsb' (8 * k) 8).zeroExtend 32) :: .ok :: s.responses

/-- R64, R66, R67, R70 (b): an aligned read of 1, 2 or 4 buffer bytes, of either buffer while idle and of DATA_IN
while busy, answers the bytes, the one at the lowest offset in bits 7:0, zero-extended. A written byte is read as
written. An unwritten one is a draw, the model's next free value, of which nothing is known (log entry 3). -/
def Obligations.BufferReadAssemblesBytes : Prop :=
  ∀ (s : State) (off : Nat) (w : BusWidth) (es : List Event),
    0x1000 ≤ off → off < 0x3000 → off % w.bytes = 0 → (s.busy = false ∨ off < 0x2000) →
    s.agenda = .read (engineBase s.cfg + off) w :: es →
    ∃ v : Word,
      step s = .next { s with
        agenda := es, draws := s.draws + s.unwritten off w.bytes, responses := .data v :: s.responses } ∧
      v.toNat < 2 ^ (8 * w.bytes) ∧
      ∀ k, k < w.bytes →
        (∀ b, s.mem.lookup (off + k) = some b → v.extractLsb' (8 * k) 8 = b) ∧
        (s.mem.lookup (off + k) = none →
          v.extractLsb' (8 * k) 8 = Config.freeByte (s.draws + s.unwritten off k))

/-- R62, R66, R69: an aligned buffer write while idle changes the stored bytes and no other byte, and nothing
else of the machine. -/
def Obligations.BufferWriteChangesOnlyItsBytes : Prop :=
  ∀ (s : State) (off : Nat) (w : BusWidth) (v : Word) (es : List Event), s.busy = false →
    0x1000 ≤ off → off < 0x3000 → off % w.bytes = 0 →
    s.agenda = .write (engineBase s.cfg + off) w v :: es →
    ∃ t, step s = .next t ∧ t = { s with agenda := es, responses := .ok :: s.responses, mem := t.mem } ∧
      (∀ k, k < w.bytes → t.mem.lookup (off + k) = some (v.extractLsb' (8 * k) 8)) ∧
      ∀ a, (a < off ∨ off + w.bytes ≤ a) → t.mem.lookup a = s.mem.lookup a

/-! ### binary64 (R10, R95, R140) -/

/-- R140, R10: a finite result of fadd, fmul or fdiv is a binary64, and one nearest to the exact result: no binary64
is nearer. Values are integers times 2^-1074, so an exact product and quotient are compared after scaling. -/
def Obligations.ArithmeticRoundsToNearest : Prop :=
  ∀ (s t u u' : Bool) (m n r r' : Nat), (F64.fin u' r').wf = true →
    (fadd (.fin s m) (.fin t n) = .fin u r →
      (F64.fin u r).wf = true ∧
      (signed s m + signed t n - signed u r).natAbs ≤ (signed s m + signed t n - signed u' r').natAbs) ∧
    (fmul (.fin s m) (.fin t n) = .fin u r →
      (F64.fin u r).wf = true ∧
      (signed s m * signed t n - F64.one * signed u r).natAbs ≤
        (signed s m * signed t n - F64.one * signed u' r').natAbs) ∧
    (fdiv (.fin s m) (.fin t n) = .fin u r →
      (F64.fin u r).wf = true ∧
      (signed s m * F64.one - signed t n * signed u r).natAbs ≤
        (signed s m * F64.one - signed t n * signed u' r').natAbs)

/-- R140: where two binary64 magnitudes are equally near, the rounded one has an even significand. -/
def Obligations.TiesRoundToEven : Prop :=
  ∀ (neg : Bool) (num den r r' : Nat), 0 < den → F64.round neg num den = .fin neg r →
    (F64.fin neg r').wf = true → r' ≠ r →
    ((num : Int) - den * r).natAbs = ((num : Int) - den * r').natAbs →
    (r / 2 ^ F64.lastPlace r) % 2 = 0

/-- Rounding overflows to infinity exactly from half a place above the greatest finite binary64 on,
(2^53 − 1/2) · 2^971. The threshold is IEEE 754's, which R140 names without restating: the model takes it from the
standard (log entry 21, PRESUMED, unsafe). -/
def Obligations.OverflowThreshold : Prop :=
  ∀ (neg : Bool) (num den : Nat), 0 < den →
    (F64.round neg num den = .inf neg ↔ den * ((2 ^ 54 - 1) * 2 ^ (F64.unitExp + 970)) ≤ num)

/-- R30, R95: the value of an encoding that is no NaN has that encoding, so that a stored value reads back as
it was computed; and every encoding has a binary64 value. -/
def Obligations.EncodingOfValueOfEncoding : Prop :=
  ∀ b : DWord, (F64.ofBits b).wf = true ∧ (isNanPattern b = false → (F64.ofBits b).toBits = some b) ∧
    (isNanPattern b = true → F64.ofBits b = .nan)

/-- R10: ffloor of a finite binary64 is a binary64, integral, not greater than the value, and less than 1 below
it. -/
def Obligations.FloorIsLargestIntegral : Prop :=
  ∀ (s : Bool) (m : Nat), (F64.fin s m).wf = true →
    ∃ (t : Bool) (r : Nat), ffloor (.fin s m) = .fin t r ∧ (F64.fin t r).wf = true ∧ r % F64.one = 0 ∧
      signed t r ≤ signed s m ∧ signed s m < signed t r + F64.one

/-! ### MIX (R110–R120) -/

/-- R111–R115: the final lanes, by the rules: the key bytes rotate-xored in, the nonce bytes by the three
rules, the cross-mix, and the whitening, in that order, from LANE_INIT. -/
def Obligations.MixerLanesFollowTheRules : Prop :=
  ∀ (p : MixerParams) (key : Fin 32 → Byte) (nonce : Fin 12 → Byte) (K N : Nat → Lanes), p.wf = true →
    K 0 = p.laneInit →
    (∀ j : Fin 32, K (j.val + 1) =
      ⟨(K j.val).m1.rotateLeft p.krot.m1 ^^^ ((key j).zeroExtend 64 * p.kmul.m1),
        (K j.val).m2.rotateLeft p.krot.m2 ^^^ ((key j).zeroExtend 64 * p.kmul.m2),
        (K j.val).m3.rotateLeft p.krot.m3 ^^^ ((key j).zeroExtend 64 * p.kmul.m3)⟩) →
    N 0 = K 32 →
    (∀ j : Fin 12, N (j.val + 1) =
      ⟨(N j.val).m1 ^^^ ((nonce j).zeroExtend 64 <<< p.nsh[j]),
        (N j.val).m2 + (nonce j).zeroExtend 64 * p.nw[j],
        (N j.val).m3.rotateLeft p.nrot ^^^ (nonce j).zeroExtend 64⟩) →
    ∃ l1 l2 l3 : DWord,
      l1 = (N 12).m1 ^^^ ((N 12).m2 ^^^ (N 12).m3) ∧
      l2 = (N 12).m2 + 3 * l1 ∧
      l3 = (N 12).m3 ^^^ ((l1 >>> 32) ^^^ (l2 <<< 32)) ∧
      mixLanes p key nonce = ⟨l1 ^^^ p.fx.m1, l2 ^^^ p.fx.m2, l3 ^^^ p.fx.m3⟩

/-- R116: a lane's coordinate is the lane converted, divided by K_DIV and taken modulo 1.0. It lies in [0.0, 1.0), and
is +0.0 exactly for the lane 0 and the lanes from 0xFFFFFFFFFFFFFC00 on. R117: a coordinate that is zero is replaced
by its fallback, each independently, and any other is returned as it is. -/
def Obligations.LaneCoordinateRangeAndZeros : Prop :=
  (∀ l : DWord,
    laneCoord l = ffmod (fdiv (cvtU64 l) (F64.ofBits 0x43F0000000000000)) (F64.ofBits 0x3FF0000000000000) ∧
    ∃ m, laneCoord l = .fin false m ∧ m < F64.one ∧ (m = 0 ↔ l = 0 ∨ 0xFFFFFFFFFFFFFC00 ≤ l.toNat)) ∧
  ∀ (p : MixerParams) (key : Fin 32 → Byte) (nonce : Fin 12 → Byte) (f : DWord → DWord → F64),
    (∀ fb l, f fb l = if l = 0 ∨ 0xFFFFFFFFFFFFFC00 ≤ l.toNat then F64.ofBits fb else laneCoord l) →
    mixF p key nonce =
      ⟨f p.fb.m1 (mixLanes p key nonce).m1, f p.fb.m2 (mixLanes p key nonce).m2,
        f p.fb.m3 (mixLanes p key nonce).m3⟩

/-- R118: under every admissible configuration every coordinate MIXF returns is a binary64 strictly between 0.0 and
1.0. -/
def Obligations.MixedStateInOpenUnitCube : Prop :=
  ∀ (p : MixerParams) (key : Fin 32 → Byte) (nonce : Fin 12 → Byte), p.wf = true →
    (mixF p key nonce).wf = true ∧
    ∃ a b c : Nat, mixF p key nonce = ⟨.fin false a, .fin false b, .fin false c⟩ ∧
      0 < a ∧ a < F64.one ∧ 0 < b ∧ b < F64.one ∧ 0 < c ∧ c < F64.one

/-- R28, R29: byte b of KEYk is key byte 4k + b, and byte b of NONCEk is nonce byte 4k + b. -/
def Obligations.KeyAndNonceBytesLittleEndian : Prop :=
  ∀ s : State,
    (∀ (k : Fin 8) (b : Fin 4),
      s.keyByte ⟨4 * k.val + b.val, by omega⟩ = (s.readReg (.key k)).extractLsb' (8 * b.val) 8) ∧
    (∀ (k : Fin 3) (b : Fin 4),
      s.nonceByte ⟨4 * k.val + b.val, by omega⟩ = (s.readReg (.nonce k)).extractLsb' (8 * b.val) 8)

/-- R120: MIX always completes with success; X, Y, Z become MIXF of the key and nonce; nothing else changes. -/
def Obligations.MixCompletes : Prop :=
  ∀ s : State, ∃ t, exec .mix s = .next t ∧
    t.chaos = mixF s.cfg.mixer s.keyByte s.nonceByte ∧ t.phase = .idle ∧ t.statusWord = 0x00000002 ∧
    s.sameOperands t ∧ t.kb = s.kb ∧ s.sameBytes t

/-- R120, R110: under admissible parameters two MIX commands with the same key and nonce give bit-identical X,
Y and Z, whatever else the two states hold. -/
def Obligations.MixDependsOnKeyAndNonceOnly : Prop :=
  ∀ s s' t t' : State, s.cfg.mixer.wf = true → s'.cfg.mixer = s.cfg.mixer → s'.key = s.key → s'.nonce = s.nonce →
    exec .mix s = .next t → exec .mix s' = .next t' → t.sameTriple t'

/-! ### STEP (R140–R146) -/

/-- R145, R144: STEP always completes with success, for every value of X, Y, Z; they become STEPF of what they
were; nothing else changes. R30: the triple of a state is the three values its register halves encode, the high
half above the low half. -/
def Obligations.StepCompletes : Prop :=
  ∀ s : State,
    s.chaos = ⟨F64.ofBits (s.xHi ++ s.xLo), F64.ofBits (s.yHi ++ s.yLo), F64.ofBits (s.zHi ++ s.zLo)⟩ ∧
    ∃ t, exec .step s = .next t ∧
      t.chaos = stepF s.chaos ∧ t.phase = .idle ∧ t.statusWord = 0x00000002 ∧
      s.sameOperands t ∧ t.kb = s.kb ∧ s.sameBytes t

/-- R146: n consecutive STEP commands leave X, Y, Z equal to STEPF applied n times, and nothing else but STATUS
changed. -/
def Obligations.ConsecutiveStepsIterate : Prop :=
  ∀ (n : Nat) (s : State), ∃ t, execAll (List.replicate n .step) s = .next t ∧
    t.chaos = stepF^[n] s.chaos ∧ s.sameOperands t ∧ t.kb = s.kb ∧ s.sameBytes t

/-- R145: a NaN in x or in y makes all three results NaN, and a NaN in z makes y' and z' NaN. What x' is then is
R142's: its formula does not read z, so x' is what it is with any other z. R145 remarks that x' is finite when x and
y are; by R142 it can overflow, and the model follows R142 (log entry 16, DEDUCED). -/
def Obligations.NanPropagatesThroughStep : Prop :=
  ∀ c : Chaos,
    (c.x = .nan ∨ c.y = .nan → stepF c = ⟨.nan, .nan, .nan⟩) ∧
    (c.z = .nan → (stepF c).y = .nan ∧ (stepF c).z = .nan ∧ ∀ z', (stepF c).x = (stepF ⟨c.x, c.y, z'⟩).x)

/-- R142, R143: the increments are all computed from the unprimed values, in the operation order of the rule. -/
def Obligations.StepFormula : Prop :=
  ∀ x y z : F64,
    stepF ⟨x, y, z⟩ =
      ⟨fadd x (fmul (fmul (F64.ofBits 0x4024000000000000) (fsub y x)) (F64.ofBits 0x3F847AE147AE147B)),
        fadd y (fmul (fsub (fmul x (fsub (F64.ofBits 0x403C000000000000) z)) y) (F64.ofBits 0x3F847AE147AE147B)),
        fadd z (fmul (fsub (fmul x y) (fmul (F64.ofBits 0x4005555555555555) z)) (F64.ofBits 0x3F847AE147AE147B))⟩

/-! ### EXTRACT (R160–R172) -/

/-- R163: the fractional part of |comb|, by its formula, is exact: the magnitude modulo 1.0, whatever the sign. -/
def Obligations.FractionalPartIsExact : Prop :=
  ∀ (s : Bool) (m : Nat), (F64.fin s m).wf = true →
    fsub (fabs (.fin s m)) (ffloor (fabs (.fin s m))) = .fin false (m % F64.one)

/-- R164, R165: the fraction perturbed by the counter times K_CTR and taken modulo 1.0 is in [0.0, 1.0). Scaling it by
256.0 and flooring gives the integer part of 256 times it, which is in 0..255. -/
def Obligations.PerturbedFractionScalesToByte : Prop :=
  ∀ (m : Nat) (ctr : Word), m < F64.one → (F64.fin false m).wf = true →
    ∃ g,
      ffmod (fadd (.fin false m) (fmul (cvtU32 ctr) (F64.ofBits 0x3E7AD7F29ABCAF48)))
        (F64.ofBits 0x3FF0000000000000) = .fin false g ∧
      g < F64.one ∧
      ftoint (ffloor (fmul (.fin false g) (F64.ofBits 0x4070000000000000))) = some (g * 256 / F64.one) ∧
      g * 256 / F64.one ≤ 255

/-- R162: the extractor raises NUMERIC exactly when the combination (R161's formula, written out) is not finite, and
it is not when a coordinate is not. -/
def Obligations.NumericExactlyWhenCombinationNotFinite : Prop :=
  ∀ (c : Chaos) (ctr : Word) (comb : F64),
    comb =
      fadd (fadd (fmul c.x (F64.ofBits 0x3FF9E3779B97F4A8)) (fmul c.y (F64.ofBits 0x4005BF0A8B145769)))
        (fmul c.z (F64.ofBits 0x400921FB54442D18)) →
    (kbyteF c ctr = none ↔ isfinite comb = false) ∧
    ((isfinite c.x && isfinite c.y && isfinite c.z) = false → kbyteF c ctr = none)

/-- R163, R171: (x, y, z) and (−x, −y, −z) give the same byte. -/
def Obligations.OppositeStatesGiveSameByte : Prop :=
  ∀ (c : Chaos) (ctr : Word), kbyteF ⟨c.x.neg, c.y.neg, c.z.neg⟩ ctr = kbyteF c ctr

/-- R171, R160–R168: with a finite combination EXTRACT completes with success, and KB reads the byte of the extractor's
formula, written out: R161's combination of X, Y and Z, R163's fraction, R164's perturbation by CTR, R165's scaling
and the three passes. That byte is KBYTEF's. Nothing else changes. -/
def Obligations.ExtractCompletes : Prop :=
  ∀ (s : State) (comb : F64),
    comb =
      fadd
        (fadd (fmul (F64.ofBits (s.xHi ++ s.xLo)) (F64.ofBits 0x3FF9E3779B97F4A8))
          (fmul (F64.ofBits (s.yHi ++ s.yLo)) (F64.ofBits 0x4005BF0A8B145769)))
        (fmul (F64.ofBits (s.zHi ++ s.zLo)) (F64.ofBits 0x400921FB54442D18)) →
    isfinite comb = true →
    ∃ t fr b0 b1 b2, exec .extract s = .next t ∧
      fr =
        ffmod
          (fadd (fsub (fabs comb) (ffloor (fabs comb))) (fmul (cvtU32 s.ctr) (F64.ofBits 0x3E7AD7F29ABCAF48)))
          (F64.ofBits 0x3FF0000000000000) ∧
      ftoint (ffloor (fmul fr (F64.ofBits 0x4070000000000000))) = some b0 ∧
      b1 = (b0 + s.ctr.toNat % 256) % 256 ∧
      b2 = b1 ^^^ (b1 / 16 ^^^ (b1 * 8 % 256) ^^^ s.ctr.toNat % 97) ∧
      (t.readReg .kb).toNat = (b2 * 167 + 123) % 256 ∧ kbyteF s.chaos s.ctr = some t.kb ∧
      t.phase = .idle ∧ t.statusWord = 0x00000002 ∧ s.sameOperands t ∧ s.sameTriple t ∧ s.sameBytes t

/-- R172: with a combination (R161's formula, written out) that is not finite EXTRACT completes with NUMERIC and
changes nothing else. -/
def Obligations.ExtractNumericChangesOnlyStatus : Prop :=
  ∀ (s : State) (comb : F64),
    comb =
      fadd
        (fadd (fmul (F64.ofBits (s.xHi ++ s.xLo)) (F64.ofBits 0x3FF9E3779B97F4A8))
          (fmul (F64.ofBits (s.yHi ++ s.yLo)) (F64.ofBits 0x4005BF0A8B145769)))
        (fmul (F64.ofBits (s.zHi ++ s.zLo)) (F64.ofBits 0x400921FB54442D18)) →
    isfinite comb = false →
    ∃ t, exec .extract s = .next t ∧ t.phase = .idle ∧ t.statusWord = 0x00000046 ∧ s.sameButStatus t ∧
      t.draws = s.draws

/-! ### ENCRYPT and DECRYPT (R190–R204) -/

/-- R194, R195: a length of 0 or less is refused with code 2 and a length above 4096 with code 3, and nothing but
STATUS changes. -/
def Obligations.DriverRefusesLength : Prop :=
  ∀ (s : State) (i : Instr), (i = .encrypt ∨ i = .decrypt) →
    (s.len.toInt ≤ 0 →
      ∃ t, exec i s = .next t ∧ t.phase = .idle ∧ t.statusWord = 0x00000026 ∧ s.sameButStatus t) ∧
    (4096 < s.len.toInt →
      ∃ t, exec i s = .next t ∧ t.phase = .idle ∧ t.statusWord = 0x00000036 ∧ s.sameButStatus t)

/-- R195, R196, R193: with a length in 1..4096 and every extraction finite, the command completes with success:
OUT[j] is IN[j] xored with the keystream byte of position j, X, Y, Z hold the state after WARMUP + len steps,
and nothing else changes. An input byte that was never written is some byte (R67). -/
def Obligations.DriverCompletes : Prop :=
  ∀ (s : State) (i : Instr) (n : Nat), (i = .encrypt ∨ i = .decrypt) →
    s.len.toInt = n → 1 ≤ n → n ≤ 4096 → (∀ j, j < n → s.positionByte j ≠ none) →
    ∃ t, exec i s = .next t ∧ t.phase = .idle ∧ t.statusWord = 0x00000002 ∧
      t.chaos = stepF^[warmupCount + n] (mixF s.cfg.mixer s.keyByte s.nonceByte) ∧
      (∀ j, j < n → ∃ b k, s.positionByte j = some k ∧ t.mem.lookup (outOff j) = some (b ^^^ k) ∧
        ∀ b', s.mem.lookup (inOff j) = some b' → b = b') ∧
      s.sameBytesButOut n t ∧ t.kb = s.kb ∧ s.sameOperands t

/-- R197: when an extraction within the length raises NUMERIC the command fails with code 4 and no other effect:
no OUT byte is written, not even those before it. -/
def Obligations.DriverNumericHasNoSideEffect : Prop :=
  ∀ (s : State) (i : Instr) (n : Nat), (i = .encrypt ∨ i = .decrypt) →
    s.len.toInt = n → 1 ≤ n → n ≤ 4096 → (∃ j, j < n ∧ s.positionByte j = none) →
    ∃ t, exec i s = .next t ∧ t.phase = .idle ∧ t.statusWord = 0x00000046 ∧ s.sameButStatus t ∧
      t.draws = s.draws

/-- R196: DECRYPT does exactly what ENCRYPT does. -/
def Obligations.DecryptIsEncrypt : Prop := ∀ s : State, exec .decrypt s = exec .encrypt s

/-- R198: what an ENCRYPT made of written input, placed in DATA_IN under the same key, nonce and length, is
turned back into that input by DECRYPT and by ENCRYPT. -/
def Obligations.DecryptUndoesEncrypt : Prop :=
  ∀ (s t u : State) (n : Nat) (i : Instr), (i = .encrypt ∨ i = .decrypt) →
    s.len.toInt = n → (∀ j, j < n → s.mem.lookup (inOff j) ≠ none) →
    exec .encrypt s = .next t → t.statusWord = 0x00000002 →
    u.cfg.mixer = s.cfg.mixer → u.key = s.key → u.nonce = s.nonce → u.len = s.len →
    (∀ j, j < n → u.mem.lookup (inOff j) = t.mem.lookup (outOff j)) →
    ∃ v, exec i u = .next v ∧ v.statusWord = 0x00000002 ∧
      ∀ j, j < n → v.mem.lookup (outOff j) = s.mem.lookup (inOff j)

/-- R199: for a fixed key, nonce and length whose ENCRYPT succeeds, the map from input to output is a bijection on
the byte strings of that length: different inputs give different outputs, and every output comes from an input. -/
def Obligations.EncryptIsBijective : Prop :=
  ∀ (s t : State) (n : Nat), s.len.toInt = n → exec .encrypt s = .next t → t.statusWord = 0x00000002 →
    (∀ (u v : State), u.cfg.mixer = s.cfg.mixer → u.key = s.key → u.nonce = s.nonce → u.len = s.len →
      (∀ j, j < n → s.mem.lookup (inOff j) ≠ none ∧ u.mem.lookup (inOff j) ≠ none) →
      exec .encrypt u = .next v → v.statusWord = 0x00000002 ∧
        ((∀ j, j < n → v.mem.lookup (outOff j) = t.mem.lookup (outOff j)) →
          ∀ j, j < n → u.mem.lookup (inOff j) = s.mem.lookup (inOff j))) ∧
    (∀ C : Nat → Byte, ∃ m v, exec .encrypt { s with mem := m } = .next v ∧ v.statusWord = 0x00000002 ∧
      ∀ j, j < n → v.mem.lookup (outOff j) = some (C j))

/-- R202: the result of ENCRYPT depends only on the key, the nonce, LEN, the input bytes and the mixer
parameters: two states that agree on these get the same STATUS, and on success the same X, Y, Z and the same
OUT bytes, whatever else they hold. -/
def Obligations.EncryptDependsOnItsOperandsOnly : Prop :=
  ∀ (s s' t t' : State) (n : Nat), s.len.toInt = n →
    s'.cfg.mixer = s.cfg.mixer → s'.key = s.key → s'.nonce = s.nonce → s'.len = s.len →
    (∀ j, j < n → s.mem.lookup (inOff j) ≠ none ∧ s'.mem.lookup (inOff j) = s.mem.lookup (inOff j)) →
    exec .encrypt s = .next t → exec .encrypt s' = .next t' →
    t'.statusWord = t.statusWord ∧
      (t.statusWord = 0x00000002 → t.sameTriple t' ∧
        ∀ j, j < n → t'.mem.lookup (outOff j) = t.mem.lookup (outOff j))

/-- R201: a successful ENCRYPT of written input leaves in OUT and in X, Y, Z exactly what the host sequence of the
primitives leaves: MIX, WARMUP STEPs, then STEP, CTR <- i, EXTRACT and the host's xor for each byte. -/
def Obligations.EncryptEqualsPrimitiveSequence : Prop :=
  ∀ (s t : State) (n : Nat), s.len.toInt = n → (∀ j, j < n → s.mem.lookup (inOff j) ≠ none) →
    exec .encrypt s = .next t → t.statusWord = 0x00000002 →
    ∃ p, primitiveSequence n s = .next p ∧ t.sameTriple p ∧ t.sameBytes p ∧
      p.cfg = t.cfg ∧ p.len = t.len ∧ p.key = t.key ∧ p.nonce = t.nonce

/-! ### Reset (R36, R250–R252) -/

/-- R36: the values after power-on reset; no buffer byte has a value (R67). -/
def Obligations.ResetValues : Prop :=
  State.reset.phase = .idle ∧ State.reset.statusWord = 0x00000000 ∧
  (∀ r ∈ ([.cmd, .status, .len, .ctr, .kb, .xLo, .xHi, .yLo, .yHi, .zLo, .zHi] : List Reg),
    State.reset.readReg r = 0) ∧
  (∀ k, State.reset.readReg (.key k) = 0) ∧ (∀ k, State.reset.readReg (.nonce k) = 0) ∧
  State.reset.readReg .id = 0x4B414F53 ∧ State.reset.readReg .warmup = 0x00001388 ∧
  State.reset.readReg .maxlen = 0x00001000 ∧
  State.reset.readReg .sigmaLo = 0x00000000 ∧ State.reset.readReg .sigmaHi = 0x40240000 ∧
  State.reset.readReg .rhoLo = 0x00000000 ∧ State.reset.readReg .rhoHi = 0x403C0000 ∧
  State.reset.readReg .betaLo = 0x55555555 ∧ State.reset.readReg .betaHi = 0x40055555 ∧
  State.reset.readReg .dtLo = 0x47AE147B ∧ State.reset.readReg .dtHi = 0x3F847AE1 ∧
  State.reset.chaos = ⟨.fin false 0, .fin false 0, .fin false 0⟩ ∧ ∀ a, State.reset.mem.lookup a = none

/-- R250, R251: the reset input gives every register its reset value and leaves the buffers, but for the OUT
bytes a running ENCRYPT or DECRYPT could have written, which become unspecified. -/
def Obligations.ResetInputEffect : Prop :=
  ∀ (s : State) (es : List Event), s.agenda = .reset :: es →
    ∃ t, step s = .next t ∧ t.phase = .idle ∧ t.statusWord = 0 ∧ t.cfg = s.cfg ∧
      t.agenda = es ∧ t.responses = s.responses ∧
      (∀ r : Reg, t.readReg r = State.reset.readReg r) ∧
      (s.busy = false → s.sameBytes t) ∧
      (∀ w, s.phase = .busy w → w ∉ ([4, 5] : List Word) → s.sameBytes t) ∧
      (∀ w (n : Nat), s.phase = .busy w → w ∈ ([4, 5] : List Word) → s.len.toInt = n → 1 ≤ n → n ≤ 4096 →
        s.sameBytesButOut n t ∧ ∀ j, j < n → t.mem.lookup (outOff j) = none)

/-- R252: in the reset state STEP leaves X = Y = Z = +0.0, and EXTRACT with CTR = 0 leaves 123 in KB. -/
def Obligations.ResetStateIsTheFixedPoint : Prop :=
  (∃ t, exec .step State.reset = .next t ∧ State.reset.sameTriple t) ∧
  (∃ t, exec .extract State.reset = .next t ∧ t.readReg .kb = 0x0000007B ∧ t.statusWord = 0x00000002)
end

