-- ==== Sys2Proof/Laws/Float.lean ====
section
/-! SUPPORT. Laws of the binary64 values: results are representable, and encodings and values agree. -/

namespace Sys2Proof.Machine

open Sys2Proof

/-! ### The last place of a magnitude -/

theorem F64.unitExp_eq : F64.unitExp = 1074 := by unfold F64.unitExp; rfl

theorem F64.one_pos : 0 < F64.one := Nat.two_pow_pos _

theorem F64.limit_pos : 0 < F64.limit := Nat.two_pow_pos _

/-- A power of two below the limit, by its exponent. -/
theorem F64.two_pow_le_limit {k : Nat} (h : k ≤ 2098) : 2 ^ k ≤ F64.limit :=
  Nat.pow_le_pow_right (by omega) (by rw [F64.unitExp_eq]; omega)

theorem F64.limit_le_two_pow {k : Nat} (h : 2098 ≤ k) : F64.limit ≤ 2 ^ k :=
  Nat.pow_le_pow_right (by omega) (by rw [F64.unitExp_eq]; omega)

theorem F64.limit_le_mul {a b : Nat} (h : 2098 ≤ a + b) : F64.limit ≤ 2 ^ a * 2 ^ b :=
  Nat.pow_add 2 a b ▸ F64.limit_le_two_pow h

theorem F64.two_pow_le_one {k : Nat} (h : k ≤ 1074) : 2 ^ k ≤ F64.one :=
  Nat.pow_le_pow_right (by omega) (by rw [F64.unitExp_eq]; omega)

theorem F64.lastPlace_eq_zero {q : Nat} (h : q < 2 ^ 53) : F64.lastPlace q = 0 := by
  unfold F64.lastPlace
  rcases Nat.eq_zero_or_pos q with rfl | hq
  · simp
  · have := (Nat.log2_lt hq.ne').2 h
    omega

/-- A magnitude has at most 53 bits above its last place. -/
theorem F64.lt_lastPlace (q : Nat) : q < 2 ^ 53 * 2 ^ F64.lastPlace q := by
  rcases Nat.eq_zero_or_pos q with rfl | hq
  · simp
  · rw [← Nat.pow_add]
    refine (Nat.log2_lt hq.ne').1 ?_
    unfold F64.lastPlace
    omega

/-- From 2^52 on a magnitude has 53 bits above its last place. -/
theorem F64.lastPlace_le {q : Nat} (h : 2 ^ 52 ≤ q) : 2 ^ 52 * 2 ^ F64.lastPlace q ≤ q := by
  have hq : q ≠ 0 := by omega
  have h52 : 52 ≤ q.log2 := (Nat.le_log2 hq).2 h
  rw [← Nat.pow_add]
  refine (Nat.le_log2 hq).1 ?_
  unfold F64.lastPlace
  omega

theorem F64.lastPlace_le_of_lt {q k : Nat} (h : q < 2 ^ 53 * 2 ^ k) : F64.lastPlace q ≤ k := by
  rcases Nat.eq_zero_or_pos q with rfl | hq
  · simp [F64.lastPlace]
  · rw [← Nat.pow_add] at h
    have := (Nat.log2_lt hq.ne').2 h
    unfold F64.lastPlace
    omega

theorem F64.lastPlace_mono {a b : Nat} (h : a ≤ b) : F64.lastPlace a ≤ F64.lastPlace b :=
  F64.lastPlace_le_of_lt (lt_of_le_of_lt h (F64.lt_lastPlace b))

/-- A multiple of 2^k with at most 53 bits above bit k has 53 significant bits at most. -/
theorem F64.dvd_of_mul_pow {r k : Nat} (h : r ≤ 2 ^ 53) : 2 ^ F64.lastPlace (r * 2 ^ k) ∣ r * 2 ^ k := by
  rcases Nat.lt_or_ge r (2 ^ 53) with hr | hr
  · have : F64.lastPlace (r * 2 ^ k) ≤ k :=
      F64.lastPlace_le_of_lt (Nat.mul_lt_mul_of_pos_right hr (Nat.two_pow_pos k))
    exact Dvd.dvd.mul_left (Nat.pow_dvd_pow 2 this) r
  · obtain rfl : r = 2 ^ 53 := le_antisymm h hr
    have : F64.lastPlace (2 ^ 53 * 2 ^ k) ≤ 53 + k := by
      refine F64.lastPlace_le_of_lt ?_
      rw [Nat.pow_add]
      have := Nat.two_pow_pos 53
      have := Nat.two_pow_pos k
      nlinarith
    rw [← Nat.pow_add]
    exact Nat.pow_dvd_pow 2 (by rwa [← Nat.pow_add] at this)

theorem F64.wf_fin {neg : Bool} {mag : Nat} :
    (F64.fin neg mag).wf = true ↔ mag < F64.limit ∧ 2 ^ F64.lastPlace mag ∣ mag := by
  simp [F64.wf, Nat.dvd_iff_mod_eq_zero]

/-- A value built from at most 53 significant bits is representable below the limit. -/
theorem F64.wf_of_mul_pow {neg : Bool} {r k : Nat} (h : r ≤ 2 ^ 53) (hl : r * 2 ^ k < F64.limit) :
    (F64.fin neg (r * 2 ^ k)).wf = true :=
  F64.wf_fin.2 ⟨hl, F64.dvd_of_mul_pow h⟩

theorem F64.wf_zero (neg : Bool) : (F64.fin neg 0).wf = true :=
  F64.wf_fin.2 ⟨F64.limit_pos, by simp⟩

/-! ### Rounding -/

theorem roundHalfEven_le (num den : Nat) : roundHalfEven num den ≤ num / den + 1 := by
  unfold roundHalfEven
  dsimp only
  split
  · omega
  · split <;> omega

theorem le_roundHalfEven (num den : Nat) : num / den ≤ roundHalfEven num den := by
  unfold roundHalfEven
  dsimp only
  split
  · omega
  · split <;> omega

theorem roundHalfEven_of_dvd {num den : Nat} (hd : 0 < den) (h : den ∣ num) : roundHalfEven num den = num / den := by
  unfold roundHalfEven
  simp [Nat.mod_eq_zero_of_dvd h, hd]

/-- The rounded magnitude is a significand of at most 53 bits at the quotient's last place. -/
theorem roundHalfEven_le_significand (num den : Nat) :
    roundHalfEven num (den * 2 ^ F64.lastPlace (num / den)) ≤ 2 ^ 53 := by
  refine le_trans (roundHalfEven_le _ _) ?_
  rw [← Nat.div_div_eq_div_mul]
  have := F64.lt_lastPlace (num / den)
  rw [Nat.mul_comm] at this
  have := Nat.div_lt_of_lt_mul this
  omega

/-- What rounding answers is representable. -/
theorem F64.wf_round (neg : Bool) (num den : Nat) : (F64.round neg num den).wf = true := by
  unfold F64.round
  dsimp only
  split
  · next h => exact F64.wf_of_mul_pow (roundHalfEven_le_significand num den) h
  · rfl

/-- A representable magnitude rounds to itself: exact results are exact (R140). -/
theorem roundMag_of_wf {mag d : Nat} (hd : 0 < d) (h : 2 ^ F64.lastPlace mag ∣ mag) :
    roundMag (mag * d) d = mag := by
  unfold roundMag
  dsimp only
  rw [Nat.mul_div_cancel _ hd]
  obtain ⟨r, hr⟩ := h
  have hp := Nat.two_pow_pos (F64.lastPlace mag)
  have hdvd : d * 2 ^ F64.lastPlace mag ∣ mag * d := ⟨r, by
    conv_lhs => rw [hr]
    ring⟩
  rw [roundHalfEven_of_dvd (Nat.mul_pos hd hp) hdvd, ← Nat.div_div_eq_div_mul, Nat.mul_div_cancel _ hd]
  exact Nat.div_mul_cancel ⟨r, hr⟩

theorem F64.round_of_wf {neg : Bool} {mag d : Nat} (hd : 0 < d) (h : (F64.fin neg mag).wf = true) :
    F64.round neg (mag * d) d = .fin neg mag := by
  obtain ⟨hl, hdvd⟩ := F64.wf_fin.1 h
  unfold F64.round
  rw [roundMag_of_wf hd hdvd]
  simp [hl]

/-! ### Every operation answers a binary64 -/

theorem F64.wf_neg {a : F64} (h : a.wf = true) : a.neg.wf = true := by
  cases a with
  | nan => rfl
  | inf s => rfl
  | fin s m => exact F64.wf_fin.2 (F64.wf_fin.1 h)

theorem F64.wf_fadd (a b : F64) : (fadd a b).wf = true := by
  cases a with
  | nan => cases b <;> rfl
  | inf s =>
    cases b with
    | nan => rfl
    | inf t => simp only [fadd]; split <;> rfl
    | fin t n => rfl
  | fin s m =>
    cases b with
    | nan => rfl
    | inf t => rfl
    | fin t n =>
      simp only [fadd]
      split
      · exact F64.wf_round _ _ _
      · split
        · exact F64.wf_zero _
        · split <;> exact F64.wf_round _ _ _

theorem F64.wf_fsub (a b : F64) : (fsub a b).wf = true := F64.wf_fadd _ _

theorem F64.wf_fmul (a b : F64) : (fmul a b).wf = true := by
  cases a with
  | nan => cases b <;> rfl
  | inf s =>
    cases b with
    | nan => rfl
    | inf t => rfl
    | fin t n => simp only [fmul]; split <;> rfl
  | fin s m =>
    cases b with
    | nan => rfl
    | inf t => simp only [fmul]; split <;> rfl
    | fin t n => simp only [fmul]; exact F64.wf_round _ _ _

theorem F64.wf_fdiv (a b : F64) : (fdiv a b).wf = true := by
  cases a with
  | nan => cases b <;> rfl
  | inf s => cases b <;> rfl
  | fin s m =>
    cases b with
    | nan => rfl
    | inf t => exact F64.wf_zero _
    | fin t n =>
      simp only [fdiv]
      split
      · split <;> rfl
      · exact F64.wf_round _ _ _

theorem F64.wf_fabs {a : F64} (h : a.wf = true) : (fabs a).wf = true := by
  cases a with
  | nan => rfl
  | inf s => rfl
  | fin s m => exact F64.wf_fin.2 (F64.wf_fin.1 h)

theorem F64.wf_ffmod {a b : F64} (ha : a.wf = true) (hb : b.wf = true) : (ffmod a b).wf = true := by
  cases a with
  | nan => cases b <;> rfl
  | inf s => cases b <;> rfl
  | fin s m =>
    cases b with
    | nan => rfl
    | inf t => exact ha
    | fin t n =>
      simp only [ffmod]
      split
      · rfl
      · next hn =>
        obtain ⟨hml, hmd⟩ := F64.wf_fin.1 ha
        obtain ⟨hnl, hnd⟩ := F64.wf_fin.1 hb
        have hlt : m % n < n := Nat.mod_lt _ (Nat.pos_of_ne_zero hn)
        rcases Nat.lt_or_ge m n with h | h
        · rw [Nat.mod_eq_of_lt h]; exact ha
        · refine F64.wf_fin.2 ⟨lt_trans hlt hnl, ?_⟩
          have h1 : 2 ^ F64.lastPlace n ∣ m := dvd_trans (Nat.pow_dvd_pow 2 (F64.lastPlace_mono h)) hmd
          have h2 : 2 ^ F64.lastPlace n ∣ m % n := (Nat.dvd_mod_iff hnd).2 h1
          exact dvd_trans (Nat.pow_dvd_pow 2 (F64.lastPlace_mono hlt.le)) h2

theorem F64.wf_cvtU64 (v : DWord) : (cvtU64 v).wf = true := F64.wf_round _ _ _

theorem F64.wf_cvtU32 (v : Word) : (cvtU32 v).wf = true := F64.wf_round _ _ _

/-! ### Encodings -/

theorem F64.pack_toNat {neg : Bool} {e f : Nat} (he : e < 2048) (hf : f < 2 ^ 52) :
    (F64.pack neg e f).toNat = neg.toNat * 2 ^ 63 + e * 2 ^ 52 + f := by
  unfold F64.pack
  rw [BitVec.toNat_ofNat, Nat.mod_eq_of_lt]
  have := neg.toNat_le
  omega

theorem F64.pack_sign {neg : Bool} {e f : Nat} (he : e < 2048) (hf : f < 2 ^ 52) :
    (F64.pack neg e f).getLsbD 63 = neg := by
  rw [BitVec.getLsbD, F64.pack_toNat he hf, Nat.testBit_eq_decide_div_mod_eq]
  cases neg <;> simp <;> omega

theorem F64.pack_exp {neg : Bool} {e f : Nat} (he : e < 2048) (hf : f < 2 ^ 52) :
    ((F64.pack neg e f).extractLsb' 52 11).toNat = e := by
  rw [BitVec.extractLsb'_toNat, F64.pack_toNat he hf, Nat.shiftRight_eq_div_pow]
  cases neg <;> simp <;> omega

theorem F64.pack_frac {neg : Bool} {e f : Nat} (he : e < 2048) (hf : f < 2 ^ 52) :
    ((F64.pack neg e f).extractLsb' 0 52).toNat = f := by
  rw [BitVec.extractLsb'_toNat, F64.pack_toNat he hf, Nat.shiftRight_eq_div_pow]
  cases neg <;> simp <;> omega

/-- Reading back an encoding made from its three fields (R95). -/
theorem F64.ofBits_pack {neg : Bool} {e f : Nat} (he : e < 2048) (hf : f < 2 ^ 52) :
    F64.ofBits (F64.pack neg e f) =
      if e = 2047 then (if f = 0 then .inf neg else .nan)
      else if e = 0 then .fin neg f
      else .fin neg ((2 ^ 52 + f) * 2 ^ (e - 1)) := by
  unfold F64.ofBits
  simp only [F64.pack_sign he hf, F64.pack_exp he hf, F64.pack_frac he hf]

/-- Every encoding is that of a representable value. -/
theorem F64.wf_ofBits (b : DWord) : (F64.ofBits b).wf = true := by
  unfold F64.ofBits
  have he : (b.extractLsb' 52 11).toNat < 2 ^ 11 := BitVec.isLt _
  have hf : (b.extractLsb' 0 52).toNat < 2 ^ 52 := BitVec.isLt _
  generalize (b.extractLsb' 52 11).toNat = e at he
  generalize (b.extractLsb' 0 52).toNat = f at hf
  dsimp only
  split
  · split <;> rfl
  · split
    · refine F64.wf_fin.2 ⟨lt_of_lt_of_le hf (F64.two_pow_le_limit (by omega)), ?_⟩
      rw [F64.lastPlace_eq_zero (by omega)]
      simp
    · refine F64.wf_of_mul_pow (by omega) ?_
      refine lt_of_lt_of_le (Nat.mul_lt_mul_of_pos_right (show 2 ^ 52 + f < 2 ^ 53 by omega) (Nat.two_pow_pos _)) ?_
      rw [← Nat.pow_add]
      exact F64.two_pow_le_limit (by omega)

/-- A representable value is the value of its encoding (R30, R95). -/
theorem F64.ofBits_toBits {v : F64} (h : v.wf = true) {b : DWord} (hb : v.toBits = some b) : F64.ofBits b = v := by
  cases v with
  | nan => cases hb
  | inf s =>
    obtain rfl := (Option.some.inj hb).symm
    rw [F64.ofBits_pack (by omega) (by omega)]
    simp
  | fin s m =>
    obtain rfl := (Option.some.inj hb).symm
    obtain ⟨hl, hd⟩ := F64.wf_fin.1 h
    rcases Nat.lt_or_ge m (2 ^ 52) with hm | hm
    · have he : F64.expField m = 0 := by simp only [F64.expField, hm, if_true]
      have hf : F64.fracField m = m := by simp only [F64.fracField, hm, if_true]
      rw [he, hf, F64.ofBits_pack (by omega) hm]
      simp
    · have hm' : ¬ m < 2 ^ 52 := by omega
      have he : F64.expField m = F64.lastPlace m + 1 := by simp only [F64.expField, hm', if_false]
      have hf : F64.fracField m = m / 2 ^ F64.lastPlace m - 2 ^ 52 := by simp only [F64.fracField, hm', if_false]
      have hk : F64.lastPlace m ≤ 2045 := by
        exact F64.lastPlace_le_of_lt (lt_of_lt_of_le hl
          (F64.limit_le_mul (by omega)))
      have hlo : 2 ^ 52 ≤ m / 2 ^ F64.lastPlace m :=
        (Nat.le_div_iff_mul_le (Nat.two_pow_pos _)).2 (F64.lastPlace_le hm)
      have hhi : m / 2 ^ F64.lastPlace m < 2 ^ 53 :=
        Nat.div_lt_of_lt_mul (by rw [Nat.mul_comm]; exact F64.lt_lastPlace m)
      rw [he, hf, F64.ofBits_pack (by omega) (by omega), if_neg (by omega), if_neg (by omega)]
      rw [Nat.add_sub_cancel, Nat.add_sub_cancel' hlo, Nat.div_mul_cancel hd]

/-- A value without an encoding of its own is a NaN. -/
theorem F64.toBits_eq_none {v : F64} : v.toBits = none ↔ v = .nan := by
  cases v <;> simp [F64.toBits]

theorem F64.ofBits_of_isNanPattern {b : DWord} (h : isNanPattern b = true) : F64.ofBits b = .nan := by
  simp only [isNanPattern, Bool.and_eq_true, beq_iff_eq, bne_iff_ne] at h
  unfold F64.ofBits
  have hf : (b.extractLsb' 0 52).toNat ≠ 0 := fun h0 => h.2 (BitVec.eq_of_toNat_eq h0)
  have he : (b.extractLsb' 52 11).toNat = 2047 := by rw [h.1]; rfl
  simp only [he, hf, if_true, if_false]

/-- A drawn NaN pattern is the pattern of a NaN. -/
theorem isNanPattern_nanPattern (k : Nat) : isNanPattern (nanPattern k) = true := by
  unfold nanPattern
  split
  · assumption
  · decide

theorem F64.ofBits_nanPattern (k : Nat) : F64.ofBits (nanPattern k) = .nan :=
  F64.ofBits_of_isNanPattern (isNanPattern_nanPattern k)

/-- The power-on mixer parameters are admissible (R119). -/
theorem testProfile_wf : testProfile.wf = true := by decide

end Sys2Proof.Machine
end

