-- ==== Sys2Proof/Laws/Memory.lean ====
section
/-! SUPPORT. Laws of the list of written bytes: read after write, other bytes unchanged, the form kept. None of
the reading laws needs the list to be in its form. -/

namespace Sys2Proof.Machine

open Sys2Proof

theorem Memory.lookup_insert_self (m : Memory) (a : Nat) (b : Byte) : (m.insert a b).lookup a = some b := by
  induction m with
  | nil => simp [Memory.insert, Memory.lookup]
  | cons c m ih =>
    unfold Memory.insert
    split
    · simp [Memory.lookup]
    · next h =>
      split
      · simp [Memory.lookup]
      · simp [Memory.lookup, h, ih]

theorem Memory.lookup_insert_ne (m : Memory) {a a' : Nat} (b : Byte) (h : a' ≠ a) :
    (m.insert a b).lookup a' = m.lookup a' := by
  induction m with
  | nil => simp [Memory.insert, Memory.lookup, Ne.symm h]
  | cons c m ih =>
    unfold Memory.insert
    split
    · next e => subst e; simp [Memory.lookup, Ne.symm h]
    · split
      · simp [Memory.lookup, Ne.symm h]
      · simp [Memory.lookup, ih]

/-- Reading after a write, in one equation. -/
theorem Memory.lookup_insert (m : Memory) (a a' : Nat) (b : Byte) :
    (m.insert a b).lookup a' = if a' = a then some b else m.lookup a' := by
  by_cases h : a' = a
  · subst h; simp [Memory.lookup_insert_self]
  · simp [h, Memory.lookup_insert_ne]

theorem Memory.mem_insert {m : Memory} {a : Nat} {b : Byte} {c : Host.Cell} (h : c ∈ m.insert a b) :
    c = (a, b) ∨ c ∈ m := by
  induction m with
  | nil => simpa [Memory.insert] using h
  | cons d m ih =>
    unfold Memory.insert at h
    split at h
    · rcases List.mem_cons.1 h with h | h
      · exact .inl h
      · exact .inr (List.mem_cons_of_mem _ h)
    · split at h
      · simpa using h
      · rcases List.mem_cons.1 h with h | h
        · exact .inr (by simp [h])
        · rcases ih h with h | h
          · exact .inl h
          · exact .inr (List.mem_cons_of_mem _ h)

theorem Memory.wf_insert {m : Memory} (h : m.wf) (a : Nat) (b : Byte) : (m.insert a b).wf := by
  induction m with
  | nil => simp [Memory.insert, Memory.wf]
  | cons c m ih =>
    obtain ⟨hc, hm⟩ := List.pairwise_cons.1 h
    unfold Memory.insert
    split
    · next e => subst e; exact List.pairwise_cons.2 ⟨hc, hm⟩
    · next hne =>
      split
      · next hlt =>
        refine List.pairwise_cons.2 ⟨fun d hd => ?_, h⟩
        rcases List.mem_cons.1 hd with rfl | hd
        · exact hlt
        · exact lt_trans hlt (hc d hd)
      · next hge =>
        refine List.pairwise_cons.2 ⟨fun d hd => ?_, ih hm⟩
        rcases Memory.mem_insert hd with rfl | hd
        · show c.1 < a
          omega
        · exact hc d hd

theorem Memory.wf_forget {m : Memory} (h : m.wf) (a n : Nat) : (m.forget a n).wf := List.Pairwise.filter _ h

theorem Memory.lookup_forget (m : Memory) (a n x : Nat) :
    (m.forget a n).lookup x = if a ≤ x ∧ x < a + n then none else m.lookup x := by
  induction m with
  | nil => simp [Memory.forget, Memory.lookup]
  | cons c m ih =>
    simp only [Memory.forget] at ih ⊢
    by_cases hc : c.1 < a ∨ a + n ≤ c.1
    · rw [List.filter_cons_of_pos (by simpa using hc)]
      by_cases hx : c.1 = x
      · have : ¬ (a ≤ x ∧ x < a + n) := by omega
        simp [Memory.lookup, hx, this]
      · simp only [Memory.lookup, hx, if_false]; exact ih
    · rw [List.filter_cons_of_neg (by simpa using hc), ih]
      by_cases hx : a ≤ x ∧ x < a + n
      · simp [hx]
      · have : c.1 ≠ x := by omega
        simp [hx, Memory.lookup, this]

theorem Memory.inBuffers_insert {m : Memory} {a : Nat} (h : m.inBuffers = true) (ha : isBufferByte a = true)
    (b : Byte) : (m.insert a b).inBuffers = true := by
  simp only [Memory.inBuffers, List.all_eq_true] at h ⊢
  intro c hc
  rcases Memory.mem_insert hc with rfl | hc
  · exact ha
  · exact h c hc

theorem Memory.inBuffers_forget {m : Memory} (h : m.inBuffers = true) (a n : Nat) :
    (m.forget a n).inBuffers = true := by
  simp only [Memory.inBuffers, Memory.forget, List.all_eq_true, List.mem_filter] at h ⊢
  exact fun c hc => h c hc.1

theorem isBufferByte_inOff {i : Nat} (h : i < maxLen) : isBufferByte (inOff i) = true := by
  simp [isBufferByte, inOff, outOff, maxLen] at *; omega

theorem isBufferByte_outOff {i : Nat} (h : i < maxLen) : isBufferByte (outOff i) = true := by
  simp [isBufferByte, inOff, outOff, maxLen] at *; omega

theorem inOff_ne_outOff {i j : Nat} (h : i < maxLen) : inOff i ≠ outOff j := by
  simp [inOff, outOff, maxLen] at *; omega

theorem outOff_inj {i j : Nat} : outOff i = outOff j ↔ i = j := by simp [outOff]

theorem inOff_inj {i j : Nat} : inOff i = inOff j ↔ i = j := by simp [inOff]

/-- The power-on memory is in its form. -/
theorem Memory.wf_reset : Memory.wf State.reset.mem := List.Pairwise.nil

end Sys2Proof.Machine
end

