-- ==== Sys2Proof/Laws/State.lean ====
section
/-! SUPPORT. Each field after each update of the state: true by computation, for simp.

The lemmas about `writeChaos` and `xorOut` are proved after a case split, so that simp rewrites with them instead
of asking the kernel to compare two whole states, one of which holds a mixed state. -/

namespace Sys2Proof.Machine

open Sys2Proof

@[simp] theorem State.complete_cfg (s : State) (c : ErrCode) : (s.complete c).cfg = s.cfg := rfl
@[simp] theorem State.complete_phase (s : State) (c : ErrCode) : (s.complete c).phase = .idle := rfl
@[simp] theorem State.complete_done (s : State) (c : ErrCode) : (s.complete c).done = true := rfl
@[simp] theorem State.complete_err (s : State) (c : ErrCode) : (s.complete c).err = c := rfl
@[simp] theorem State.complete_len (s : State) (c : ErrCode) : (s.complete c).len = s.len := rfl
@[simp] theorem State.complete_ctr (s : State) (c : ErrCode) : (s.complete c).ctr = s.ctr := rfl
@[simp] theorem State.complete_kb (s : State) (c : ErrCode) : (s.complete c).kb = s.kb := rfl
@[simp] theorem State.complete_key (s : State) (c : ErrCode) : (s.complete c).key = s.key := rfl
@[simp] theorem State.complete_nonce (s : State) (c : ErrCode) : (s.complete c).nonce = s.nonce := rfl
@[simp] theorem State.complete_xLo (s : State) (c : ErrCode) : (s.complete c).xLo = s.xLo := rfl
@[simp] theorem State.complete_xHi (s : State) (c : ErrCode) : (s.complete c).xHi = s.xHi := rfl
@[simp] theorem State.complete_yLo (s : State) (c : ErrCode) : (s.complete c).yLo = s.yLo := rfl
@[simp] theorem State.complete_yHi (s : State) (c : ErrCode) : (s.complete c).yHi = s.yHi := rfl
@[simp] theorem State.complete_zLo (s : State) (c : ErrCode) : (s.complete c).zLo = s.zLo := rfl
@[simp] theorem State.complete_zHi (s : State) (c : ErrCode) : (s.complete c).zHi = s.zHi := rfl
@[simp] theorem State.complete_mem (s : State) (c : ErrCode) : (s.complete c).mem = s.mem := rfl
@[simp] theorem State.complete_draws (s : State) (c : ErrCode) : (s.complete c).draws = s.draws := rfl
@[simp] theorem State.complete_agenda (s : State) (c : ErrCode) : (s.complete c).agenda = s.agenda := rfl
@[simp] theorem State.complete_responses (s : State) (c : ErrCode) : (s.complete c).responses = s.responses := rfl

@[simp] theorem State.begin_cfg (s : State) (w : Word) : (s.begin w).cfg = s.cfg := rfl
@[simp] theorem State.begin_phase (s : State) (w : Word) : (s.begin w).phase = .busy w := rfl
@[simp] theorem State.begin_done (s : State) (w : Word) : (s.begin w).done = false := rfl
@[simp] theorem State.begin_err (s : State) (w : Word) : (s.begin w).err = .noError := rfl
@[simp] theorem State.begin_len (s : State) (w : Word) : (s.begin w).len = s.len := rfl
@[simp] theorem State.begin_ctr (s : State) (w : Word) : (s.begin w).ctr = s.ctr := rfl
@[simp] theorem State.begin_kb (s : State) (w : Word) : (s.begin w).kb = s.kb := rfl
@[simp] theorem State.begin_key (s : State) (w : Word) : (s.begin w).key = s.key := rfl
@[simp] theorem State.begin_nonce (s : State) (w : Word) : (s.begin w).nonce = s.nonce := rfl
@[simp] theorem State.begin_xLo (s : State) (w : Word) : (s.begin w).xLo = s.xLo := rfl
@[simp] theorem State.begin_xHi (s : State) (w : Word) : (s.begin w).xHi = s.xHi := rfl
@[simp] theorem State.begin_yLo (s : State) (w : Word) : (s.begin w).yLo = s.yLo := rfl
@[simp] theorem State.begin_yHi (s : State) (w : Word) : (s.begin w).yHi = s.yHi := rfl
@[simp] theorem State.begin_zLo (s : State) (w : Word) : (s.begin w).zLo = s.zLo := rfl
@[simp] theorem State.begin_zHi (s : State) (w : Word) : (s.begin w).zHi = s.zHi := rfl
@[simp] theorem State.begin_mem (s : State) (w : Word) : (s.begin w).mem = s.mem := rfl
@[simp] theorem State.begin_draws (s : State) (w : Word) : (s.begin w).draws = s.draws := rfl
@[simp] theorem State.begin_agenda (s : State) (w : Word) : (s.begin w).agenda = s.agenda := rfl
@[simp] theorem State.begin_responses (s : State) (w : Word) : (s.begin w).responses = s.responses := rfl

@[simp] theorem State.writeKb_cfg (s : State) (b : Byte) : (s.writeKb b).cfg = s.cfg := rfl
@[simp] theorem State.writeKb_phase (s : State) (b : Byte) : (s.writeKb b).phase = s.phase := rfl
@[simp] theorem State.writeKb_done (s : State) (b : Byte) : (s.writeKb b).done = s.done := rfl
@[simp] theorem State.writeKb_err (s : State) (b : Byte) : (s.writeKb b).err = s.err := rfl
@[simp] theorem State.writeKb_len (s : State) (b : Byte) : (s.writeKb b).len = s.len := rfl
@[simp] theorem State.writeKb_ctr (s : State) (b : Byte) : (s.writeKb b).ctr = s.ctr := rfl
@[simp] theorem State.writeKb_kb (s : State) (b : Byte) : (s.writeKb b).kb = b := rfl
@[simp] theorem State.writeKb_key (s : State) (b : Byte) : (s.writeKb b).key = s.key := rfl
@[simp] theorem State.writeKb_nonce (s : State) (b : Byte) : (s.writeKb b).nonce = s.nonce := rfl
@[simp] theorem State.writeKb_xLo (s : State) (b : Byte) : (s.writeKb b).xLo = s.xLo := rfl
@[simp] theorem State.writeKb_xHi (s : State) (b : Byte) : (s.writeKb b).xHi = s.xHi := rfl
@[simp] theorem State.writeKb_yLo (s : State) (b : Byte) : (s.writeKb b).yLo = s.yLo := rfl
@[simp] theorem State.writeKb_yHi (s : State) (b : Byte) : (s.writeKb b).yHi = s.yHi := rfl
@[simp] theorem State.writeKb_zLo (s : State) (b : Byte) : (s.writeKb b).zLo = s.zLo := rfl
@[simp] theorem State.writeKb_zHi (s : State) (b : Byte) : (s.writeKb b).zHi = s.zHi := rfl
@[simp] theorem State.writeKb_mem (s : State) (b : Byte) : (s.writeKb b).mem = s.mem := rfl
@[simp] theorem State.writeKb_draws (s : State) (b : Byte) : (s.writeKb b).draws = s.draws := rfl
@[simp] theorem State.writeKb_agenda (s : State) (b : Byte) : (s.writeKb b).agenda = s.agenda := rfl
@[simp] theorem State.writeKb_responses (s : State) (b : Byte) : (s.writeKb b).responses = s.responses := rfl

@[simp] theorem State.respond_cfg (s : State) (r : Response) : (s.respond r).cfg = s.cfg := rfl
@[simp] theorem State.respond_phase (s : State) (r : Response) : (s.respond r).phase = s.phase := rfl
@[simp] theorem State.respond_done (s : State) (r : Response) : (s.respond r).done = s.done := rfl
@[simp] theorem State.respond_err (s : State) (r : Response) : (s.respond r).err = s.err := rfl
@[simp] theorem State.respond_len (s : State) (r : Response) : (s.respond r).len = s.len := rfl
@[simp] theorem State.respond_ctr (s : State) (r : Response) : (s.respond r).ctr = s.ctr := rfl
@[simp] theorem State.respond_kb (s : State) (r : Response) : (s.respond r).kb = s.kb := rfl
@[simp] theorem State.respond_key (s : State) (r : Response) : (s.respond r).key = s.key := rfl
@[simp] theorem State.respond_nonce (s : State) (r : Response) : (s.respond r).nonce = s.nonce := rfl
@[simp] theorem State.respond_xLo (s : State) (r : Response) : (s.respond r).xLo = s.xLo := rfl
@[simp] theorem State.respond_xHi (s : State) (r : Response) : (s.respond r).xHi = s.xHi := rfl
@[simp] theorem State.respond_yLo (s : State) (r : Response) : (s.respond r).yLo = s.yLo := rfl
@[simp] theorem State.respond_yHi (s : State) (r : Response) : (s.respond r).yHi = s.yHi := rfl
@[simp] theorem State.respond_zLo (s : State) (r : Response) : (s.respond r).zLo = s.zLo := rfl
@[simp] theorem State.respond_zHi (s : State) (r : Response) : (s.respond r).zHi = s.zHi := rfl
@[simp] theorem State.respond_mem (s : State) (r : Response) : (s.respond r).mem = s.mem := rfl
@[simp] theorem State.respond_draws (s : State) (r : Response) : (s.respond r).draws = s.draws := rfl
@[simp] theorem State.respond_agenda (s : State) (r : Response) : (s.respond r).agenda = s.agenda := rfl
@[simp] theorem State.respond_responses (s : State) (r : Response) : (s.respond r).responses = r :: s.responses := rfl

@[simp] theorem State.drawByte_cfg (s : State) : (s.drawByte.2).cfg = s.cfg := rfl
@[simp] theorem State.drawByte_phase (s : State) : (s.drawByte.2).phase = s.phase := rfl
@[simp] theorem State.drawByte_done (s : State) : (s.drawByte.2).done = s.done := rfl
@[simp] theorem State.drawByte_err (s : State) : (s.drawByte.2).err = s.err := rfl
@[simp] theorem State.drawByte_len (s : State) : (s.drawByte.2).len = s.len := rfl
@[simp] theorem State.drawByte_ctr (s : State) : (s.drawByte.2).ctr = s.ctr := rfl
@[simp] theorem State.drawByte_kb (s : State) : (s.drawByte.2).kb = s.kb := rfl
@[simp] theorem State.drawByte_key (s : State) : (s.drawByte.2).key = s.key := rfl
@[simp] theorem State.drawByte_nonce (s : State) : (s.drawByte.2).nonce = s.nonce := rfl
@[simp] theorem State.drawByte_xLo (s : State) : (s.drawByte.2).xLo = s.xLo := rfl
@[simp] theorem State.drawByte_xHi (s : State) : (s.drawByte.2).xHi = s.xHi := rfl
@[simp] theorem State.drawByte_yLo (s : State) : (s.drawByte.2).yLo = s.yLo := rfl
@[simp] theorem State.drawByte_yHi (s : State) : (s.drawByte.2).yHi = s.yHi := rfl
@[simp] theorem State.drawByte_zLo (s : State) : (s.drawByte.2).zLo = s.zLo := rfl
@[simp] theorem State.drawByte_zHi (s : State) : (s.drawByte.2).zHi = s.zHi := rfl
@[simp] theorem State.drawByte_mem (s : State) : (s.drawByte.2).mem = s.mem := rfl
@[simp] theorem State.drawByte_draws (s : State) : (s.drawByte.2).draws = s.draws + 1 := rfl
@[simp] theorem State.drawByte_agenda (s : State) : (s.drawByte.2).agenda = s.agenda := rfl
@[simp] theorem State.drawByte_responses (s : State) : (s.drawByte.2).responses = s.responses := rfl

@[simp] theorem State.drawWord_cfg (s : State) : (s.drawWord.2).cfg = s.cfg := rfl
@[simp] theorem State.drawWord_phase (s : State) : (s.drawWord.2).phase = s.phase := rfl
@[simp] theorem State.drawWord_done (s : State) : (s.drawWord.2).done = s.done := rfl
@[simp] theorem State.drawWord_err (s : State) : (s.drawWord.2).err = s.err := rfl
@[simp] theorem State.drawWord_len (s : State) : (s.drawWord.2).len = s.len := rfl
@[simp] theorem State.drawWord_ctr (s : State) : (s.drawWord.2).ctr = s.ctr := rfl
@[simp] theorem State.drawWord_kb (s : State) : (s.drawWord.2).kb = s.kb := rfl
@[simp] theorem State.drawWord_key (s : State) : (s.drawWord.2).key = s.key := rfl
@[simp] theorem State.drawWord_nonce (s : State) : (s.drawWord.2).nonce = s.nonce := rfl
@[simp] theorem State.drawWord_xLo (s : State) : (s.drawWord.2).xLo = s.xLo := rfl
@[simp] theorem State.drawWord_xHi (s : State) : (s.drawWord.2).xHi = s.xHi := rfl
@[simp] theorem State.drawWord_yLo (s : State) : (s.drawWord.2).yLo = s.yLo := rfl
@[simp] theorem State.drawWord_yHi (s : State) : (s.drawWord.2).yHi = s.yHi := rfl
@[simp] theorem State.drawWord_zLo (s : State) : (s.drawWord.2).zLo = s.zLo := rfl
@[simp] theorem State.drawWord_zHi (s : State) : (s.drawWord.2).zHi = s.zHi := rfl
@[simp] theorem State.drawWord_mem (s : State) : (s.drawWord.2).mem = s.mem := rfl
@[simp] theorem State.drawWord_draws (s : State) : (s.drawWord.2).draws = s.draws + 1 := rfl
@[simp] theorem State.drawWord_agenda (s : State) : (s.drawWord.2).agenda = s.agenda := rfl
@[simp] theorem State.drawWord_responses (s : State) : (s.drawWord.2).responses = s.responses := rfl

@[simp] theorem State.resetInput_cfg (s : State) : (s.resetInput).cfg = s.cfg := rfl
@[simp] theorem State.resetInput_phase (s : State) : (s.resetInput).phase = State.reset.phase := rfl
@[simp] theorem State.resetInput_done (s : State) : (s.resetInput).done = State.reset.done := rfl
@[simp] theorem State.resetInput_err (s : State) : (s.resetInput).err = State.reset.err := rfl
@[simp] theorem State.resetInput_len (s : State) : (s.resetInput).len = State.reset.len := rfl
@[simp] theorem State.resetInput_ctr (s : State) : (s.resetInput).ctr = State.reset.ctr := rfl
@[simp] theorem State.resetInput_kb (s : State) : (s.resetInput).kb = State.reset.kb := rfl
@[simp] theorem State.resetInput_key (s : State) : (s.resetInput).key = State.reset.key := rfl
@[simp] theorem State.resetInput_nonce (s : State) : (s.resetInput).nonce = State.reset.nonce := rfl
@[simp] theorem State.resetInput_xLo (s : State) : (s.resetInput).xLo = State.reset.xLo := rfl
@[simp] theorem State.resetInput_xHi (s : State) : (s.resetInput).xHi = State.reset.xHi := rfl
@[simp] theorem State.resetInput_yLo (s : State) : (s.resetInput).yLo = State.reset.yLo := rfl
@[simp] theorem State.resetInput_yHi (s : State) : (s.resetInput).yHi = State.reset.yHi := rfl
@[simp] theorem State.resetInput_zLo (s : State) : (s.resetInput).zLo = State.reset.zLo := rfl
@[simp] theorem State.resetInput_zHi (s : State) : (s.resetInput).zHi = State.reset.zHi := rfl
@[simp] theorem State.resetInput_mem (s : State) : (s.resetInput).mem = s.mem.forget (outOff 0) s.outAtRisk := rfl
@[simp] theorem State.resetInput_draws (s : State) : (s.resetInput).draws = s.draws := rfl
@[simp] theorem State.resetInput_agenda (s : State) : (s.resetInput).agenda = s.agenda := rfl
@[simp] theorem State.resetInput_responses (s : State) : (s.resetInput).responses = s.responses := rfl

@[simp] theorem State.writeChaos_cfg (s : State) (c : Chaos) : (s.writeChaos c).cfg = s.cfg := by cases c; rfl
@[simp] theorem State.writeChaos_phase (s : State) (c : Chaos) : (s.writeChaos c).phase = s.phase := by cases c; rfl
@[simp] theorem State.writeChaos_done (s : State) (c : Chaos) : (s.writeChaos c).done = s.done := by cases c; rfl
@[simp] theorem State.writeChaos_err (s : State) (c : Chaos) : (s.writeChaos c).err = s.err := by cases c; rfl
@[simp] theorem State.writeChaos_len (s : State) (c : Chaos) : (s.writeChaos c).len = s.len := by cases c; rfl
@[simp] theorem State.writeChaos_ctr (s : State) (c : Chaos) : (s.writeChaos c).ctr = s.ctr := by cases c; rfl
@[simp] theorem State.writeChaos_kb (s : State) (c : Chaos) : (s.writeChaos c).kb = s.kb := by cases c; rfl
@[simp] theorem State.writeChaos_key (s : State) (c : Chaos) : (s.writeChaos c).key = s.key := by cases c; rfl
@[simp] theorem State.writeChaos_nonce (s : State) (c : Chaos) : (s.writeChaos c).nonce = s.nonce := by cases c; rfl
@[simp] theorem State.writeChaos_mem (s : State) (c : Chaos) : (s.writeChaos c).mem = s.mem := by cases c; rfl
@[simp] theorem State.writeChaos_agenda (s : State) (c : Chaos) : (s.writeChaos c).agenda = s.agenda := by cases c; rfl
@[simp] theorem State.writeChaos_responses (s : State) (c : Chaos) : (s.writeChaos c).responses = s.responses := by cases c; rfl

@[simp] theorem State.readByte_cfg (s : State) (off : Nat) : ((s.readByte off).2).cfg = s.cfg := rfl
@[simp] theorem State.readByte_phase (s : State) (off : Nat) : ((s.readByte off).2).phase = s.phase := rfl
@[simp] theorem State.readByte_done (s : State) (off : Nat) : ((s.readByte off).2).done = s.done := rfl
@[simp] theorem State.readByte_err (s : State) (off : Nat) : ((s.readByte off).2).err = s.err := rfl
@[simp] theorem State.readByte_len (s : State) (off : Nat) : ((s.readByte off).2).len = s.len := rfl
@[simp] theorem State.readByte_ctr (s : State) (off : Nat) : ((s.readByte off).2).ctr = s.ctr := rfl
@[simp] theorem State.readByte_kb (s : State) (off : Nat) : ((s.readByte off).2).kb = s.kb := rfl
@[simp] theorem State.readByte_key (s : State) (off : Nat) : ((s.readByte off).2).key = s.key := rfl
@[simp] theorem State.readByte_nonce (s : State) (off : Nat) : ((s.readByte off).2).nonce = s.nonce := rfl
@[simp] theorem State.readByte_xLo (s : State) (off : Nat) : ((s.readByte off).2).xLo = s.xLo := rfl
@[simp] theorem State.readByte_xHi (s : State) (off : Nat) : ((s.readByte off).2).xHi = s.xHi := rfl
@[simp] theorem State.readByte_yLo (s : State) (off : Nat) : ((s.readByte off).2).yLo = s.yLo := rfl
@[simp] theorem State.readByte_yHi (s : State) (off : Nat) : ((s.readByte off).2).yHi = s.yHi := rfl
@[simp] theorem State.readByte_zLo (s : State) (off : Nat) : ((s.readByte off).2).zLo = s.zLo := rfl
@[simp] theorem State.readByte_zHi (s : State) (off : Nat) : ((s.readByte off).2).zHi = s.zHi := rfl
@[simp] theorem State.readByte_mem (s : State) (off : Nat) : ((s.readByte off).2).mem = s.mem := rfl
@[simp] theorem State.readByte_draws (s : State) (off : Nat) : ((s.readByte off).2).draws = s.draws + byteDraws off s.mem := rfl
@[simp] theorem State.readByte_agenda (s : State) (off : Nat) : ((s.readByte off).2).agenda = s.agenda := rfl
@[simp] theorem State.readByte_responses (s : State) (off : Nat) : ((s.readByte off).2).responses = s.responses := rfl

@[simp] theorem State.writeByte_cfg (s : State) (off : Nat) (b : Byte) : (s.writeByte off b).cfg = s.cfg := rfl
@[simp] theorem State.writeByte_phase (s : State) (off : Nat) (b : Byte) : (s.writeByte off b).phase = s.phase := rfl
@[simp] theorem State.writeByte_done (s : State) (off : Nat) (b : Byte) : (s.writeByte off b).done = s.done := rfl
@[simp] theorem State.writeByte_err (s : State) (off : Nat) (b : Byte) : (s.writeByte off b).err = s.err := rfl
@[simp] theorem State.writeByte_len (s : State) (off : Nat) (b : Byte) : (s.writeByte off b).len = s.len := rfl
@[simp] theorem State.writeByte_ctr (s : State) (off : Nat) (b : Byte) : (s.writeByte off b).ctr = s.ctr := rfl
@[simp] theorem State.writeByte_kb (s : State) (off : Nat) (b : Byte) : (s.writeByte off b).kb = s.kb := rfl
@[simp] theorem State.writeByte_key (s : State) (off : Nat) (b : Byte) : (s.writeByte off b).key = s.key := rfl
@[simp] theorem State.writeByte_nonce (s : State) (off : Nat) (b : Byte) : (s.writeByte off b).nonce = s.nonce := rfl
@[simp] theorem State.writeByte_xLo (s : State) (off : Nat) (b : Byte) : (s.writeByte off b).xLo = s.xLo := rfl
@[simp] theorem State.writeByte_xHi (s : State) (off : Nat) (b : Byte) : (s.writeByte off b).xHi = s.xHi := rfl
@[simp] theorem State.writeByte_yLo (s : State) (off : Nat) (b : Byte) : (s.writeByte off b).yLo = s.yLo := rfl
@[simp] theorem State.writeByte_yHi (s : State) (off : Nat) (b : Byte) : (s.writeByte off b).yHi = s.yHi := rfl
@[simp] theorem State.writeByte_zLo (s : State) (off : Nat) (b : Byte) : (s.writeByte off b).zLo = s.zLo := rfl
@[simp] theorem State.writeByte_zHi (s : State) (off : Nat) (b : Byte) : (s.writeByte off b).zHi = s.zHi := rfl
@[simp] theorem State.writeByte_mem (s : State) (off : Nat) (b : Byte) : (s.writeByte off b).mem = storeByte off b s.mem := rfl
@[simp] theorem State.writeByte_draws (s : State) (off : Nat) (b : Byte) : (s.writeByte off b).draws = s.draws := rfl
@[simp] theorem State.writeByte_agenda (s : State) (off : Nat) (b : Byte) : (s.writeByte off b).agenda = s.agenda := rfl
@[simp] theorem State.writeByte_responses (s : State) (off : Nat) (b : Byte) : (s.writeByte off b).responses = s.responses := rfl

@[simp] theorem State.xorOut_cfg (s : State) (ks : List Byte) : (s.xorOut ks).cfg = s.cfg := by cases ks <;> rfl
@[simp] theorem State.xorOut_phase (s : State) (ks : List Byte) : (s.xorOut ks).phase = s.phase := by cases ks <;> rfl
@[simp] theorem State.xorOut_done (s : State) (ks : List Byte) : (s.xorOut ks).done = s.done := by cases ks <;> rfl
@[simp] theorem State.xorOut_err (s : State) (ks : List Byte) : (s.xorOut ks).err = s.err := by cases ks <;> rfl
@[simp] theorem State.xorOut_len (s : State) (ks : List Byte) : (s.xorOut ks).len = s.len := by cases ks <;> rfl
@[simp] theorem State.xorOut_ctr (s : State) (ks : List Byte) : (s.xorOut ks).ctr = s.ctr := by cases ks <;> rfl
@[simp] theorem State.xorOut_kb (s : State) (ks : List Byte) : (s.xorOut ks).kb = s.kb := by cases ks <;> rfl
@[simp] theorem State.xorOut_key (s : State) (ks : List Byte) : (s.xorOut ks).key = s.key := by cases ks <;> rfl
@[simp] theorem State.xorOut_nonce (s : State) (ks : List Byte) : (s.xorOut ks).nonce = s.nonce := by cases ks <;> rfl
@[simp] theorem State.xorOut_xLo (s : State) (ks : List Byte) : (s.xorOut ks).xLo = s.xLo := by cases ks <;> rfl
@[simp] theorem State.xorOut_xHi (s : State) (ks : List Byte) : (s.xorOut ks).xHi = s.xHi := by cases ks <;> rfl
@[simp] theorem State.xorOut_yLo (s : State) (ks : List Byte) : (s.xorOut ks).yLo = s.yLo := by cases ks <;> rfl
@[simp] theorem State.xorOut_yHi (s : State) (ks : List Byte) : (s.xorOut ks).yHi = s.yHi := by cases ks <;> rfl
@[simp] theorem State.xorOut_zLo (s : State) (ks : List Byte) : (s.xorOut ks).zLo = s.zLo := by cases ks <;> rfl
@[simp] theorem State.xorOut_zHi (s : State) (ks : List Byte) : (s.xorOut ks).zHi = s.zHi := by cases ks <;> rfl
@[simp] theorem State.xorOut_mem (s : State) (ks : List Byte) : (s.xorOut ks).mem = (xorBytes ks 0 s.mem s.draws).1 := by cases ks <;> rfl
@[simp] theorem State.xorOut_draws (s : State) (ks : List Byte) : (s.xorOut ks).draws = (xorBytes ks 0 s.mem s.draws).2 := by cases ks <;> rfl
@[simp] theorem State.xorOut_agenda (s : State) (ks : List Byte) : (s.xorOut ks).agenda = s.agenda := by cases ks <;> rfl
@[simp] theorem State.xorOut_responses (s : State) (ks : List Byte) : (s.xorOut ks).responses = s.responses := by cases ks <;> rfl

@[simp] theorem State.writeReg_cfg (r : Reg) (v : Word) (s : State) : (s.writeReg r v).cfg = s.cfg := by cases r <;> rfl
@[simp] theorem State.writeReg_phase (r : Reg) (v : Word) (s : State) : (s.writeReg r v).phase = s.phase := by cases r <;> rfl
@[simp] theorem State.writeReg_done (r : Reg) (v : Word) (s : State) : (s.writeReg r v).done = s.done := by cases r <;> rfl
@[simp] theorem State.writeReg_err (r : Reg) (v : Word) (s : State) : (s.writeReg r v).err = s.err := by cases r <;> rfl
@[simp] theorem State.writeReg_kb (r : Reg) (v : Word) (s : State) : (s.writeReg r v).kb = s.kb := by cases r <;> rfl
@[simp] theorem State.writeReg_mem (r : Reg) (v : Word) (s : State) : (s.writeReg r v).mem = s.mem := by cases r <;> rfl
@[simp] theorem State.writeReg_draws (r : Reg) (v : Word) (s : State) : (s.writeReg r v).draws = s.draws := by cases r <;> rfl
@[simp] theorem State.writeReg_agenda (r : Reg) (v : Word) (s : State) : (s.writeReg r v).agenda = s.agenda := by cases r <;> rfl
@[simp] theorem State.writeReg_responses (r : Reg) (v : Word) (s : State) : (s.writeReg r v).responses = s.responses := by cases r <;> rfl

@[simp] theorem State.writeReg_len_self (v : Word) (s : State) : (s.writeReg .len v).len = v := rfl
@[simp] theorem State.writeReg_ctr_self (v : Word) (s : State) : (s.writeReg .ctr v).ctr = v := rfl
@[simp] theorem State.writeReg_xLo_self (v : Word) (s : State) : (s.writeReg .xLo v).xLo = v := rfl
@[simp] theorem State.writeReg_xHi_self (v : Word) (s : State) : (s.writeReg .xHi v).xHi = v := rfl
@[simp] theorem State.writeReg_yLo_self (v : Word) (s : State) : (s.writeReg .yLo v).yLo = v := rfl
@[simp] theorem State.writeReg_yHi_self (v : Word) (s : State) : (s.writeReg .yHi v).yHi = v := rfl
@[simp] theorem State.writeReg_zLo_self (v : Word) (s : State) : (s.writeReg .zLo v).zLo = v := rfl
@[simp] theorem State.writeReg_zHi_self (v : Word) (s : State) : (s.writeReg .zHi v).zHi = v := rfl

end Sys2Proof.Machine
end

