-- ==== Sys2Proof/Laws/Ops.lean ====
section
/-! SUPPORT. One lemma for each shared operation, saying once what it can do. -/

namespace Sys2Proof.Machine

open Sys2Proof

/-! ### Encodings in two halves -/

theorem append_halves (b : DWord) : (b.extractLsb' 32 32 ++ b.extractLsb' 0 32 : DWord) = b := by
  apply BitVec.eq_of_getLsbD_eq
  intro i hi
  rw [BitVec.getLsbD_append]
  by_cases h : i < 32
  · simp [h]
  · have : i - 32 < 32 := by omega
    have h2 : 32 + (i - 32) = i := by omega
    simp [h, this, h2]

/-! ### Storing a value -/

/-- What is stored is an encoding of the value, whatever is drawn. -/
theorem ofBits_storedBits {v : F64} (h : v.wf = true) (k : Nat) : F64.ofBits (storedBits v k) = v := by
  unfold storedBits
  cases hb : v.toBits with
  | none =>
    obtain rfl := F64.toBits_eq_none.1 hb
    exact F64.ofBits_nanPattern k
  | some b => exact F64.ofBits_toBits h hb

/-- Storing a value that is no NaN stores its own encoding and draws nothing. -/
theorem storedBits_of_some {v : F64} {b : DWord} (h : v.toBits = some b) (k : Nat) :
    storedBits v k = b ∧ storeDraws v = 0 := by simp [storedBits, storeDraws, h]

/-! ### Writing the triple -/

theorem State.wf_chaos (s : State) : s.chaos.wf = true := by
  simp [Chaos.wf, State.chaos, F64.wf_ofBits]

/-- The registers hold the triple that was written (R30). -/
theorem State.chaos_writeChaos {c : Chaos} (h : c.wf = true) (s : State) : (s.writeChaos c).chaos = c := by
  simp only [Chaos.wf, Bool.and_eq_true] at h
  simp only [State.chaos, State.xBits, State.yBits, State.zBits, State.writeChaos, append_halves]
  rw [ofBits_storedBits h.1.1, ofBits_storedBits h.1.2, ofBits_storedBits h.2]

/-- The triple of a state depends on the six registers alone. -/
theorem State.chaos_congr {s t : State} (h : s.sameTriple t) : t.chaos = s.chaos := by
  obtain ⟨h1, h2, h3, h4, h5, h6⟩ := h
  simp [State.chaos, State.xBits, State.yBits, State.zBits, h1, h2, h3, h4, h5, h6]

/-! ### Reading and writing one buffer byte -/

/-- A written byte is read as it was written, and nothing is drawn (R67). -/
theorem byteAt_of_written {off : Nat} {m : Memory} {b : Byte} (hb : isBufferByte off = true)
    (h : m.lookup off = some b) (k : Nat) : byteAt off m k = b ∧ byteDraws off m = 0 := by
  simp [byteAt, byteDraws, hb, h]

/-- An unwritten byte is a draw (R67). -/
theorem byteAt_of_unwritten {off : Nat} {m : Memory} (hb : isBufferByte off = true)
    (h : m.lookup off = none) (k : Nat) : byteAt off m k = Config.freeByte k ∧ byteDraws off m = 1 := by
  simp [byteAt, byteDraws, hb, h]

theorem storeByte_of_buffer {off : Nat} (hb : isBufferByte off = true) (b : Byte) (m : Memory) :
    storeByte off b m = m.insert off b := by simp [storeByte, hb]

theorem wf_storeByte {m : Memory} (h : m.wf) (off : Nat) (b : Byte) : (storeByte off b m).wf := by
  unfold storeByte
  split
  · exact Memory.wf_insert h off b
  · exact h

theorem inBuffers_storeByte {m : Memory} (h : m.inBuffers = true) (off : Nat) (b : Byte) :
    (storeByte off b m).inBuffers = true := by
  unfold storeByte
  split
  · next hb => exact Memory.inBuffers_insert h hb b
  · exact h

/-- Storing a byte leaves every other byte alone. -/
theorem lookup_storeByte_ne {m : Memory} {off a : Nat} (h : a ≠ off) (b : Byte) :
    (storeByte off b m).lookup a = m.lookup a := by
  unfold storeByte
  split
  · exact Memory.lookup_insert_ne m b h
  · rfl

/-! ### Registers -/

/-- The registers a host can write (R21). -/
def Reg.writable : Reg → Bool
  | .len | .ctr | .key _ | .nonce _ | .xLo | .xHi | .yLo | .yHi | .zLo | .zHi => true
  | .id | .cmd | .status | .kb | .warmup | .maxlen => false
  | .sigmaLo | .sigmaHi | .rhoLo | .rhoHi | .betaLo | .betaHi | .dtLo | .dtHi => false

/-- A writable register reads back what was written (R25, R26, R28, R29, R30). -/
theorem State.readReg_writeReg_self {r : Reg} (h : r.writable = true) (v : Word) (s : State) :
    (s.writeReg r v).readReg r = v := by
  cases r <;> first | rfl | (simp [State.writeReg, State.readReg]; done) | simp [Reg.writable] at h

/-- A write to one register leaves every other register alone. -/
theorem State.readReg_writeReg_ne {r r' : Reg} (h : r' ≠ r) (v : Word) (s : State) :
    (s.writeReg r v).readReg r' = s.readReg r' := by
  cases r with
  | key k =>
    cases r' with
    | key k' =>
      have hk : k.val ≠ k'.val := fun e => h (by rw [Fin.ext e])
      simpa [State.writeReg, State.readReg] using Vector.getElem_set_ne _ _ hk
    | _ => rfl
  | nonce k =>
    cases r' with
    | nonce k' =>
      have hk : k.val ≠ k'.val := fun e => h (by rw [Fin.ext e])
      simpa [State.writeReg, State.readReg] using Vector.getElem_set_ne _ _ hk
    | _ => rfl
  | _ => cases r' <;> first | rfl | exact absurd rfl h

/-- A write to a register that is not writable changes nothing (R21). -/
theorem State.writeReg_of_not_writable {r : Reg} (h : r.writable = false) (v : Word) (s : State) :
    s.writeReg r v = s := by
  cases r <;> first | rfl | simp [Reg.writable] at h

/-- What a write to a register leaves alone, whichever it is. -/
theorem State.writeReg_frame (r : Reg) (v : Word) (s : State) :
    (s.writeReg r v).mem = s.mem ∧ (s.writeReg r v).phase = s.phase ∧
      (s.writeReg r v).statusWord = s.statusWord ∧ (s.writeReg r v).kb = s.kb := by
  cases r <;> exact ⟨rfl, rfl, rfl, rfl⟩

/-! ### Reset -/

/-- What the reset input does (R250, R251): reset values in every register, the model's own fields kept, and the OUT
bytes at risk without a value. -/
theorem State.resetInput_spec (s : State) :
    (∀ r, s.resetInput.readReg r = State.reset.readReg r) ∧ s.resetInput.phase = .idle ∧
      s.resetInput.cfg = s.cfg ∧ s.resetInput.agenda = s.agenda ∧ s.resetInput.responses = s.responses ∧
      ∀ a, s.resetInput.mem.lookup a =
        if outOff 0 ≤ a ∧ a < outOff 0 + s.outAtRisk then none else s.mem.lookup a :=
  ⟨fun r => by cases r <;> rfl, rfl, rfl, rfl, rfl, fun a => Memory.lookup_forget _ _ _ a⟩

/-! ### Accepting a command -/

/-- What a CMD write while idle can do (R224): reject the word, reject the length, or start the command. -/
theorem State.accept_cases (w : Word) (s : State) :
    (∃ e, decodeWord w = .error e ∧ s.accept w = s.complete .illegalCommand) ∨
    (∃ i e, decodeWord w = .ok i ∧ i.usesLen = true ∧ s.lengthError = some e ∧ s.accept w = s.complete e) ∨
    (∃ i, decodeWord w = .ok i ∧ (i.usesLen = true → s.lengthError = none) ∧ s.accept w = s.begin w) := by
  unfold State.accept
  cases hd : decodeWord w with
  | error e => exact .inl ⟨e, rfl, rfl⟩
  | ok i =>
    by_cases hu : i.usesLen = true
    · cases hl : s.lengthError with
      | none => exact .inr (.inr ⟨i, rfl, fun _ => rfl, by simp [hu]⟩)
      | some e => exact .inr (.inl ⟨i, e, rfl, hu, rfl, by simp [hu]⟩)
    · exact .inr (.inr ⟨i, rfl, fun h => absurd h hu, by simp [hu]⟩)

/-- The length checks depend on LEN alone. -/
theorem State.lengthError_congr {s t : State} (h : t.len = s.len) : t.lengthError = s.lengthError := by
  have : t.lenValue = s.lenValue := by simp [State.lenValue, h]
  simp only [State.lengthError, this]

/-- The two errors the length checks report, and what passing them means (R194). -/
theorem State.lengthError_cases (s : State) :
    (s.lenValue ≤ 0 ∧ s.lengthError = some .invalidLength) ∨
    ((maxLen : Int) < s.lenValue ∧ s.lengthError = some .lengthExceedsBuffer) ∨
    (0 < s.lenValue ∧ s.lenValue ≤ maxLen ∧ s.lengthError = none) := by
  unfold State.lengthError
  by_cases h1 : s.lenValue ≤ 0
  · exact .inl ⟨h1, by simp [h1]⟩
  · by_cases h2 : (maxLen : Int) < s.lenValue
    · exact .inr (.inl ⟨h2, by simp [h1, h2]⟩)
    · exact .inr (.inr ⟨by omega, by omega, by simp [h1, h2]⟩)

theorem State.lenValue_le_of_none {s : State} (h : s.lengthError = none) : s.lenValue.toNat ≤ maxLen := by
  rcases s.lengthError_cases with ⟨_, h'⟩ | ⟨_, h'⟩ | ⟨_, h', _⟩
  · simp [h] at h'
  · simp [h] at h'
  · omega

end Sys2Proof.Machine
end

