-- ==== Sys2Proof/Laws/Bus.lean ====
section
/-! SUPPORT. The bus port's shared operations: what a read and a write can do. -/

namespace Sys2Proof.Machine

open Sys2Proof

/-! ### The window -/

/-- An offset of the window is reached at ENGINE_BASE plus the offset (R61, R99). -/
theorem busOffset_base_add (c : BlockConfig) {off : Nat} (h : off < 0x4000) :
    busOffset c (engineBase c + off) = some off := by
  simp [busOffset, h]

theorem busOffset_eq_some {c : BlockConfig} {addr off : Nat} (h : busOffset c addr = some off) :
    off < 0x4000 ∧ addr = engineBase c + off := by
  unfold busOffset at h
  split at h
  · next hr => simp only [Option.some.injEq] at h; omega
  · cases h

/-! ### Reads -/

theorem State.drawn_zero (s : State) : s = { s with draws := s.draws + 0 } := rfl

theorem State.readBytes_state (n off : Nat) (s : State) :
    ∃ d, (State.readBytes n off s).2 = { s with draws := s.draws + d } := by
  induction n generalizing off s with
  | zero => exact ⟨0, rfl⟩
  | succ n ih =>
    obtain ⟨d', hd'⟩ := ih (off + 1) (s.readByte off).2
    refine ⟨byteDraws off s.mem + d', ?_⟩
    show (State.readBytes n (off + 1) (s.readByte off).2).2 = _
    rw [hd']
    simp [State.readByte, Nat.add_assoc]

theorem State.drawBytes_state (n off : Nat) (s : State) :
    ∃ d, (State.drawBytes n off s).2 = { s with draws := s.draws + d } := by
  induction n generalizing off s with
  | zero => exact ⟨0, rfl⟩
  | succ n ih =>
    by_cases hb : isBufferByte off = true
    · obtain ⟨d', hd'⟩ := ih (off + 1) s.drawByte.2
      refine ⟨1 + d', ?_⟩
      simp only [State.drawBytes, hb, if_true]
      rw [hd']
      simp [State.drawByte, Nat.add_assoc]
    · obtain ⟨d', hd'⟩ := ih (off + 1) s
      exact ⟨d', by simp only [State.drawBytes, hb]; exact hd'⟩

theorem State.readOffset_state (off : Nat) (s : State) :
    ∃ d, (s.readOffset off).2 = { s with draws := s.draws + d } := by
  unfold State.readOffset
  split
  · exact ⟨0, rfl⟩
  · split
    · exact ⟨1, rfl⟩
    · exact ⟨0, rfl⟩

/-- A read access changes nothing but the count of draws (R69). -/
theorem State.serveRead_state (off : Nat) (w : BusWidth) (s : State) :
    ∃ d, (s.serveRead off w).2 = { s with draws := s.draws + d } := by
  unfold State.serveRead
  split
  · split
    · exact s.readOffset_state off
    · exact State.readBytes_state _ off s
    · dsimp only
      split
      · exact State.drawBytes_state _ off s
      · exact State.readBytes_state _ off s
    · exact ⟨0, rfl⟩
  · exact ⟨0, rfl⟩

/-! ### Writes -/

theorem State.writeBytes_state (n off : Nat) (v : Word) (s : State) :
    ∃ m, State.writeBytes n off v s = { s with mem := m } := by
  induction n generalizing off v s with
  | zero => exact ⟨s.mem, rfl⟩
  | succ n ih =>
    obtain ⟨m, h⟩ := ih (off + 1) (v >>> 8) (s.writeByte off (v.extractLsb' 0 8))
    refine ⟨m, ?_⟩
    show State.writeBytes n (off + 1) (v >>> 8) (s.writeByte off (v.extractLsb' 0 8)) = _
    rw [h]
    rfl

/-- Stored bytes keep the memory in its form and inside the buffers. -/
theorem State.writeBytes_wf (n off : Nat) (v : Word) (s : State) (hw : s.mem.wf) (hb : s.mem.inBuffers = true) :
    (State.writeBytes n off v s).mem.wf ∧ (State.writeBytes n off v s).mem.inBuffers = true := by
  induction n generalizing off v s with
  | zero => exact ⟨hw, hb⟩
  | succ n ih =>
    exact ih (off + 1) (v >>> 8) _ (wf_storeByte hw _ _) (inBuffers_storeByte hb _ _)

/-- What a write access can do: refuse it, ignore it while busy, write a register or start a command, store
buffer bytes, or ignore it at a reserved offset (R62, R70, R33). -/
theorem State.serveWrite_cases (off : Nat) (w : BusWidth) (v : Word) (s : State) :
    (accessOk off w = false ∧ s.serveWrite off w v = (.busError, s)) ∨
    (accessOk off w = true ∧ s.busy = true ∧ s.serveWrite off w v = (.ok, s)) ∨
    (accessOk off w = true ∧ s.busy = false ∧ regionOf off = .registers ∧
      s.serveWrite off w v = (.ok, s.writeOffset off v)) ∨
    (accessOk off w = true ∧ s.busy = false ∧ (regionOf off = .dataIn ∨ regionOf off = .dataOut) ∧
      s.serveWrite off w v = (.ok, State.writeBytes w.bytes off v s)) ∨
    (accessOk off w = true ∧ s.busy = false ∧ regionOf off = .reserved ∧ s.serveWrite off w v = (.ok, s)) := by
  unfold State.serveWrite
  cases ha : accessOk off w with
  | false => simp
  | true =>
    cases hb : s.busy with
    | true => simp
    | false => cases hr : regionOf off <;> simp

/-- What a write to a register offset while idle can do: nothing at a reserved offset, start a command at CMD, or
write the register (R21, R23, R33). -/
theorem State.writeOffset_cases (off : Nat) (v : Word) (s : State) :
    (Reg.ofOffset off = none ∧ s.writeOffset off v = s) ∨
    (Reg.ofOffset off = some .cmd ∧ s.writeOffset off v = s.accept v) ∨
    (∃ r, Reg.ofOffset off = some r ∧ r ≠ .cmd ∧ s.writeOffset off v = s.writeReg r v) := by
  unfold State.writeOffset
  cases h : Reg.ofOffset off with
  | none => simp
  | some r =>
    by_cases hr : r = .cmd
    · simp [hr]
    · simp [hr]

/-! ### The regions -/

/-- A register stands at an aligned offset below 0x090 (R21). -/
theorem Reg.ofOffset_some {off : Nat} {r : Reg} (h : Reg.ofOffset off = some r) : off < 0x090 ∧ off % 4 = 0 := by
  unfold Reg.ofOffset at h
  split at h <;> first | omega | cases h

/-- The offsets of the two buffers (R61). -/
theorem regionOf_buffer {off : Nat} (h1 : 0x1000 ≤ off) (h2 : off < 0x3000) :
    regionOf off = .dataIn ∨ regionOf off = .dataOut := by
  have a : ¬ off < 0x1000 := by omega
  by_cases b : off < 0x2000 <;> simp [regionOf, a, b, h2]

/-- Every offset of the two buffers is that of a byte: MAXLEN is the whole region (R66). -/
theorem isBufferByte_of_range {off : Nat} (h1 : 0x1000 ≤ off) (h2 : off < 0x3000) : isBufferByte off = true := by
  simp [isBufferByte, inOff, outOff, maxLen]
  omega

/-- Alignment alone decides about a word access where words are accepted (R62). -/
theorem accessOk_word {off : Nat} (h : off % 4 = 0) (h' : widthAllowed (regionOf off) .word = true) :
    accessOk off .word = true := by
  simp only [accessOk, h', Bool.and_true, decide_eq_true_eq]
  exact h

/-- A misaligned access, or one of a width its region does not accept, is not served (R62). -/
theorem accessOk_eq_false {off : Nat} {w : BusWidth}
    (h : off % w.bytes ≠ 0 ∨ ((off < 0x1000 ∨ 0x3000 ≤ off) ∧ w ≠ .word)) : accessOk off w = false := by
  rcases h with h | ⟨h, hw⟩
  · simp [accessOk, h]
  · have hr : regionOf off = .registers ∨ regionOf off = .reserved := by
      rcases h with h | h
      · simp [regionOf, h]
      · simp [regionOf, show ¬ off < 0x1000 by omega, show ¬ off < 0x2000 by omega, show ¬ off < 0x3000 by omega]
    rcases hr with e | e <;> cases w <;> simp_all [accessOk, widthAllowed]

/-- An aligned read of the buffers while idle reads their bytes (R64, R66). -/
theorem State.serveRead_buffer {off : Nat} {w : BusWidth} (s : State) (h1 : 0x1000 ≤ off) (h2 : off < 0x3000)
    (h4 : off % w.bytes = 0) (hb : s.busy = false) :
    s.serveRead off w = (.data (State.readBytes w.bytes off s).1, (State.readBytes w.bytes off s).2) := by
  rcases regionOf_buffer h1 h2 with hr | hr <;>
    (have hk : accessOk off w = true := by simp [accessOk, hr, widthAllowed, h4]) <;>
    simp [State.serveRead, hk, hr, hb]

/-- An aligned write of the buffers while idle stores its bytes (R64, R66). -/
theorem State.serveWrite_buffer {off : Nat} {w : BusWidth} (v : Word) (s : State) (h1 : 0x1000 ≤ off)
    (h2 : off < 0x3000) (h4 : off % w.bytes = 0) (hb : s.busy = false) :
    s.serveWrite off w v = (.ok, State.writeBytes w.bytes off v s) := by
  rcases regionOf_buffer h1 h2 with hr | hr <;>
    (have hk : accessOk off w = true := by simp [accessOk, hr, widthAllowed, h4]) <;>
    simp [State.serveWrite, hk, hr, hb]

/-- The bytes `writeBytes` stores, and the bytes it leaves alone (R64). -/
theorem State.writeBytes_lookup (n off : Nat) (v : Word) (s : State) (h1 : 0x1000 ≤ off) (h2 : off + n ≤ 0x3000) :
    (∀ k, k < n → (State.writeBytes n off v s).mem.lookup (off + k) = some (v.extractLsb' (8 * k) 8)) ∧
    (∀ a, (a < off ∨ off + n ≤ a) → (State.writeBytes n off v s).mem.lookup a = s.mem.lookup a) := by
  induction n generalizing off v s with
  | zero => exact ⟨fun k hk => absurd hk (by omega), fun _ _ => rfl⟩
  | succ n ih =>
    obtain ⟨i1, i2⟩ := ih (off + 1) (v >>> 8) (s.writeByte off (v.extractLsb' 0 8)) (by omega) (by omega)
    refine ⟨fun k hk => ?_, fun a ha => ?_⟩
    · cases k with
      | zero =>
        show (State.writeBytes n (off + 1) (v >>> 8) (s.writeByte off (v.extractLsb' 0 8))).mem.lookup _ = _
        rw [i2 _ (by omega)]
        simp [storeByte, isBufferByte_of_range h1 (show off < 0x3000 by omega), Memory.lookup_insert_self]
      | succ k =>
        show (State.writeBytes n (off + 1) (v >>> 8) (s.writeByte off (v.extractLsb' 0 8))).mem.lookup _ = _
        rw [show off + (k + 1) = off + 1 + k by omega, i1 k (by omega)]
        congr 1
        apply BitVec.eq_of_getLsbD_eq
        intro i hi
        simp [hi, show 8 + (8 * k + i) = 8 * (k + 1) + i by omega]
    · show (State.writeBytes n (off + 1) (v >>> 8) (s.writeByte off (v.extractLsb' 0 8))).mem.lookup _ = _
      rw [i2 _ (by omega)]
      simp only [State.writeByte]
      exact lookup_storeByte_ne (by omega) _

/-! ### The bytes a buffer read assembles -/

/-- A byte below the bytes read so far, as `readBytes` and `drawBytes` join them: it is the lowest byte, the others
move up by one, and nothing stands above them (R64, R99). -/
theorem joinByte_spec {n : Nat} {v : Word} (b : Byte) (hn : n + 1 ≤ 4) (hv : v.toNat < 2 ^ (8 * n)) :
    ((v <<< 8) ||| b.zeroExtend 32 : Word).toNat < 2 ^ (8 * (n + 1)) ∧
    ((v <<< 8) ||| b.zeroExtend 32 : Word).extractLsb' 0 8 = b ∧
    ∀ k, k < n → ((v <<< 8) ||| b.zeroExtend 32 : Word).extractLsb' (8 * (k + 1)) 8 = v.extractLsb' (8 * k) 8 := by
  refine ⟨?_, ?_, fun k hk => ?_⟩
  · rw [BitVec.toNat_or]
    refine Nat.or_lt_two_pow ?_ ?_
    · rw [BitVec.toNat_shiftLeft, Nat.shiftLeft_eq]
      refine lt_of_le_of_lt (Nat.mod_le _ _) ?_
      rw [show 8 * (n + 1) = 8 * n + 8 by omega, Nat.pow_add]
      exact Nat.mul_lt_mul_of_pos_right hv (by norm_num)
    · have hb : b.toNat < 2 ^ 8 := b.isLt
      have he : (b.zeroExtend 32).toNat = b.toNat := by
        simp only [BitVec.truncate_eq_setWidth, BitVec.toNat_setWidth]
        omega
      rw [he]
      exact lt_of_lt_of_le hb (Nat.pow_le_pow_right (by omega) (by omega))
  · apply BitVec.eq_of_getLsbD_eq
    intro i hi
    simp [hi]
    omega
  · apply BitVec.eq_of_getLsbD_eq
    intro i hi
    have h1 : ¬ 8 * (k + 1) + i < 8 := by omega
    have h2 : 8 * (k + 1) + i < 32 := by omega
    have h3 : 8 * (k + 1) + i - 8 = 8 * k + i := by omega
    have h4 : b.getLsbD (8 * (k + 1) + i) = false := BitVec.getLsbD_of_ge _ _ (by omega)
    simp [hi, h1, h2, h3, h4]
    exact (BitVec.getLsbD_eq_getElem _).symm

/-- The first of some bytes, and the rest, take the draws all of them take. -/
theorem State.unwritten_succ (off n : Nat) (s : State) (h : isBufferByte off = true) :
    s.unwritten off (n + 1) = byteDraws off s.mem + s.unwritten (off + 1) n := by
  simp only [State.unwritten, List.range_succ_eq_map, List.countP_cons, List.countP_map, Nat.add_zero, byteDraws, h,
    Bool.true_and]
  rw [Nat.add_comm]
  congr 1
  refine congrArg (fun p => List.countP p (List.range n)) (funext fun k => ?_)
  simp only [Function.comp, Nat.succ_eq_add_one]
  rw [show off + (k + 1) = off + 1 + k by omega]

/-- What reading buffer bytes answers (R64, R67): each written byte as written, each unwritten one the next draw, in
their places, and as many draws as bytes are unwritten. -/
theorem State.readBytes_spec (n off : Nat) (s : State) (hn : n ≤ 4) (h1 : 0x1000 ≤ off) (h2 : off + n ≤ 0x3000) :
    (State.readBytes n off s).2 = { s with draws := s.draws + s.unwritten off n } ∧
    (State.readBytes n off s).1.toNat < 2 ^ (8 * n) ∧
    ∀ k, k < n → (State.readBytes n off s).1.extractLsb' (8 * k) 8 =
      (s.mem.lookup (off + k)).getD (Config.freeByte (s.draws + s.unwritten off k)) := by
  induction n generalizing off s with
  | zero => exact ⟨rfl, by simp [State.readBytes], fun k hk => absurd hk (by omega)⟩
  | succ n ih =>
    obtain ⟨i1, i2, i3⟩ := ih (off + 1) (s.readByte off).2 (by omega) (by omega) (by omega)
    obtain ⟨j1, j2, j3⟩ := joinByte_spec (s.readByte off).1 hn i2
    have hb : isBufferByte off = true := isBufferByte_of_range h1 (by omega)
    have hu : ∀ m, (s.readByte off).2.unwritten (off + 1) m = s.unwritten (off + 1) m := fun _ => rfl
    refine ⟨?_, j1, fun k hk => ?_⟩
    · show (State.readBytes n (off + 1) (s.readByte off).2).2 = _
      rw [i1, hu, s.unwritten_succ off n hb]
      simp [State.readByte, Nat.add_assoc]
    · cases k with
      | zero => exact j2.trans (by simp [State.readByte, byteAt, hb, State.unwritten])
      | succ k =>
        refine (j3 k (by omega)).trans ((i3 k (by omega)).trans ?_)
        rw [hu, s.unwritten_succ off k hb, show off + (k + 1) = off + 1 + k by omega]
        simp [State.readByte, Nat.add_assoc]

/-- What reading bytes of DATA_OUT while busy answers (R70 c): a draw for each byte. -/
theorem State.drawBytes_spec (n off : Nat) (s : State) (hn : n ≤ 4) (h1 : 0x1000 ≤ off) (h2 : off + n ≤ 0x3000) :
    (State.drawBytes n off s).2 = { s with draws := s.draws + n } ∧
    (State.drawBytes n off s).1.toNat < 2 ^ (8 * n) ∧
    ∀ k, k < n → (State.drawBytes n off s).1.extractLsb' (8 * k) 8 = Config.freeByte (s.draws + k) := by
  induction n generalizing off s with
  | zero => exact ⟨rfl, by simp [State.drawBytes], fun k hk => absurd hk (by omega)⟩
  | succ n ih =>
    obtain ⟨i1, i2, i3⟩ := ih (off + 1) s.drawByte.2 (by omega) (by omega) (by omega)
    obtain ⟨j1, j2, j3⟩ := joinByte_spec s.drawByte.1 hn i2
    have hb : isBufferByte off = true := isBufferByte_of_range h1 (by omega)
    simp only [State.drawBytes, hb, if_true]
    refine ⟨?_, j1, fun k hk => ?_⟩
    · rw [i1]
      simp [State.drawByte, Nat.add_comm, Nat.add_left_comm]
    · cases k with
      | zero => exact j2
      | succ k =>
        refine (j3 k (by omega)).trans ((i3 k (by omega)).trans ?_)
        simp [State.drawByte, Nat.add_comm, Nat.add_left_comm]

/-- An aligned read of DATA_IN reads its bytes, busy or idle (R70 b). -/
theorem State.serveRead_dataIn {off : Nat} {w : BusWidth} (s : State) (h1 : 0x1000 ≤ off) (h2 : off < 0x2000)
    (h4 : off % w.bytes = 0) :
    s.serveRead off w = (.data (State.readBytes w.bytes off s).1, (State.readBytes w.bytes off s).2) := by
  have hr : regionOf off = .dataIn := by simp [regionOf, show ¬ off < 0x1000 by omega, h2]
  have hk : accessOk off w = true := by simp [accessOk, hr, widthAllowed, h4]
  simp [State.serveRead, hk, hr]

/-- An aligned read of DATA_OUT while busy draws its bytes (R70 c). -/
theorem State.serveRead_dataOut_busy {off : Nat} {w : BusWidth} (s : State) (h1 : 0x2000 ≤ off) (h2 : off < 0x3000)
    (h4 : off % w.bytes = 0) (hb : s.busy = true) :
    s.serveRead off w = (.data (State.drawBytes w.bytes off s).1, (State.drawBytes w.bytes off s).2) := by
  have hr : regionOf off = .dataOut := by
    simp [regionOf, show ¬ off < 0x1000 by omega, show ¬ off < 0x2000 by omega, h2]
  have hk : accessOk off w = true := by simp [accessOk, hr, widthAllowed, h4]
  simp [State.serveRead, hk, hr, hb]

/-- Which accesses are served: the aligned ones of a width their region takes (R61, R62). -/
theorem accessOk_iff {off : Nat} {w : BusWidth} :
    accessOk off w = true ↔ off % w.bytes = 0 ∧ (w = .word ∨ (0x1000 ≤ off ∧ off < 0x3000)) := by
  by_cases h : off % w.bytes = 0
  · by_cases hb : 0x1000 ≤ off ∧ off < 0x3000
    · rcases regionOf_buffer hb.1 hb.2 with hr | hr <;> simp [accessOk, hr, widthAllowed, h, hb]
    · by_cases hw : w = .word
      · subst hw
        have h' : off % 4 = 0 := h
        simp only [accessOk, h, decide_true, Bool.true_and, true_or, and_self, iff_true]
        cases regionOf off <;> rfl
      · have := accessOk_eq_false (off := off) (w := w) (.inr ⟨by omega, hw⟩)
        simp [this, hw, hb]
  · have := accessOk_eq_false (off := off) (w := w) (.inl h)
    simp [this, h]

/-- An aligned access never leaves its buffer (R62). -/
theorem BusWidth.end_le {off lim : Nat} {w : BusWidth} (h : off < lim) (hl : lim % 4 = 0) (ha : off % w.bytes = 0) :
    off + w.bytes ≤ lim := by
  cases w <;> simp only [BusWidth.bytes] at * <;> omega

theorem BusWidth.bytes_le (w : BusWidth) : w.bytes ≤ 4 := by cases w <;> decide

end Sys2Proof.Machine
end

