-- ==== Sys2Proof/Laws/Driver.lean ====
section
/-! SUPPORT. The driver's shared operations: writing a keystream over the input, and the driver procedure. -/

namespace Sys2Proof.Machine

open Sys2Proof

/-- Bytes outside OUT[i..i+n−1] are unchanged (R68, R200). -/
theorem xorBytes_lookup_ne (ks : List Byte) (i : Nat) (m : Memory) (d : Nat) {a : Nat}
    (ha : ∀ j, j < ks.length → a ≠ outOff (i + j)) : (xorBytes ks i m d).1.lookup a = m.lookup a := by
  induction ks generalizing i m d with
  | nil => rfl
  | cons k ks ih =>
    simp only [List.length_cons] at ha
    rw [xorBytes, ih (i + 1)]
    · exact lookup_storeByte_ne (by simpa using ha 0 (by omega)) _
    · intro j hj
      have := ha (j + 1) (by omega)
      rwa [show i + 1 + j = i + (j + 1) by omega]

/-- Each OUT byte is the input byte xored with its keystream byte: the written input byte where there is one
(R68, R192). -/
theorem xorBytes_lookup_out (ks : List Byte) (i : Nat) (m : Memory) (d : Nat) (h : i + ks.length ≤ maxLen)
    {j : Nat} (hj : j < ks.length) :
    ∃ b, (xorBytes ks i m d).1.lookup (outOff (i + j)) = some (b ^^^ ks[j]) ∧
      ∀ b', m.lookup (inOff (i + j)) = some b' → b = b' := by
  induction ks generalizing i m d j with
  | nil => simp at hj
  | cons k ks ih =>
    simp only [List.length_cons] at h hj
    have hst : ∀ b : Byte, storeByte (outOff i) b m = m.insert (outOff i) b := fun b =>
      storeByte_of_buffer (isBufferByte_outOff (by omega)) b m
    rw [xorBytes, hst]
    cases j with
    | zero =>
      refine ⟨byteAt (inOff i) m d, ?_, fun b' hb' => ?_⟩
      · rw [xorBytes_lookup_ne]
        · simp [Memory.lookup_insert_self]
        · intro j _
          simp only [ne_eq, outOff_inj]
          omega
      · exact (byteAt_of_written (isBufferByte_inOff (by omega)) (by simpa using hb') d).1
    | succ j =>
      obtain ⟨b, hb, hin⟩ := ih (i + 1) (m.insert (outOff i) (byteAt (inOff i) m d ^^^ k))
        (d + byteDraws (inOff i) m) (by omega) (j := j) (by omega)
      rw [show i + 1 + j = i + (j + 1) by omega] at hb hin
      refine ⟨b, by simpa using hb, fun b' hb' => hin b' ?_⟩
      rw [Memory.lookup_insert_ne _ _ (inOff_ne_outOff (by omega))]
      exact hb'

/-- The output loop keeps the memory in its form and inside the buffers. -/
theorem xorBytes_wf (ks : List Byte) (i : Nat) (m : Memory) (d : Nat) (hw : m.wf) (hb : m.inBuffers = true) :
    (xorBytes ks i m d).1.wf ∧ (xorBytes ks i m d).1.inBuffers = true := by
  induction ks generalizing i m d with
  | nil => exact ⟨hw, hb⟩
  | cons k ks ih => exact ih (i + 1) _ _ (wf_storeByte hw _ _) (inBuffers_storeByte hb _ _)

/-- An output loop over written input bytes draws nothing. -/
theorem xorBytes_draws (ks : List Byte) (i : Nat) (m : Memory) (d : Nat) (h : i + ks.length ≤ maxLen)
    (hin : ∀ j, j < ks.length → m.lookup (inOff (i + j)) ≠ none) : (xorBytes ks i m d).2 = d := by
  induction ks generalizing i m d with
  | nil => rfl
  | cons k ks ih =>
    simp only [List.length_cons] at h hin
    obtain ⟨b, hb⟩ := Option.ne_none_iff_exists'.1 (hin 0 (by omega))
    have h0 := (byteAt_of_written (isBufferByte_inOff (i := i) (by omega)) (by simpa using hb) d).2
    rw [xorBytes, h0]
    refine ih (i + 1) _ _ (by omega) fun j hj => ?_
    rw [lookup_storeByte_ne (inOff_ne_outOff (by omega)), show i + 1 + j = i + (j + 1) by omega]
    exact hin (j + 1) (by omega)

/-! ### The keystream -/

theorem keystream_length {n i : Nat} {c c' : Chaos} {ks : List Byte} (h : keystream n i c = some (ks, c')) :
    ks.length = n := by
  induction n generalizing i c c' ks with
  | zero => simp only [keystream, Option.some.injEq, Prod.mk.injEq] at h; simp [← h.1]
  | succ n ih =>
    simp only [keystream] at h
    split at h
    · cases h
    · split at h
      · cases h
      · next hk =>
        simp only [Option.some.injEq, Prod.mk.injEq] at h
        simp [← h.1, ih hk]

/-- A keystream exists exactly where no extraction raises NUMERIC (R197). -/
theorem keystream_eq_none_iff {n i : Nat} {c : Chaos} :
    keystream n i c = none ↔ ∃ j, j < n ∧ kbyteF (stepN (j + 1) c) (BitVec.ofNat 32 (i + j)) = none := by
  induction n generalizing i c with
  | zero => simp [keystream]
  | succ n ih =>
    have hs : (∃ j, j < n + 1 ∧ kbyteF (stepN (j + 1) c) (BitVec.ofNat 32 (i + j)) = none) ↔
        (kbyteF (stepF c) (BitVec.ofNat 32 i) = none ∨
          ∃ j, j < n ∧ kbyteF (stepN (j + 1) (stepF c)) (BitVec.ofNat 32 (i + 1 + j)) = none) := by
      constructor
      · rintro ⟨j, hj, h⟩
        cases j with
        | zero => exact .inl (by simpa [stepN] using h)
        | succ j => exact .inr ⟨j, by omega, by rwa [show i + 1 + j = i + (j + 1) by omega]⟩
      · rintro (h | ⟨j, hj, h⟩)
        · exact ⟨0, by omega, by simpa [stepN] using h⟩
        · exact ⟨j + 1, by omega, by rwa [show i + (j + 1) = i + 1 + j by omega]⟩
    rw [hs, ← ih]
    simp only [keystream]
    cases kbyteF (stepF c) (BitVec.ofNat 32 i) with
    | none => simp
    | some k => cases keystream n (i + 1) (stepF c) <;> simp

/-- Each keystream byte is extracted from the state after one step more than the byte's index, and the last state
is the one after as many steps as bytes (R192, R193). -/
theorem keystream_eq_some {n i : Nat} {c c' : Chaos} {ks : List Byte} (h : keystream n i c = some (ks, c')) :
    c' = stepN n c ∧ ∀ j (hj : j < ks.length), kbyteF (stepN (j + 1) c) (BitVec.ofNat 32 (i + j)) = some ks[j] := by
  induction n generalizing i c ks with
  | zero =>
    simp only [keystream, Option.some.injEq, Prod.mk.injEq] at h
    obtain ⟨rfl, rfl⟩ := h
    exact ⟨rfl, fun j hj => absurd hj (by simp)⟩
  | succ n ih =>
    simp only [keystream] at h
    split at h
    · cases h
    · next k hk =>
      split at h
      · cases h
      · next ks' c'' hks =>
        simp only [Option.some.injEq, Prod.mk.injEq] at h
        obtain ⟨rfl, rfl⟩ := h
        obtain ⟨hc, hj'⟩ := ih hks
        refine ⟨hc, fun j hj => ?_⟩
        cases j with
        | zero => simpa [stepN] using hk
        | succ j =>
          have := hj' j (by simpa using hj)
          rw [show i + 1 + j = i + (j + 1) by omega] at this
          show kbyteF (stepN (j + 1) (stepF c)) _ = _
          simpa using this

theorem stepN_succ (n : Nat) (c : Chaos) : stepN (n + 1) c = stepF (stepN n c) := by
  induction n generalizing c with
  | zero => rfl
  | succ n ih => exact ih (stepF c)

theorem stepN_add (m n : Nat) (c : Chaos) : stepN (m + n) c = stepN n (stepN m c) := by
  induction n with
  | zero => rfl
  | succ n ih => rw [← Nat.add_assoc, stepN_succ, ih, stepN_succ]

/-- A state that a step leaves alone is left alone by any number of steps. -/
theorem stepN_of_fixed {c : Chaos} (h : stepF c = c) (n : Nat) : stepN n c = c := by
  induction n with
  | zero => rfl
  | succ n ih => rw [stepN_succ, ih, h]

/-- A state that is left alone after one step is what any number of steps from there leaves. -/
theorem stepN_succ_of_fixed {c d : Chaos} (h : stepF c = d) (hd : stepF d = d) (n : Nat) : stepN (n + 1) c = d := by
  show stepN n (stepF c) = d
  rw [h, stepN_of_fixed hd]

theorem wf_stepF (c : Chaos) : (stepF c).wf = true := by
  simp [Chaos.wf, stepF, F64.wf_fadd]

/-! ### The driver procedure -/

/-- What ENCRYPT and DECRYPT can do (R194, R195, R197): refuse the length, fail with NUMERIC, or write the
output, the final state and the success status. -/
theorem State.drive_cases (s : State) :
    (∃ e, s.lengthError = some e ∧ s.drive = s.complete e) ∨
    (s.lengthError = none ∧ s.driven s.lenValue.toNat = none ∧ s.drive = s.complete .numeric) ∨
    (∃ ks c, s.lengthError = none ∧ s.driven s.lenValue.toNat = some (ks, c) ∧
      s.drive = ((s.xorOut ks).writeChaos c).complete .noError) := by
  unfold State.drive
  cases hl : s.lengthError with
  | some e => exact .inl ⟨e, rfl, rfl⟩
  | none =>
    cases hd : s.driven s.lenValue.toNat with
    | none => exact .inr (.inl ⟨rfl, rfl, rfl⟩)
    | some p => exact .inr (.inr ⟨p.1, p.2, rfl, rfl, rfl⟩)

/-- A driver whose length is accepted and whose keystream exists succeeds with that keystream (R193, R195). -/
theorem State.drive_of_driven {s : State} {ks : List Byte} {c : Chaos} (hl : s.lengthError = none)
    (hd : s.driven s.lenValue.toNat = some (ks, c)) :
    s.drive = ((s.xorOut ks).writeChaos c).complete .noError := by
  unfold State.drive
  rw [hl, hd]

end Sys2Proof.Machine
end

