-- ==== Sys2Proof/Laws/PerInstr.lean ====
section
/-! SUPPORT. Facts about every command as syntax, one lemma for each constructor of `Instr`. -/

namespace Sys2Proof.Laws

/-- The command is well formed, its word decodes to it, and so do its four bytes, whatever follows them
(R90–R92). -/
def RoundTrip.Statement (i : Sys2Proof.Instr) : Prop :=
  i.wf = true ∧ Sys2Proof.decodeWord (Sys2Proof.encode i) = .ok i ∧
    ∀ rest, Sys2Proof.decode (Sys2Proof.encodeBytes i ++ rest) = .ok (i, rest)

theorem RoundTrip.mix : RoundTrip.Statement .mix := ⟨by decide, by decide, fun _ => rfl⟩
theorem RoundTrip.step : RoundTrip.Statement .step := ⟨by decide, by decide, fun _ => rfl⟩
theorem RoundTrip.extract : RoundTrip.Statement .extract := ⟨by decide, by decide, fun _ => rfl⟩
theorem RoundTrip.encrypt : RoundTrip.Statement .encrypt := ⟨by decide, by decide, fun _ => rfl⟩
theorem RoundTrip.decrypt : RoundTrip.Statement .decrypt := ⟨by decide, by decide, fun _ => rfl⟩

end Sys2Proof.Laws
end

