-- ==== Sys2Proof/Laws/Step.lean ====
section
/-! SUPPORT. What one step can do, said once: the cases every invariant is proved from. -/

namespace Sys2Proof.Machine

open Sys2Proof

theorem exec_encrypt (s : State) : exec .encrypt s = .next s.drive := rfl
theorem exec_decrypt (s : State) : exec .decrypt s = .next s.drive := rfl

/-- What each command answers: always a next state. -/
theorem exec_cases (i : Instr) (s : State) :
    (i = .mix ∧ exec i s = .next ((s.writeChaos s.mixed).complete .noError)) ∨
    (i = .step ∧ exec i s = .next ((s.writeChaos (stepF s.chaos)).complete .noError)) ∨
    (i = .extract ∧ ∃ b, kbyteF s.chaos s.ctr = some b ∧ exec i s = .next ((s.writeKb b).complete .noError)) ∨
    (i = .extract ∧ kbyteF s.chaos s.ctr = none ∧ exec i s = .next (s.complete .numeric)) ∨
    ((i = .encrypt ∨ i = .decrypt) ∧ exec i s = .next s.drive) := by
  cases i with
  | mix => exact .inl ⟨rfl, rfl⟩
  | step => exact .inr (.inl ⟨rfl, rfl⟩)
  | extract =>
    cases h : kbyteF s.chaos s.ctr with
    | none => exact .inr (.inr (.inr (.inl ⟨rfl, rfl, by simp [exec, execExtract, h]⟩)))
    | some b => exact .inr (.inr (.inl ⟨rfl, b, rfl, by simp [exec, execExtract, h]⟩))
  | encrypt => exact .inr (.inr (.inr (.inr ⟨.inl rfl, rfl⟩)))
  | decrypt => exact .inr (.inr (.inr (.inr ⟨.inr rfl, rfl⟩)))

/-- What the engine's turn can do (R190): nothing while idle, the pending command, or the rejection of a pending
word that is none. -/
theorem engineTurn_cases (s : State) :
    (s.phase = .idle ∧ engineTurn s = .next s) ∨
    (∃ w i, s.phase = .busy w ∧ decodeWord w = .ok i ∧ engineTurn s = exec i s) ∨
    (∃ w e, s.phase = .busy w ∧ decodeWord w = .error e ∧ engineTurn s = .next (s.complete .illegalCommand)) := by
  cases hp : s.phase with
  | idle => exact .inl ⟨rfl, by simp [engineTurn, State.fetch, hp]⟩
  | busy w =>
    cases hd : decodeWord w with
    | ok i => exact .inr (.inl ⟨w, i, rfl, hd, by simp [engineTurn, State.fetch, hp, hd]⟩)
    | error e => exact .inr (.inr ⟨w, e, rfl, hd, by simp [engineTurn, State.fetch, hp, hd]⟩)

/-- What a host read can do: an answer and perhaps some draws, or the fault of an access outside the window. -/
theorem hostRead_cases (addr : Nat) (w : BusWidth) (s : State) :
    (∃ off r d, busOffset s.cfg addr = some off ∧ (s.serveRead off w).1 = r ∧
      hostRead addr w s = .next (State.respond r { s with draws := s.draws + d })) ∨
    (busOffset s.cfg addr = none ∧ hostRead addr w s = .fault (.outsideWindow addr)) := by
  cases h : busOffset s.cfg addr with
  | none => exact .inr ⟨rfl, by simp [hostRead, h]⟩
  | some off =>
    obtain ⟨d, hd⟩ := s.serveRead_state off w
    refine .inl ⟨off, _, d, rfl, rfl, ?_⟩
    simp [hostRead, h, hd]

/-- What a host write can do: an answer and what `serveWrite_cases` lists, or the fault of an access outside the
window. -/
theorem hostWrite_cases (addr : Nat) (w : BusWidth) (v : Word) (s : State) :
    (∃ off, busOffset s.cfg addr = some off ∧
      hostWrite addr w v s = .next (State.respond (s.serveWrite off w v).1 (s.serveWrite off w v).2)) ∨
    (busOffset s.cfg addr = none ∧ hostWrite addr w v s = .fault (.outsideWindow addr)) := by
  cases h : busOffset s.cfg addr with
  | none => exact .inr ⟨rfl, by simp [hostWrite, h]⟩
  | some off => exact .inl ⟨off, rfl, by simp [hostWrite, h]⟩

/-- What a step is, by the event at the head of the agenda (R71, R190, R250). -/
theorem step_cases (s : State) :
    (s.agenda = [] ∧ step s = engineTurn s) ∨
    (∃ es, s.agenda = .engine :: es ∧ step s = engineTurn { s with agenda := es }) ∨
    (∃ es, s.agenda = .reset :: es ∧ step s = .next (State.resetInput { s with agenda := es })) ∨
    (∃ a w es, s.agenda = .read a w :: es ∧ step s = hostRead a w { s with agenda := es }) ∨
    (∃ a w v es, s.agenda = .write a w v :: es ∧ step s = hostWrite a w v { s with agenda := es }) := by
  cases h : s.agenda with
  | nil => exact .inl ⟨rfl, by simp [step, h]⟩
  | cons e es =>
    cases e with
    | engine => exact .inr (.inl ⟨es, rfl, by simp [step, h]⟩)
    | reset => exact .inr (.inr (.inl ⟨es, rfl, by simp [step, h]⟩))
    | read a w => exact .inr (.inr (.inr (.inl ⟨a, w, es, rfl, by simp [step, h]⟩)))
    | write a w v => exact .inr (.inr (.inr (.inr ⟨a, w, v, es, rfl, by simp [step, h]⟩)))

/-- A run of k + 1 steps whose first step answers `next t` is a run of k steps from t. -/
theorem run_succ_of_next {k : Nat} {s t : State} (h : step s = .next t) :
    Sys2Proof.core.run (k + 1) s = Sys2Proof.core.run k t := by
  have : Sys2Proof.core.step s = .next t := h
  simp only [Host.Core.run, this]

/-- A read event inside the window is served (R60, R99). -/
theorem step_read {s : State} {off : Nat} {w : BusWidth} {es : List Event} (h : off < 0x4000)
    (ha : s.agenda = .read (engineBase s.cfg + off) w :: es) :
    step s = .next (State.respond (State.serveRead off w { s with agenda := es }).1
      (State.serveRead off w { s with agenda := es }).2) := by
  simp [step, ha, hostRead, busOffset_base_add s.cfg h]

/-- A write event inside the window is served (R60, R99). -/
theorem step_write {s : State} {off : Nat} {w : BusWidth} {v : Word} {es : List Event} (h : off < 0x4000)
    (ha : s.agenda = .write (engineBase s.cfg + off) w v :: es) :
    step s = .next (State.respond (State.serveWrite off w v { s with agenda := es }).1
      (State.serveWrite off w v { s with agenda := es }).2) := by
  simp [step, ha, hostWrite, busOffset_base_add s.cfg h]

/-- A word read of a register (R63). -/
theorem step_read_register {s : State} {r : Reg} {off : Nat} {es : List Event} (h : Reg.ofOffset off = some r)
    (ha : s.agenda = .read (engineBase s.cfg + off) .word :: es) :
    step s = .next (State.respond (.data (State.readOffset off { s with agenda := es }).1)
      (State.readOffset off { s with agenda := es }).2) := by
  have ho := Reg.ofOffset_some h
  have hr : regionOf off = .registers := by simp [regionOf, show off < 0x1000 by omega]
  have hk : accessOk off .word = true := accessOk_word (by omega) (by simp [hr, widthAllowed])
  rw [step_read (by omega) ha]
  simp [State.serveRead, hk, hr]

/-- A word write of a register while idle (R63). -/
theorem step_write_register {s : State} {r : Reg} {off : Nat} {v : Word} {es : List Event}
    (h : Reg.ofOffset off = some r) (hb : s.busy = false)
    (ha : s.agenda = .write (engineBase s.cfg + off) .word v :: es) :
    step s = .next (State.respond .ok (State.writeOffset off v { s with agenda := es })) := by
  have ho := Reg.ofOffset_some h
  have hr : regionOf off = .registers := by simp [regionOf, show off < 0x1000 by omega]
  have hk : accessOk off .word = true := accessOk_word (by omega) (by simp [hr, widthAllowed])
  have hb' : State.busy { s with agenda := es } = false := hb
  rw [step_write (by omega) ha]
  simp [State.serveWrite, hk, hr, hb']

end Sys2Proof.Machine
end

