-- ==== Sys2Proof/Tests/Slice0.lean ====
section
/-! SUPPORT. The model's own tests: ill-formed terms that WellFormed refuses, command words written out from R92,
vectors of the spec's 95_test_vectors.md, and for each statement with hypotheses a witness that meets them. -/

namespace Sys2Proof.Tests

open Sys2Proof Sys2Proof.Machine

/-! ### States of the tests -/

/-- A block under the test profile TP (R121), with its window at 0x4000. -/
def tp : BlockConfig := ⟨testProfile, 1⟩

/-- The reset state of that block. -/
def base : State := { State.reset with cfg := tp }

/-- The state with a triple in X, Y and Z, by encodings. -/
def withXYZ (x y z : DWord) (s : State) : State :=
  { s with
    xLo := lowHalf x, xHi := highHalf x, yLo := lowHalf y, yHi := highHalf y, zLo := lowHalf z, zHi := highHalf z }

/-- What a command leaves. Every command answers a next state, so the alternatives never arise. -/
def after (i : Instr) (s : State) : State :=
  match exec i s with
  | .next t => t
  | .fault _ => s
  | .refused _ => s

/-- What a run leaves. -/
def ran (k : Nat) (s : State) : State :=
  match Sys2Proof.core.run k s with
  | .next t => t
  | .fault _ => s
  | .refused _ => s

/-! ### WellFormed refuses each ill-formed term -/

theorem test_wf_refuses_reserved_bits : (CmdWord.mk 1 1).rsvZero = false ∧ (CmdWord.mk 1 1).wf = false := by decide
theorem test_wf_refuses_op_zero : (CmdWord.mk 0 0).opAssigned = false ∧ (CmdWord.mk 0 0).wf = false := by decide
theorem test_wf_refuses_op_six : (CmdWord.mk 0 6).opAssigned = false ∧ (CmdWord.mk 0 6).wf = false := by decide
theorem test_wf_accepts_test_profile : testProfile.wf = true := by decide
theorem test_wf_refuses_equal_krot : { testProfile with krot := ⟨7, 7, 37⟩ }.krotOk = false := by decide
theorem test_wf_refuses_krot_sixty_four : { testProfile with krot := ⟨7, 19, 64⟩ }.krotOk = false := by decide
theorem test_wf_refuses_krot_zero : { testProfile with krot := ⟨0, 19, 37⟩ }.krotOk = false := by decide
theorem test_wf_refuses_even_kmul : { testProfile with kmul := ⟨2, 3, 5⟩ }.kmulOk = false := by decide
theorem test_wf_refuses_equal_kmul : { testProfile with kmul := ⟨3, 5, 3⟩ }.kmulOk = false := by decide
theorem test_wf_refuses_even_fx : { testProfile with fx := ⟨1, 1, 4⟩ }.fxOk = false := by decide
theorem test_wf_refuses_nsh_fifty_seven :
    { testProfile with nsh := testProfile.nsh.set 3 57 }.nshOk = false := by decide
theorem test_wf_refuses_nrot_zero : { testProfile with nrot := 0 }.nrotOk = false := by decide
theorem test_wf_refuses_zero_fb : { testProfile with fb := ⟨1, 0, 1⟩ }.fbOk = false := by decide
theorem test_wf_refuses_fb_one : { testProfile with fb := ⟨0x3FF0000000000000, 1, 1⟩ }.fbOk = false := by decide
theorem test_wf_refuses_negative_fb : { testProfile with fb := ⟨1, 1, 0xBFB999999999999A⟩ }.fbOk = false := by decide

/-! ### Command words, written out bit by bit from R90 and R92 -/

theorem test_decode_mix :
    decodeWord 0b0000_0000_0000_0000_0000_0000_0000_0001 = .ok .mix ∧ decodeTableWord 32 1 = some .mix := by decide
theorem test_decode_step :
    decodeWord 0b0000_0000_0000_0000_0000_0000_0000_0010 = .ok .step ∧ decodeTableWord 32 2 = some .step := by decide
theorem test_decode_extract :
    decodeWord 0b0000_0000_0000_0000_0000_0000_0000_0011 = .ok .extract ∧ decodeTableWord 32 3 = some .extract := by
  decide
theorem test_decode_encrypt :
    decodeWord 0b0000_0000_0000_0000_0000_0000_0000_0100 = .ok .encrypt ∧ decodeTableWord 32 4 = some .encrypt := by
  decide
theorem test_decode_decrypt :
    decodeWord 0b0000_0000_0000_0000_0000_0000_0000_0101 = .ok .decrypt ∧ decodeTableWord 32 5 = some .decrypt := by
  decide
/-- V-ERR-1, 2, 3, 4, 5: illegal words. -/
theorem test_decode_rejects :
    decodeWord 0x00000000 = .error (.reservedOp 0) ∧ decodeWord 0x00000006 = .error (.reservedOp 6) ∧
    decodeWord 0x0000000F = .error (.reservedOp 15) ∧ decodeWord 0x00000011 = .error (.reservedBits 1) ∧
    decodeWord 0x80000004 = .error (.reservedBits 0x8000000) ∧ decodeTableWord 32 0x11 = none ∧
    decode [4, 0, 0] = .error (.shortWord 3) := by decide

/-! ### Vectors of 95_test_vectors.md -/

/-- V-CONV-1 to 8: a lane as a coordinate, before the fallback. -/
theorem test_conversion :
    (laneCoord 0).toBits = some 0 ∧ (laneCoord 1).toBits = some 0x3BF0000000000000 ∧
    (laneCoord 0x8000000000000000).toBits = some 0x3FE0000000000000 ∧
    (laneCoord 0xFFFFFFFFFFFFFC00).toBits = some 0 ∧ (laneCoord 0xFFFFFFFFFFFFFFFF).toBits = some 0 ∧
    (laneCoord 0xFFFFFFFFFFFFFBFF).toBits = some 0x3FEFFFFFFFFFFFFF ∧
    (laneCoord 0xFFFFFFFFFFFFF800).toBits = some 0x3FEFFFFFFFFFFFFF ∧
    (laneCoord 0xD6E8FEB86659FD93).toBits = some 0x3FEADD1FD70CCB40 := by decide +kernel

/-- V-MIX-2: the lanes before and after whitening. -/
theorem test_mix_lanes :
    crossMix (nonceLanes testProfile (fun _ => 0x99) (keyLanes testProfile fun _ => 0x42)) =
      ⟨0x23058AE67B648669, 0x6E17250C6D2764F2, 0xF4C7FAFE84E2D413⟩ ∧
    mixLanes testProfile (fun _ => 0x42) (fun _ => 0x99) =
      ⟨0xF5ED745E1D3D7BFA, 0xCE613868159A00DD, 0x13C4842F2456FCC8⟩ := by decide +kernel

/-- V-MIX-3: key byte j is j and nonce byte j is j, loaded into the registers little-endian. -/
theorem test_mix_command :
    (after .mix { base with
      key := ⟨#[0x03020100, 0x07060504, 0x0B0A0908, 0x0F0E0D0C, 0x13121110, 0x17161514, 0x1B1A1918, 0x1F1E1D1C], rfl⟩
      nonce := ⟨#[0x03020100, 0x07060504, 0x0B0A0908], rfl⟩ }).xBits = 0x3FE5A6D8B08E880A := by decide +kernel

/-- V-STEP-1: (1, 1, 1) steps to (1, 1.26, 0.98333…), and STATUS reads success. -/
theorem test_step_command :
    let t := after .step (withXYZ 0x3FF0000000000000 0x3FF0000000000000 0x3FF0000000000000 base)
    t.xBits = 0x3FF0000000000000 ∧ t.yBits = 0x3FF428F5C28F5C29 ∧ t.zBits = 0x3FEF777777777777 ∧
      t.statusWord = 0x00000002 := by decide +kernel

/-- V-STEP-3, 9, 10: signed zeros, an infinity, and overflow. -/
theorem test_step_special :
    stepF ⟨.fin true 0, .fin true 0, .fin true 0⟩ = ⟨.fin false 0, .fin false 0, .fin false 0⟩ ∧
    stepF ⟨.inf false, fOne, fOne⟩ = ⟨.nan, .inf false, .inf false⟩ ∧
    stepF ⟨F64.ofBits 0x6974E718D7D7625A, F64.ofBits 0x6974E718D7D7625A, F64.ofBits 0x6974E718D7D7625A⟩ =
      ⟨F64.ofBits 0x6974E718D7D7625A, .inf true, .inf false⟩ := by decide +kernel

/-- V-STEP-8, and log entry 16: with a NaN in z alone x' is what x and y make it, which can overflow. -/
theorem test_step_nan_in_z :
    stepF ⟨fOne, fOne, .nan⟩ = ⟨fOne, .nan, .nan⟩ ∧
    (stepF ⟨F64.ofBits 0xFFEFFFFFFFFFFFFF, F64.ofBits 0x7FEFFFFFFFFFFFFF, .nan⟩).x = .inf false := by
  decide +kernel

/-- V-EXT-9 and V-EXT-20: the byte of (1, 1, 1), with CTR 0 and 4095. -/
theorem test_extract_command :
    let s := withXYZ 0x3FF0000000000000 0x3FF0000000000000 0x3FF0000000000000 base
    (after .extract s).readReg .kb = 0x00000056 ∧
      (after .extract { s with ctr := 4095 }).readReg .kb = 0x000000D0 := by decide +kernel

/-- V-EXT-7, 8, 26: the wrap of the perturbation, the greatest counter, and an overflowing sum. -/
theorem test_extract_special :
    kbyteF ⟨.fin false 0, .fin false 0, .fin false 0⟩ 10000000 = some 0x57 ∧
    kbyteF ⟨.fin false 0, .fin false 0, .fin false 0⟩ 4294967295 = some 0x08 ∧
    kbyteF ⟨F64.ofBits 0x7FE1CCF385EBC8A0, F64.ofBits 0x7FE1CCF385EBC8A0, F64.ofBits 0x7FE1CCF385EBC8A0⟩ 0 = none := by
  decide +kernel

/-- V-ERR-6, 7, 8, 9, 10: the lengths the driver refuses, for both commands. -/
theorem test_driver_lengths :
    (after .encrypt base).statusWord = 0x26 ∧ (after .decrypt { base with len := 0xFFFFFFFF }).statusWord = 0x26 ∧
    (after .encrypt { base with len := 0x80000000 }).statusWord = 0x26 ∧
    (after .encrypt { base with len := 0x1001 }).statusWord = 0x36 ∧
    (after .decrypt { base with len := 0x7FFFFFFF }).statusWord = 0x36 := by decide +kernel

/-- V-DRV-1, V-DRV-10 from V-STEP-14: the first two keystream bytes after the warmup, and V-STEP-15's x. -/
theorem test_keystream :
    ∃ ks c, keystream 2 0
        ⟨F64.ofBits 0x400762221D4CDFE5, F64.ofBits 0x40139A83BFAB9A44, F64.ofBits 0x40356B26997B2B36⟩ = some (ks, c) ∧
      ks = [0xB4, 0x97] ∧ c.x.toBits = some 0x400A8129F31E1515 := by
  have h : ((keystream 2 0
      ⟨F64.ofBits 0x400762221D4CDFE5, F64.ofBits 0x40139A83BFAB9A44, F64.ofBits 0x40356B26997B2B36⟩).map
      fun p => (p.1, p.2.x.toBits)) = some ([0xB4, 0x97], some 0x400A8129F31E1515) := by decide +kernel
  obtain ⟨p, hp, hq⟩ := Option.map_eq_some_iff.1 h
  simp only [Prod.mk.injEq] at hq
  exact ⟨p.1, p.2, hp, hq.1, hq.2⟩

/-- V-BUS-1, 4, 5, 6, 10, 15: reads answered newest first, misaligned and narrow accesses, ignored writes. -/
theorem test_bus_registers :
    (ran 7 { base with agenda := [rd tp 0x000, rd tp 0x004, rdb tp 0x000, rd tp 0x002,
      wr tp 0x090 0xFFFFFFFF, rd tp 0x090, wr tp 0x074 0] }).responses =
      [.ok, .data 0, .ok, .busError, .busError, .data 0, .data 0x4B414F53] := by decide +kernel

/-- V-BUS-7, 8: little-endian buffers and accesses of different widths. -/
theorem test_bus_buffers :
    (ran 5 { base with agenda := [wr tp 0x1000 0x11223344, rdb tp 0x1003, .write (0x4000 + 0x1006) .half 0xBEEF,
      .read (0x4000 + 0x1006) .half, rdb tp 0x1007] }).responses =
      [.data 0xBE, .data 0xBEEF, .ok, .data 0x11, .ok] := by decide +kernel

/-- P1 of 95_test_vectors.md: EXTRACT and STEP in the reset state, polled once while busy. -/
theorem test_program_one :
    (ran 9 { base with agenda := setctr tp 0 :: cmd tp .extract 1 ++ [check tp, getkb tp, wr tp 0x004 0x00000002,
      .engine] }).responses.head? = some .ok ∧
    (ran 7 { base with agenda := setctr tp 0 :: cmd tp .extract 1 ++ [check tp, getkb tp] }).responses =
      [.data 0x7B, .data 2, .data 2, .data 1, .ok, .ok] := by decide +kernel

/-- V-BUS-17: a write to LEN that comes while the engine is busy is ignored. -/
theorem test_busy_write_ignored :
    (ran 3 { base with agenda := [setlen tp 1, wr tp 0x004 4, setlen tp 2] }).len = 1 := by decide +kernel

/-! ### Witnesses: concrete states and operands that meet the hypotheses of each statement -/

/-- An admissible configuration in which the all-zero key and nonce take every fallback, the least subnormal, from
which STEPF does not move (V-STEP-11). It lets the driver's 5000 steps be computed by one. -/
def still : MixerParams :=
  { testProfile with
    fx := ⟨0xFFFFFFFFFFFFFFFF, 0xFFFFFFFFFFFFFFFF, 0xFFFFFFFFFFFFFFFF⟩
    fb := ⟨0x0000000000000001, 0x0000000000000001, 0x0000000000000001⟩ }

/-- The triple of that configuration. -/
def stillChaos : Chaos := ⟨.fin false 1, .fin false 1, .fin false 1⟩

/-- One input byte, LEN = 1. -/
def stillState : State := { base with cfg := ⟨still, 1⟩, len := 1, mem := [(0x1000, 0x5A)] }

/-- As `stillState`, with what its ENCRYPT makes of 0x5A, 0x5A ^ 123 = 0x21, as the input. -/
def stillBack : State := { stillState with mem := [(0x1000, 0x21)], kb := 9, ctr := 7 }

/-- No admissible configuration (R119): fallbacks of +∞, so that the mixed state has no finite combination. The
statement holds for every configuration. -/
def wild : State :=
  { stillState with
    cfg := ⟨{ still with fb := ⟨0x7FF0000000000000, 0x7FF0000000000000, 0x7FF0000000000000⟩ }, 1⟩ }

theorem still_admissible : still.wf = true := by decide

theorem stillState_mixed : stillState.mixed = stillChaos := by decide +kernel

theorem stillChaos_fixed : stepF stillChaos = stillChaos := by decide +kernel

theorem stillChaos_byte : kbyteF stillChaos 0 = some 123 := by decide +kernel

theorem stillState_positionByte : stillState.positionByte 0 = some 123 := by
  unfold State.positionByte
  rw [stillState_mixed, stepN_of_fixed stillChaos_fixed]
  exact stillChaos_byte

/-- One keystream byte from a state that STEPF leaves alone. -/
theorem keystream_one_of_fixed {c : Chaos} {k : Byte} (hs : stepF c = c) (hb : kbyteF c (BitVec.ofNat 32 0) = some k) :
    keystream 1 0 c = some ([k], c) := by
  simp only [keystream, hs, hb]

theorem stillState_driven : stillState.driven 1 = some ([123], stillChaos) := by
  unfold State.driven
  rw [stillState_mixed, stepN_of_fixed stillChaos_fixed]
  exact keystream_one_of_fixed stillChaos_fixed stillChaos_byte

/-- What ENCRYPT leaves in `stillState`. -/
def stillDone : State := ((stillState.xorOut [123]).writeChaos stillChaos).complete .noError

theorem stillState_encrypt : exec .encrypt stillState = .next stillDone := by
  have hn : stillState.lenValue.toNat = 1 := by decide
  rw [exec_encrypt, State.drive_of_driven (by decide) (hn.symm ▸ stillState_driven), stillDone]

/-- ENCRYPT of the byte 0x5A under the keystream byte 123: OUT[0] = 0x21, and STATUS reads success. -/
theorem test_encrypt_one_byte :
    stillDone.mem = [(0x1000, 0x5A), (0x2000, 0x21)] ∧ stillDone.statusWord = 0x00000002 := by decide +kernel

theorem witness_IllegalWordsRejectedByName :
    16 ≤ (0x00000010 : Word).toNat ∧ ((0x00000000 : Word).toNat < 16 ∧ (0x00000000 : Word).toNat = 0) ∧
    ((0x00000006 : Word).toNat < 16 ∧ 6 ≤ (0x00000006 : Word).toNat) ∧
    ((0x0000000F : Word).toNat < 16 ∧ 6 ≤ (0x0000000F : Word).toNat) := by decide

theorem witness_StepExecutesPendingCommand :
    (base.begin 2).phase = .busy 2 ∧ decodeWord 2 = .ok .step ∧ (base.begin 2).agenda = [] ∧
    { base.begin 2 with agenda := [.engine] }.agenda = .engine :: [] := by decide

/-- A busy state with an accepted ENCRYPT of the greatest length meets the invariant. -/
def busyEncrypt : State := { base with len := 4096 }.begin 4

theorem busyEncrypt_inv : busyEncrypt.Inv := ⟨by decide, by decide, by decide⟩

theorem base_inv : base.Inv := ⟨by decide, by decide, by decide⟩

theorem witness_EngineTurnCompletesCommand :
    (busyEncrypt.Inv ∧ busyEncrypt.phase = .busy 4 ∧ busyEncrypt.agenda = []) ∧
    { busyEncrypt with agenda := [.engine, .reset] }.Inv ∧
    { busyEncrypt with agenda := [.engine, .reset] }.agenda = .engine :: [.reset] :=
  ⟨⟨busyEncrypt_inv, rfl, rfl⟩, ⟨by decide, by decide, by decide⟩, rfl⟩

/-- Accesses at the first and at the last offset of the window, and the other events. -/
def scheduled : State :=
  { base with agenda := [wr tp 0x004 2, rd tp 0x000, .engine, .read (0x4000 + 0x3FFF) .byte, .reset] }

theorem witness_AgendaDrainsToIdle : scheduled.agendaInWindow = true := by decide
theorem witness_RunsInsideTheWindowNeverStop : scheduled.agendaInWindow = true := by decide

theorem witness_AccessOutsideWindowFaults :
    0x3FFF < engineBase tp ∧ engineBase tp + 0x4000 ≤ 0x8000 ∧
    { base with agenda := [.read 0x3FFF .byte] }.agenda = .read 0x3FFF .byte :: [] ∧
    { base with agenda := [.write 0x8000 .word 0] }.agenda = .write 0x8000 .word 0 :: [] := by decide

theorem witness_EveryStepKeepsInvariant :
    { base with agenda := [wr tp 0x1000 7] }.Inv ∧
    ∃ t, step { base with agenda := [wr tp 0x1000 7] } = .next t ∧ t.mem ≠ [] :=
  ⟨⟨by decide, by decide, by decide⟩, _, rfl, by decide⟩

theorem witness_HardwiredRegistersNeverChange :
    ∃ t, step { base with agenda := [wr tp 0x018 7] } = .next t ∧ t.agenda = [] := ⟨_, rfl, rfl⟩

theorem witness_KeyAndNonceChangeOnlyByHostOrReset :
    (∃ t, step { base with agenda := [wr tp 0x020 7] } = .next t ∧ t.key ≠ base.key) ∧
    (∃ t, step { base with agenda := [wr tp 0x048 7] } = .next t ∧ t.nonce ≠ base.nonce) ∧
    ∃ t, step { base with nonce := Vector.replicate 3 1, agenda := [.reset] } = .next t ∧
      t.nonce ≠ Vector.replicate 3 1 :=
  ⟨⟨_, rfl, by decide⟩, ⟨_, rfl, by decide⟩, ⟨_, rfl, by decide⟩⟩

theorem witness_StatusChangesOnlyByCommandOrReset :
    (∃ t, step { base with agenda := [wr tp 0x004 0] } = .next t ∧ t.statusWord ≠ base.statusWord) ∧
    (∃ t, step (base.begin 2) = .next t ∧ t.statusWord ≠ (base.begin 2).statusWord) ∧
    ∃ t, step { base.begin 2 with agenda := [.reset] } = .next t ∧ t.statusWord ≠ (base.begin 2).statusWord :=
  ⟨⟨_, rfl, by decide⟩, ⟨_, rfl, by decide +kernel⟩, ⟨_, rfl, by decide⟩⟩

theorem witness_StatusWordFields :
    (base.complete .illegalCommand).err = .illegalCommand ∧ (base.complete .invalidLength).err = .invalidLength ∧
    (base.complete .lengthExceedsBuffer).err = .lengthExceedsBuffer ∧ (base.complete .numeric).err = .numeric ∧
    base.errFlag = false := by decide

theorem witness_StatusReadsLegalValue : base.Inv ∧ busyEncrypt.Inv := ⟨base_inv, busyEncrypt_inv⟩

/-- Every clause of the acceptance rule, at the bounds of its range. -/
theorem witness_CommandAcceptance :
    { base with agenda := [.write (engineBase tp + 4) .half 1] }.agenda = .write (engineBase tp + 4) .half 1 :: [] ∧
    { base with agenda := [.write (engineBase tp + 7) .word 1] }.agenda = .write (engineBase tp + 7) .word 1 :: [] ∧
    { base with agenda := [wr tp 4 1] }.agenda = .write (engineBase tp + 4) .word 1 :: [] ∧
    busyEncrypt.busy = true ∧ base.busy = false ∧
    (0 : Word) ∉ ([1, 2, 3, 4, 5] : List Word) ∧ (6 : Word) ∉ ([1, 2, 3, 4, 5] : List Word) ∧
    base.len.toInt ≤ 0 ∧ 4096 < { base with len := 4097 }.len.toInt ∧
    (0 < { base with len := 1 }.len.toInt ∧ { base with len := 1 }.len.toInt ≤ 4096) ∧
    (0 < { base with len := 4096 }.len.toInt ∧ { base with len := 4096 }.len.toInt ≤ 4096) := by decide

theorem witness_BadAccessGetsBusError :
    (0x001 % BusWidth.word.bytes ≠ 0 ∧ 0x3FFF % BusWidth.half.bytes ≠ 0) ∧ (0x000 < 0x1000 ∧ BusWidth.byte ≠ .word) ∧
    (0xFFE < 0x1000 ∧ BusWidth.half ≠ .word) ∧ 0x3000 ≤ 0x3000 ∧ 0x3FFF < 0x4000 ∧
    { base with agenda := [.read (engineBase tp + 0x3FFF) .byte] }.agenda = .read (engineBase base.cfg + 0x3FFF) .byte :: [] ∧
    { base with agenda := [.write (engineBase tp + 1) .word 5] }.agenda = .write (engineBase base.cfg + 1) .word 5 :: [] := by
  decide

theorem witness_BusyWriteIgnored :
    0x3FFF < 0x4000 ∧ busyEncrypt.busy = true ∧
    { busyEncrypt with agenda := [wr tp 0x00C 1] }.agenda = .write (engineBase busyEncrypt.cfg + 0x00C) .word 1 :: [] ∧
    { busyEncrypt with agenda := [wrb tp 0x3FFF 1] }.agenda =
      .write (engineBase busyEncrypt.cfg + 0x3FFF) .byte 1 :: [] := by
  decide

/-- The register map of R21 with the values of a state, as the statement writes it. -/
def registerMap (s : State) : List (Nat × Reg × Word) :=
  [(0x000, .id, 0x4B414F53), (0x004, .cmd, 0), (0x008, .status, s.statusWord), (0x00C, .len, s.len),
    (0x010, .ctr, s.ctr), (0x014, .kb, s.kb.zeroExtend 32), (0x018, .warmup, 0x00001388),
    (0x01C, .maxlen, 0x00001000),
    (0x020, .key 0, s.key[0]), (0x024, .key 1, s.key[1]), (0x028, .key 2, s.key[2]), (0x02C, .key 3, s.key[3]),
    (0x030, .key 4, s.key[4]), (0x034, .key 5, s.key[5]), (0x038, .key 6, s.key[6]), (0x03C, .key 7, s.key[7]),
    (0x040, .nonce 0, s.nonce[0]), (0x044, .nonce 1, s.nonce[1]), (0x048, .nonce 2, s.nonce[2]),
    (0x050, .xLo, s.xLo), (0x054, .xHi, s.xHi), (0x058, .yLo, s.yLo), (0x05C, .yHi, s.yHi),
    (0x060, .zLo, s.zLo), (0x064, .zHi, s.zHi),
    (0x070, .sigmaLo, 0x00000000), (0x074, .sigmaHi, 0x40240000),
    (0x078, .rhoLo, 0x00000000), (0x07C, .rhoHi, 0x403C0000),
    (0x080, .betaLo, 0x55555555), (0x084, .betaHi, 0x40055555),
    (0x088, .dtLo, 0x47AE147B), (0x08C, .dtHi, 0x3F847AE1)]

/-- The first and the last entry of the map, the last one while busy, and KB, which is read while idle only. -/
theorem witness_RegisterReadAnswersValue :
    (∃ map, map = registerMap base ∧ (0x000, Reg.id, 0x4B414F53) ∈ map ∧ (0x014, Reg.kb, 0) ∈ map ∧
      (0x08C, Reg.dtHi, 0x3F847AE1) ∈ map) ∧
    base.busy = false ∧ { base with agenda := [rd tp 0x014] }.agenda = .read (engineBase base.cfg + 0x014) .word :: [] ∧
    Reg.dtHi ∉ ([.xLo, .xHi, .yLo, .yHi, .zLo, .zHi, .kb] : List Reg) ∧
    { busyEncrypt with agenda := [rd tp 0x08C] }.agenda = .read (engineBase busyEncrypt.cfg + 0x08C) .word :: [] ∧
    Reg.ofOffset 0x000 = some .id ∧ Reg.ofOffset 0x08C = some .dtHi :=
  ⟨⟨_, rfl, by decide, by decide, by decide⟩, by decide⟩

/-- A register read, and reads of the first and the last bytes of DATA_OUT. -/
theorem witness_BusyVolatileReadIsDraw :
    busyEncrypt.busy = true ∧ 0x064 ∈ ([0x050, 0x054, 0x058, 0x05C, 0x060, 0x064, 0x014] : List Nat) ∧
    { busyEncrypt with agenda := [rd tp 0x064] }.agenda = .read (engineBase busyEncrypt.cfg + 0x064) .word :: [] ∧
    (0x2000 ≤ 0x2000 ∧ 0x2000 < 0x3000 ∧ 0x2000 % BusWidth.word.bytes = 0) ∧
    { busyEncrypt with agenda := [rd tp 0x2000] }.agenda = .read (engineBase busyEncrypt.cfg + 0x2000) .word :: [] ∧
    (0x2000 ≤ 0x2FFE ∧ 0x2FFE < 0x3000 ∧ 0x2FFE % BusWidth.half.bytes = 0) ∧
    { busyEncrypt with agenda := [.read (0x4000 + 0x2FFE) .half] }.agenda =
      .read (engineBase busyEncrypt.cfg + 0x2FFE) .half :: [] := by
  decide

theorem witness_ReadsHaveNoSideEffect :
    ∃ t, step { base with agenda := [.read 0x5000 .half] } = .next t ∧ t.draws = 2 := ⟨_, rfl, rfl⟩

theorem witness_WritableRegisterReadsBack :
    base.busy = false ∧ (0x020 ≤ 0x048 ∧ 0x048 ≤ 0x048) ∧ 0x048 % 4 = 0 ∧ (0x050 ≤ 0x064 ∧ 0x064 ≤ 0x064) ∧
    { base with agenda := [wr tp 0x048 9, rd tp 0x048] }.agenda =
      [.write (engineBase base.cfg + 0x048) .word 9, .read (engineBase base.cfg + 0x048) .word] := by decide

theorem witness_ReadOnlyAndReservedIgnoreWrites :
    (0x06C < 0x4000 ∧ 0x06C % 4 = 0 ∧ 0x06C ∈ ([0x000, 0x008, 0x014, 0x018, 0x01C, 0x04C, 0x068, 0x06C] : List Nat)) ∧
    (0x070 ≤ 0x070 ∧ 0x070 < 0x1000) ∧ (0x3FFC < 0x4000 ∧ 0x3FFC % 4 = 0 ∧ 0x3000 ≤ 0x3FFC) ∧
    { base with agenda := [wr tp 0x3FFC 9] }.agenda = .write (engineBase base.cfg + 0x3FFC) .word 9 :: [] ∧
    { base with agenda := [rd tp 0x090] }.agenda = .read (engineBase base.cfg + 0x090) .word :: [] := by decide

theorem witness_StoredWordReadsLittleEndian :
    base.busy = false ∧ 0x1000 ≤ 0x2FFC ∧ 0x2FFC < 0x3000 ∧ 0x2FFC % 4 = 0 ∧ 3 < 4 ∧
    { base with agenda := [wr tp 0x2FFC 9, rdb tp 0x2FFF] }.agenda =
      [.write (engineBase base.cfg + 0x2FFC) .word 9, .read (engineBase base.cfg + (0x2FFC + 3)) .byte] := by decide

/-- Three written bytes at the start of DATA_IN, and a hole between them. -/
def holed : State := { base with mem := [(0x1000, 1), (0x1001, 2), (0x1003, 4)] }

/-- A word with an unwritten byte while idle, a half of DATA_IN while busy, and the last byte of DATA_OUT. -/
theorem witness_BufferReadAssemblesBytes :
    (0x1000 % BusWidth.word.bytes = 0 ∧ holed.busy = false ∧
      { holed with agenda := [rd tp 0x1000] }.agenda = .read (engineBase holed.cfg + 0x1000) .word :: [] ∧
      holed.mem.lookup (0x1000 + 0) = some 1 ∧ holed.mem.lookup (0x1000 + 2) = none) ∧
    (0x1FFE < 0x2000 ∧ 0x1FFE % BusWidth.half.bytes = 0 ∧
      { busyEncrypt with agenda := [.read (0x4000 + 0x1FFE) .half] }.agenda =
        .read (engineBase busyEncrypt.cfg + 0x1FFE) .half :: []) ∧
    (0x2FFF < 0x3000 ∧ 0x2FFF % BusWidth.byte.bytes = 0 ∧ base.busy = false ∧
      { base with agenda := [rdb tp 0x2FFF] }.agenda = .read (engineBase base.cfg + 0x2FFF) .byte :: []) := by
  decide

/-- R64, R67: the word over a hole holds the written bytes in their places, and one draw is taken. -/
theorem test_read_over_hole :
    (ran 1 { holed with agenda := [rd tp 0x1000] }).draws = 1 ∧
    (ran 1 { holed with agenda := [.read (0x4000 + 0x1000) .half] }).responses = [.data 0x0201] := by decide +kernel

theorem witness_BufferWriteChangesOnlyItsBytes :
    base.busy = false ∧ 0x1000 ≤ 0x2FFE ∧ 0x2FFE < 0x3000 ∧ 0x2FFE % BusWidth.half.bytes = 0 ∧
    { base with agenda := [.write (engineBase tp + 0x2FFE) .half 9] }.agenda =
      .write (engineBase base.cfg + 0x2FFE) .half 9 :: [] := by decide

/-- 1 + 1 = 2, 1 · 1 = 1 and 1 / 1 = 1, all finite; and 0 is a binary64. -/
theorem witness_ArithmeticRoundsToNearest :
    (F64.fin false 0).wf = true ∧
    fadd (.fin false F64.one) (.fin false F64.one) = .fin false (F64.one + F64.one) ∧
    fmul (.fin false F64.one) (.fin false F64.one) = .fin false F64.one ∧
    fdiv (.fin false F64.one) (.fin false F64.one) = .fin false F64.one := by decide +kernel

/-- 2^53 + 1, in units of the least subnormal, lies halfway between 2^53 and 2^53 + 2. -/
theorem witness_TiesRoundToEven :
    F64.round false (2 ^ 53 + 1) 1 = .fin false (2 ^ 53) ∧ (F64.fin false (2 ^ 53 + 2)).wf = true ∧
    2 ^ 53 + 2 ≠ 2 ^ 53 ∧
    ((2 ^ 53 + 1 : Nat) - (1 : Nat) * (2 ^ 53 : Nat) : Int).natAbs =
      ((2 ^ 53 + 1 : Nat) - (1 : Nat) * (2 ^ 53 + 2 : Nat) : Int).natAbs := by decide +kernel

theorem witness_OverflowThreshold :
    F64.round true ((2 ^ 54 - 1) * 2 ^ (F64.unitExp + 970)) 1 = .inf true ∧ 0 < 1 ∧
    F64.round true ((2 ^ 54 - 1) * 2 ^ (F64.unitExp + 970) - 1) 1 ≠ .inf true := by decide +kernel

theorem witness_EncodingOfValueOfEncoding :
    isNanPattern 0x7FF0000000000000 = false ∧ isNanPattern 0x7FF0000000000001 = true := by decide

theorem witness_FloorIsLargestIntegral :
    (F64.fin true 1).wf = true ∧ ffloor (.fin true 1) = .fin true F64.one := by decide +kernel

theorem witness_FractionalPartIsExact : (F64.fin true (F64.one + F64.one / 2)).wf = true := by decide +kernel

/-- The coordinate with its fallback, as a function of both. -/
theorem witness_LaneCoordinateRangeAndZeros :
    ∃ f : DWord → DWord → F64,
      ∀ fb l, f fb l = if l = 0 ∨ 0xFFFFFFFFFFFFFC00 ≤ l.toNat then F64.ofBits fb else laneCoord l :=
  ⟨_, fun _ _ => rfl⟩

/-- The greatest binary64 below 1.0. -/
theorem witness_PerturbedFractionScalesToByte :
    (2 ^ 53 - 1) * 2 ^ (F64.unitExp - 53) < F64.one ∧ (F64.fin false ((2 ^ 53 - 1) * 2 ^ (F64.unitExp - 53))).wf = true := by
  decide +kernel

/-- V-EXT-25 and V-EXT-1: a combination that is a NaN, and one that is finite. -/
theorem witness_NumericExactlyWhenCombinationNotFinite :
    (∃ comb, comb =
      fadd (fadd (fmul (.inf false) (F64.ofBits 0x3FF9E3779B97F4A8)) (fmul (.inf true) (F64.ofBits 0x4005BF0A8B145769)))
        (fmul (.fin false 0) (F64.ofBits 0x400921FB54442D18)) ∧ isfinite comb = false) ∧
    (∃ comb, comb =
      fadd (fadd (fmul (.fin false 0) (F64.ofBits 0x3FF9E3779B97F4A8)) (fmul (.fin false 0) (F64.ofBits 0x4005BF0A8B145769)))
        (fmul (.fin false 0) (F64.ofBits 0x400921FB54442D18)) ∧ isfinite comb = true) ∧
    (isfinite F64.nan && isfinite (.fin false 0) && isfinite (.fin false 0)) = false :=
  ⟨⟨_, rfl, by decide +kernel⟩, ⟨_, rfl, by decide +kernel⟩, by decide⟩

/-- R112 for the key byte 0x42 under TP. -/
def keyRule (l : Lanes) : Lanes :=
  ⟨l.m1.rotateLeft testProfile.krot.m1 ^^^ ((0x42 : Byte).zeroExtend 64 * testProfile.kmul.m1),
    l.m2.rotateLeft testProfile.krot.m2 ^^^ ((0x42 : Byte).zeroExtend 64 * testProfile.kmul.m2),
    l.m3.rotateLeft testProfile.krot.m3 ^^^ ((0x42 : Byte).zeroExtend 64 * testProfile.kmul.m3)⟩

/-- R113 for the nonce byte 0x99 under TP. -/
def nonceRule (j : Fin 12) (l : Lanes) : Lanes :=
  ⟨l.m1 ^^^ ((0x99 : Byte).zeroExtend 64 <<< testProfile.nsh[j]),
    l.m2 + (0x99 : Byte).zeroExtend 64 * testProfile.nw[j],
    l.m3.rotateLeft testProfile.nrot ^^^ (0x99 : Byte).zeroExtend 64⟩

/-- The lane sequences of the statement exist, for the key and nonce of V-MIX-2. -/
theorem witness_MixerLanesFollowTheRules :
    testProfile.wf = true ∧
    ∃ K N : Nat → Lanes, K 0 = testProfile.laneInit ∧ (∀ j : Fin 32, K (j.val + 1) = keyRule (K j.val)) ∧
      N 0 = K 32 ∧ ∀ j : Fin 12, N (j.val + 1) = nonceRule j (N j.val) :=
  ⟨by decide,
    Nat.rec testProfile.laneInit fun _ l => keyRule l,
    Nat.rec (Nat.rec testProfile.laneInit (fun _ l => keyRule l) 32)
      fun j l => if h : j < 12 then nonceRule ⟨j, h⟩ l else l,
    rfl, fun _ => rfl, rfl, fun j => by simp [j.isLt]⟩

theorem witness_MixedStateInOpenUnitCube : testProfile.wf = true ∧ still.wf = true := by decide

theorem witness_MixDependsOnKeyAndNonceOnly :
    base.cfg.mixer.wf = true ∧ { base with ctr := 5, kb := 6 }.cfg.mixer = base.cfg.mixer ∧
    { base with ctr := 5, kb := 6 }.key = base.key ∧ { base with ctr := 5, kb := 6 }.nonce = base.nonce ∧
    (∃ t, exec .mix base = .next t) ∧ ∃ t, exec .mix { base with ctr := 5, kb := 6 } = .next t :=
  ⟨by decide, rfl, rfl, rfl, ⟨_, rfl⟩, ⟨_, rfl⟩⟩

theorem witness_NanPropagatesThroughStep :
    (Chaos.mk .nan fOne fOne).x = .nan ∧ (Chaos.mk fOne .nan fOne).y = .nan ∧ (Chaos.mk fOne fOne .nan).z = .nan :=
  ⟨rfl, rfl, rfl⟩

/-- R161 of the registers of a state, written out. -/
def writtenOut (s : State) : F64 :=
  fadd
    (fadd (fmul (F64.ofBits (s.xHi ++ s.xLo)) (F64.ofBits 0x3FF9E3779B97F4A8))
      (fmul (F64.ofBits (s.yHi ++ s.yLo)) (F64.ofBits 0x4005BF0A8B145769)))
    (fmul (F64.ofBits (s.zHi ++ s.zLo)) (F64.ofBits 0x400921FB54442D18))

theorem witness_ExtractCompletes : ∃ comb, comb = writtenOut base ∧ isfinite comb = true :=
  ⟨_, rfl, by decide +kernel⟩

/-- V-ERR-13. -/
theorem witness_ExtractNumericChangesOnlyStatus :
    ∃ comb, comb = writtenOut { base with xHi := 0x7FF80000 } ∧ isfinite comb = false :=
  ⟨_, rfl, by decide +kernel⟩

theorem witness_DriverRefusesLength :
    base.len.toInt ≤ 0 ∧ { base with len := 0x80000000 }.len.toInt ≤ 0 ∧ 4096 < { base with len := 4097 }.len.toInt ∧
    4096 < { base with len := 0x7FFFFFFF }.len.toInt := by decide

theorem witness_DriverCompletes :
    stillState.len.toInt = (1 : Nat) ∧ 1 ≤ 1 ∧ 1 ≤ 4096 ∧ ∀ j, j < 1 → stillState.positionByte j ≠ none := by
  refine ⟨by decide, by omega, by omega, fun j hj => ?_⟩
  obtain rfl : j = 0 := by omega
  rw [stillState_positionByte]
  simp

theorem wild_positionByte : wild.positionByte 0 = none := by
  have hm : stepF wild.mixed = ⟨.nan, .nan, .nan⟩ := by decide +kernel
  have hf : stepF ⟨.nan, .nan, .nan⟩ = ⟨.nan, .nan, .nan⟩ := by decide
  have hs := stepN_succ_of_fixed hm hf (warmupCount + 0)
  unfold State.positionByte
  rw [hs]
  decide

theorem witness_DriverNumericHasNoSideEffect :
    wild.len.toInt = (1 : Nat) ∧ 1 ≤ 1 ∧ 1 ≤ 4096 ∧ ∃ j, j < 1 ∧ wild.positionByte j = none :=
  ⟨by decide, by omega, by omega, 0, by omega, wild_positionByte⟩

theorem witness_DecryptUndoesEncrypt :
    stillState.len.toInt = (1 : Nat) ∧ (∀ j, j < 1 → stillState.mem.lookup (inOff j) ≠ none) ∧
    exec .encrypt stillState = .next stillDone ∧ stillDone.statusWord = 0x00000002 ∧
    stillBack.cfg.mixer = stillState.cfg.mixer ∧ stillBack.key = stillState.key ∧
    stillBack.nonce = stillState.nonce ∧ stillBack.len = stillState.len ∧
    ∀ j, j < 1 → stillBack.mem.lookup (inOff j) = stillDone.mem.lookup (outOff j) := by
  refine ⟨by decide, fun j hj => ?_, stillState_encrypt, test_encrypt_one_byte.2, rfl, rfl, rfl, rfl, fun j hj => ?_⟩
  · obtain rfl : j = 0 := by omega
    decide
  · obtain rfl : j = 0 := by omega
    rw [test_encrypt_one_byte.1]
    decide

/-- The driver's result does not depend on the input: `stillBack` succeeds as `stillState` does. -/
theorem stillBack_encrypt :
    exec .encrypt stillBack = .next (((stillBack.xorOut [123]).writeChaos stillChaos).complete .noError) := by
  have hn : stillBack.lenValue.toNat = 1 := by decide
  have hm : stillBack.mixed = stillChaos := by decide +kernel
  have hd : stillBack.driven 1 = some ([123], stillChaos) := by
    unfold State.driven
    rw [hm, stepN_of_fixed stillChaos_fixed]
    exact keystream_one_of_fixed stillChaos_fixed stillChaos_byte
  rw [exec_encrypt, State.drive_of_driven (by decide) (hn.symm ▸ hd)]

theorem witness_EncryptIsBijective :
    stillState.len.toInt = (1 : Nat) ∧ exec .encrypt stillState = .next stillDone ∧
    stillDone.statusWord = 0x00000002 ∧ stillBack.cfg.mixer = stillState.cfg.mixer ∧
    stillBack.key = stillState.key ∧ stillBack.nonce = stillState.nonce ∧ stillBack.len = stillState.len ∧
    (∀ j, j < 1 → stillState.mem.lookup (inOff j) ≠ none ∧ stillBack.mem.lookup (inOff j) ≠ none) ∧
    ∃ v, exec .encrypt stillBack = .next v := by
  refine ⟨by decide, stillState_encrypt, test_encrypt_one_byte.2, rfl, rfl, rfl, rfl, fun j hj => ?_,
    _, stillBack_encrypt⟩
  obtain rfl : j = 0 := by omega
  decide

/-- As `stillState`, with other values in registers ENCRYPT does not read. -/
def stillOther : State := { stillState with kb := 9, ctr := 7, xLo := 3 }

theorem witness_EncryptDependsOnItsOperandsOnly :
    stillState.len.toInt = (1 : Nat) ∧ stillOther.cfg.mixer = stillState.cfg.mixer ∧
    stillOther.key = stillState.key ∧ stillOther.nonce = stillState.nonce ∧ stillOther.len = stillState.len ∧
    (∀ j, j < 1 → stillState.mem.lookup (inOff j) ≠ none ∧
      stillOther.mem.lookup (inOff j) = stillState.mem.lookup (inOff j)) ∧
    exec .encrypt stillState = .next stillDone ∧ stillDone.statusWord = 0x00000002 ∧
    ∃ t, exec .encrypt stillOther = .next t := by
  refine ⟨by decide, rfl, rfl, rfl, rfl, fun j hj => ?_, stillState_encrypt, test_encrypt_one_byte.2, _, rfl⟩
  obtain rfl : j = 0 := by omega
  decide

theorem witness_EncryptEqualsPrimitiveSequence :
    stillState.len.toInt = (1 : Nat) ∧ (∀ j, j < 1 → stillState.mem.lookup (inOff j) ≠ none) ∧
    exec .encrypt stillState = .next stillDone ∧ stillDone.statusWord = 0x00000002 := by
  refine ⟨by decide, fun j hj => ?_, stillState_encrypt, test_encrypt_one_byte.2⟩
  obtain rfl : j = 0 := by omega
  decide

/-- A reset while idle, and during a STEP, a one-byte and a 4096-byte ENCRYPT. -/
theorem witness_ResetInputEffect :
    { base with agenda := [.reset] }.agenda = .reset :: [] ∧ base.busy = false ∧
    (base.begin 2).phase = .busy 2 ∧ (2 : Word) ∉ ([4, 5] : List Word) ∧
    (stillState.begin 4).phase = .busy 4 ∧ (4 : Word) ∈ ([4, 5] : List Word) ∧
    (stillState.begin 4).len.toInt = (1 : Nat) ∧ busyEncrypt.phase = .busy 4 ∧
    busyEncrypt.len.toInt = (4096 : Nat) := by decide

end Sys2Proof.Tests
end

section
/-! The floor of a finite binary64 (R10): the integral magnitude `ffloor` builds lies less than 1.0 from the value's,
and an integral magnitude so near a binary64 is itself a binary64. -/

namespace Sys2Proof.Machine

open Sys2Proof

/-- A binary64 of magnitude 2^53 or more is integral: its last place weighs at least 1.0. -/
theorem F64.one_dvd_of_wf {neg : Bool} {m : Nat} (h : (F64.fin neg m).wf = true) (hm : 2 ^ 53 * F64.one ≤ m) :
    F64.one ∣ m := by
  obtain ⟨-, hdvd⟩ := F64.wf_fin.1 h
  have hlt : F64.one < 2 ^ F64.lastPlace m :=
    lt_of_mul_lt_mul_left (lt_of_le_of_lt hm (F64.lt_lastPlace m)) (Nat.zero_le _)
  have hle : F64.unitExp ≤ F64.lastPlace m := ((Nat.pow_lt_pow_iff_right Nat.one_lt_two).1 hlt).le
  exact dvd_trans (Nat.pow_dvd_pow 2 hle) hdvd

/-- A whole number of at most 53 bits is a binary64. -/
theorem F64.wf_one_mul {neg : Bool} {q : Nat} (h : q ≤ 2 ^ 53) : (F64.fin neg (F64.one * q)).wf = true := by
  rw [Nat.mul_comm]
  refine F64.wf_of_mul_pow h (lt_of_le_of_lt (Nat.mul_le_mul_right _ h) ?_)
  rw [← Nat.pow_add]
  exact Nat.pow_lt_pow_right Nat.one_lt_two (by omega)

/-- An integral magnitude less than 1.0 away from a binary64 is a binary64: up to 2^53 every whole number is one, and
above 2^53 the two are equal. -/
theorem F64.wf_of_near {neg neg' : Bool} {m q : Nat} (h : (F64.fin neg m).wf = true)
    (hlo : m < F64.one * q + F64.one) (hhi : F64.one * q < m + F64.one) :
    (F64.fin neg' (F64.one * q)).wf = true := by
  rcases Nat.lt_or_ge (2 ^ 53) q with hq | hq
  · have hbig : 2 ^ 53 * F64.one ≤ m := by
      obtain ⟨p, hp, rfl⟩ : ∃ p, 2 ^ 53 ≤ p ∧ q = p + 1 := ⟨q - 1, by omega, by omega⟩
      have hpm : F64.one * p < m := Nat.lt_of_add_lt_add_right hhi
      exact (Nat.mul_le_mul_right F64.one hp).trans (Nat.mul_comm F64.one p ▸ hpm.le)
    obtain ⟨k, rfl⟩ := F64.one_dvd_of_wf h hbig
    have hkq : k < q + 1 := Nat.lt_of_mul_lt_mul_left (a := F64.one) (by rwa [Nat.mul_add, Nat.mul_one])
    have hqk : q < k + 1 := Nat.lt_of_mul_lt_mul_left (a := F64.one) (by rwa [Nat.mul_add, Nat.mul_one])
    obtain rfl : k = q := by omega
    exact F64.wf_fin.2 (F64.wf_fin.1 h)
  · exact F64.wf_one_mul hq

/-- The floor of a nonnegative magnitude: the integral one below it. -/
theorem F64.floor_bounds (m : Nat) :
    F64.one * (m / F64.one) ≤ m ∧ m < F64.one * (m / F64.one) + F64.one :=
  ⟨Nat.mul_div_le m F64.one, Nat.lt_mul_div_succ m F64.one_pos⟩

/-- The floor of a negative value has the integral magnitude above its own. -/
theorem F64.ceil_bounds (m : Nat) :
    m ≤ F64.one * ((F64.one - 1 + m) / F64.one) ∧ F64.one * ((F64.one - 1 + m) / F64.one) < m + F64.one := by
  obtain ⟨hle, hlt⟩ := F64.floor_bounds (F64.one - 1 + m)
  have := F64.one_pos
  omega

/-- Settles O33, by the sign: the magnitude is rounded down for a nonnegative value and up for a negative one. -/
theorem floorIsLargestIntegral : Obligations.FloorIsLargestIntegral := by
  unfold Obligations.FloorIsLargestIntegral
  intro s m h
  cases s with
  | false =>
    obtain ⟨hle, hlt⟩ := F64.floor_bounds m
    refine ⟨false, F64.one * (m / F64.one), rfl, F64.wf_of_near h hlt (by omega), Nat.mul_mod_right _ _, ?_⟩
    simp only [signed, Bool.false_eq_true, if_false]
    omega
  | true =>
    obtain ⟨hle, hlt⟩ := F64.ceil_bounds m
    refine ⟨true, F64.one * ((F64.one - 1 + m) / F64.one), rfl, F64.wf_of_near h (by omega) hlt,
      Nat.mul_mod_right _ _, ?_⟩
    simp only [signed, if_true]
    omega

end Sys2Proof.Machine
end

section
/-! No step changes the OPEN parameters (R6), operation by operation; the hardwired registers read constants in every
state (R22, R31, R32). -/

namespace Sys2Proof.Machine

open Sys2Proof

/-! ### The OPEN parameters -/

@[simp] theorem State.drive_cfg (s : State) : s.drive.cfg = s.cfg := by
  rcases s.drive_cases with ⟨e, -, h⟩ | ⟨-, -, h⟩ | ⟨ks, c, -, -, h⟩ <;> simp [h]

@[simp] theorem State.accept_cfg (w : Word) (s : State) : (s.accept w).cfg = s.cfg := by
  rcases s.accept_cases w with ⟨e, -, h⟩ | ⟨i, e, -, -, -, h⟩ | ⟨i, -, -, h⟩ <;> simp [h]

@[simp] theorem State.writeOffset_cfg (off : Nat) (v : Word) (s : State) : (s.writeOffset off v).cfg = s.cfg := by
  rcases s.writeOffset_cases off v with ⟨-, h⟩ | ⟨-, h⟩ | ⟨r, -, -, h⟩ <;> simp [h]

@[simp] theorem State.writeBytes_cfg (n off : Nat) (v : Word) (s : State) :
    (State.writeBytes n off v s).cfg = s.cfg := by
  obtain ⟨m, h⟩ := State.writeBytes_state n off v s
  simp [h]

@[simp] theorem State.serveWrite_cfg (off : Nat) (w : BusWidth) (v : Word) (s : State) :
    (s.serveWrite off w v).2.cfg = s.cfg := by
  rcases s.serveWrite_cases off w v with
    ⟨-, h⟩ | ⟨-, -, h⟩ | ⟨-, -, -, h⟩ | ⟨-, -, -, h⟩ | ⟨-, -, -, h⟩ <;> simp [h]

theorem hostRead_cfg {addr : Nat} {w : BusWidth} {s t : State} (h : hostRead addr w s = .next t) : t.cfg = s.cfg := by
  rcases hostRead_cases addr w s with ⟨off, r, d, -, -, h'⟩ | ⟨-, h'⟩
  · cases h'.symm.trans h
    rfl
  · cases h'.symm.trans h

theorem hostWrite_cfg {addr : Nat} {w : BusWidth} {v : Word} {s t : State} (h : hostWrite addr w v s = .next t) :
    t.cfg = s.cfg := by
  rcases hostWrite_cases addr w v s with ⟨off, -, h'⟩ | ⟨-, h'⟩
  · cases h'.symm.trans h
    simp
  · cases h'.symm.trans h

theorem exec_cfg {i : Instr} {s t : State} (h : exec i s = .next t) : t.cfg = s.cfg := by
  rcases exec_cases i s with ⟨-, h'⟩ | ⟨-, h'⟩ | ⟨-, b, -, h'⟩ | ⟨-, -, h'⟩ | ⟨-, h'⟩ <;>
    · cases h'.symm.trans h
      simp

theorem engineTurn_cfg {s t : State} (h : engineTurn s = .next t) : t.cfg = s.cfg := by
  rcases engineTurn_cases s with ⟨-, h'⟩ | ⟨w, i, -, -, h'⟩ | ⟨w, e, -, -, h'⟩
  · cases h'.symm.trans h
    rfl
  · exact exec_cfg (h'.symm.trans h)
  · cases h'.symm.trans h
    rfl

/-- No step changes the OPEN parameters, whichever event it takes (R6). -/
theorem step_cfg {s t : State} (h : step s = .next t) : t.cfg = s.cfg := by
  rcases step_cases s with ⟨-, h'⟩ | ⟨es, -, h'⟩ | ⟨es, -, h'⟩ | ⟨a, w, es, -, h'⟩ | ⟨a, w, v, es, -, h'⟩
  · exact engineTurn_cfg (h'.symm.trans h)
  · exact (engineTurn_cfg (h'.symm.trans h) :)
  · cases h'.symm.trans h
    rfl
  · exact (hostRead_cfg (h'.symm.trans h) :)
  · exact (hostWrite_cfg (h'.symm.trans h) :)

/-! ### The hardwired registers -/

/-- ID, WARMUP and MAXLEN read their constants in every state (R22, R32). -/
theorem State.readReg_constants (s : State) :
    s.readReg .id = 0x4B414F53 ∧ s.readReg .warmup = 0x00001388 ∧ s.readReg .maxlen = 0x00001000 :=
  ⟨rfl, rfl, rfl⟩

/-- The parameter registers read the halves of their binary64 encodings in every state (R31). -/
theorem State.readReg_parameters (s : State) :
    s.readReg .sigmaLo = 0x00000000 ∧ s.readReg .sigmaHi = 0x40240000 ∧
    s.readReg .rhoLo = 0x00000000 ∧ s.readReg .rhoHi = 0x403C0000 ∧
    s.readReg .betaLo = 0x55555555 ∧ s.readReg .betaHi = 0x40055555 ∧
    s.readReg .dtLo = 0x47AE147B ∧ s.readReg .dtHi = 0x3F847AE1 :=
  ⟨rfl, rfl, rfl, rfl, rfl, rfl, rfl, rfl⟩

/-- Settles O13: the parameters by the cases of a step, the registers because no field of the state backs them. -/
theorem hardwiredRegistersNeverChange : Obligations.HardwiredRegistersNeverChange := by
  unfold Obligations.HardwiredRegistersNeverChange
  intro s t h
  obtain ⟨hid, hwarmup, hmaxlen⟩ := t.readReg_constants
  exact ⟨step_cfg h, hid, hwarmup, hmaxlen, t.readReg_parameters⟩

end Sys2Proof.Machine
end

section
/-! The value of an encoding and the encoding of a value (R30, R95), by the three fields of the encoding. -/

namespace Sys2Proof.Machine

open Sys2Proof

/-- An encoding is made of its three fields (R95). -/
theorem F64.pack_fields (b : DWord) :
    F64.pack (b.getLsbD 63) (b.extractLsb' 52 11).toNat (b.extractLsb' 0 52).toNat = b := by
  apply BitVec.eq_of_toNat_eq
  rw [F64.pack_toNat (BitVec.isLt _) (BitVec.isLt _), BitVec.getLsbD, Nat.toNat_testBit, BitVec.extractLsb'_toNat,
    BitVec.extractLsb'_toNat, Nat.shiftRight_eq_div_pow]
  have := b.isLt
  omega

/-- The last place of a magnitude with a significand of exactly 53 bits. -/
theorem F64.lastPlace_mul_pow {r k : Nat} (hlo : 2 ^ 52 ≤ r) (hhi : r < 2 ^ 53) : F64.lastPlace (r * 2 ^ k) = k := by
  have hpos := Nat.two_pow_pos k
  refine le_antisymm (F64.lastPlace_le_of_lt (Nat.mul_lt_mul_of_pos_right hhi hpos)) ?_
  have hlog : 52 + k ≤ (r * 2 ^ k).log2 :=
    (Nat.le_log2 (Nat.mul_pos (by omega) hpos).ne').2 (Nat.pow_add 2 52 k ▸ Nat.mul_le_mul_right _ hlo)
  unfold F64.lastPlace
  omega

/-- A subnormal or zero magnitude has exponent field 0 and is its own fraction field (R95). -/
theorem F64.toBits_subnormal {neg : Bool} {f : Nat} (hf : f < 2 ^ 52) :
    (F64.fin neg f).toBits = some (F64.pack neg 0 f) := by
  simp only [F64.toBits, F64.expField, F64.fracField, hf, if_true]

/-- A normal magnitude encodes back to the fields it was made from (R95). -/
theorem F64.toBits_normal {neg : Bool} {e f : Nat} (he : 0 < e) (hf : f < 2 ^ 52) :
    (F64.fin neg ((2 ^ 52 + f) * 2 ^ (e - 1))).toBits = some (F64.pack neg e f) := by
  have hpos := Nat.two_pow_pos (e - 1)
  have hbig : ¬ (2 ^ 52 + f) * 2 ^ (e - 1) < 2 ^ 52 :=
    Nat.not_lt.2 (le_trans (Nat.le_add_right _ f) (Nat.le_mul_of_pos_right _ hpos))
  have hlast : F64.lastPlace ((2 ^ 52 + f) * 2 ^ (e - 1)) = e - 1 := F64.lastPlace_mul_pow (by omega) (by omega)
  simp only [F64.toBits, F64.expField, F64.fracField, hbig, if_false, hlast, Nat.mul_div_cancel _ hpos,
    Nat.add_sub_cancel_left, Nat.sub_add_cancel he]

/-- The exponent and the fraction of a NaN's pattern (R95). -/
theorem isNanPattern_iff {b : DWord} :
    isNanPattern b = true ↔ (b.extractLsb' 52 11).toNat = 2047 ∧ (b.extractLsb' 0 52).toNat ≠ 0 := by
  simp [isNanPattern, BitVec.toNat_eq]

/-- The fields of an encoding that is no NaN, as a value, give the encoding back: an infinity, a subnormal or a normal
value (R95). -/
theorem F64.toBits_ofBits {b : DWord} (h : isNanPattern b = false) : (F64.ofBits b).toBits = some b := by
  have hnan : ¬ ((b.extractLsb' 52 11).toNat = 2047 ∧ (b.extractLsb' 0 52).toNat ≠ 0) :=
    mt isNanPattern_iff.2 (by simp [h])
  have hf : (b.extractLsb' 0 52).toNat < 2 ^ 52 := BitVec.isLt _
  conv_rhs => rw [← F64.pack_fields b]
  unfold F64.ofBits
  generalize (b.extractLsb' 52 11).toNat = e at hnan ⊢
  generalize (b.extractLsb' 0 52).toNat = f at hnan hf ⊢
  dsimp only
  by_cases hinf : e = 2047
  · obtain rfl : f = 0 := by omega
    simp only [hinf, if_true, F64.toBits]
  · rw [if_neg hinf]
    by_cases hsub : e = 0
    · rw [if_pos hsub, F64.toBits_subnormal hf, hsub]
    · rw [if_neg hsub, F64.toBits_normal (Nat.pos_of_ne_zero hsub) hf]

/-- Settles O32: the round trip by the kind of the value, the rest by the laws of encodings. -/
theorem encodingOfValueOfEncoding : Obligations.EncodingOfValueOfEncoding := by
  unfold Obligations.EncodingOfValueOfEncoding
  exact fun b => ⟨F64.wf_ofBits b, F64.toBits_ofBits, F64.ofBits_of_isNanPattern⟩

end Sys2Proof.Machine
end

section
/-! The register map (R21) as a function from a register to its offset, and what accesses to registers and reserved
offsets do (R33, R63). -/

namespace Sys2Proof.Machine

open Sys2Proof

/-! ### Registers by offset -/

/-- The offset of a register (R21). -/
def Reg.offset : Reg → Nat
  | .id => 0x000
  | .cmd => 0x004
  | .status => 0x008
  | .len => 0x00C
  | .ctr => 0x010
  | .kb => 0x014
  | .warmup => 0x018
  | .maxlen => 0x01C
  | .key k => 0x020 + 4 * k.val
  | .nonce k => 0x040 + 4 * k.val
  | .xLo => 0x050
  | .xHi => 0x054
  | .yLo => 0x058
  | .yHi => 0x05C
  | .zLo => 0x060
  | .zHi => 0x064
  | .sigmaLo => 0x070
  | .sigmaHi => 0x074
  | .rhoLo => 0x078
  | .rhoHi => 0x07C
  | .betaLo => 0x080
  | .betaHi => 0x084
  | .dtLo => 0x088
  | .dtHi => 0x08C

/-- The registers, in the order of the map. -/
def Reg.all : List Reg :=
  [.id, .cmd, .status, .len, .ctr, .kb, .warmup, .maxlen,
    .key 0, .key 1, .key 2, .key 3, .key 4, .key 5, .key 6, .key 7, .nonce 0, .nonce 1, .nonce 2,
    .xLo, .xHi, .yLo, .yHi, .zLo, .zHi, .sigmaLo, .sigmaHi, .rhoLo, .rhoHi, .betaLo, .betaHi, .dtLo, .dtHi]

theorem Reg.mem_all (r : Reg) : r ∈ Reg.all := by
  cases r with
  | key k => fin_cases k <;> decide
  | nonce k => fin_cases k <;> decide
  | _ => decide

theorem Reg.ofOffset_offset (r : Reg) : Reg.ofOffset r.offset = some r := by
  cases r with
  | key k => fin_cases k <;> rfl
  | nonce k => fin_cases k <;> rfl
  | _ => rfl

/-- The register map in both directions (R21). -/
theorem Reg.ofOffset_eq_some_iff {off : Nat} {r : Reg} : Reg.ofOffset off = some r ↔ off = r.offset := by
  refine ⟨fun h => ?_, fun h => h ▸ r.ofOffset_offset⟩
  unfold Reg.ofOffset at h
  split at h <;> cases h <;> rfl

/-- The aligned offsets at which a register stands: all below 0x090 but three (R21, R33). -/
theorem Reg.ofOffset_eq_none_iff {off : Nat} (h4 : off % 4 = 0) :
    Reg.ofOffset off = none ↔ off ∈ ([0x04C, 0x068, 0x06C] : List Nat) ∨ 0x090 ≤ off := by
  simp only [List.mem_cons, List.not_mem_nil, or_false]
  unfold Reg.ofOffset
  split
  case h_34 => -- no offset of the map
    simp only [true_iff, imp_false] at *
    omega
  all_goals simp

/-- The host's writable registers by their offsets (R21). -/
theorem Reg.writable_iff {r : Reg} :
    r.writable = true ↔
      r.offset = 0x00C ∨ r.offset = 0x010 ∨ (0x020 ≤ r.offset ∧ r.offset ≤ 0x048) ∨
        (0x050 ≤ r.offset ∧ r.offset ≤ 0x064) := by
  cases r with
  | key k => simp [Reg.writable, Reg.offset]; omega
  | nonce k => simp [Reg.writable, Reg.offset]; omega
  | _ => decide

/-- Only the registers named by R70 (c) are drawn while busy. -/
theorem Reg.volatile_eq_false {r : Reg} (h : r ∉ ([.xLo, .xHi, .yLo, .yHi, .zLo, .zHi, .kb] : List Reg)) :
    r.volatile = false := by
  cases r <;> simp [Reg.volatile] at h ⊢

/-- Outside the buffers the window holds registers and reserved offsets (R61). -/
theorem regionOf_outside {off : Nat} (h : ¬ (0x1000 ≤ off ∧ off < 0x3000)) :
    regionOf off = .registers ∨ regionOf off = .reserved := by
  by_cases hr : off < 0x1000
  · exact .inl (by simp [regionOf, hr])
  · exact .inr (by simp [regionOf, hr, show ¬ off < 0x2000 by omega, show ¬ off < 0x3000 by omega])

/-! ### Reads -/

/-- The agenda and the recorded answers are in no register. -/
theorem State.readReg_log (s : State) (es : List Event) (rs : List Response) (r : Reg) :
    State.readReg { s with agenda := es, responses := rs } r = s.readReg r := by
  cases r <;> rfl

/-- While idle, and while busy where no running command can change it, a register's value is read (R63, R70). -/
theorem State.readOffset_of_stable {off : Nat} {r : Reg} {s : State} (h : Reg.ofOffset off = some r)
    (hs : s.busy = false ∨ r.volatile = false) : s.readOffset off = (s.readReg r, s) := by
  have hd : (s.busy && r.volatile) = false := by rcases hs with h' | h' <;> simp [h']
  simp [State.readOffset, h, hd]

/-- A reserved register offset reads 0 (R33). -/
theorem State.readOffset_of_reserved {off : Nat} (s : State) (h : Reg.ofOffset off = none) :
    s.readOffset off = (0, s) := by
  simp [State.readOffset, h]

/-- A word read of a register whose value is no draw answers the value and records nothing else (R63, R69). -/
theorem step_read_stable {s : State} {r : Reg} {off : Nat} {es : List Event} (h : Reg.ofOffset off = some r)
    (hs : s.busy = false ∨ r.volatile = false) (ha : s.agenda = .read (engineBase s.cfg + off) .word :: es) :
    step s = .next { s with agenda := es, responses := .data (s.readReg r) :: s.responses } := by
  have hread := State.readOffset_of_stable (s := { s with agenda := es }) h hs
  have hval : State.readReg { s with agenda := es } r = s.readReg r := s.readReg_log es s.responses r
  rw [step_read_register h ha, hread, hval]
  rfl

/-- A word read of a reserved offset of the register space or of the reserved window answers 0 (R33). -/
theorem step_read_reserved {s : State} {off : Nat} {es : List Event} (hlt : off < 0x4000) (h4 : off % 4 = 0)
    (hbuf : ¬ (0x1000 ≤ off ∧ off < 0x3000)) (hreg : Reg.ofOffset off = none)
    (ha : s.agenda = .read (engineBase s.cfg + off) .word :: es) :
    step s = .next { s with agenda := es, responses := .data 0 :: s.responses } := by
  have hok : accessOk off .word = true := accessOk_iff.2 ⟨h4, .inl rfl⟩
  have hserve : State.serveRead off .word { s with agenda := es } = (.data 0, { s with agenda := es }) := by
    rcases regionOf_outside hbuf with hr | hr <;>
      simp [State.serveRead, hok, hr, State.readOffset_of_reserved _ hreg]
  rw [step_read hlt ha, hserve]
  rfl

/-- Settles O21: the listed map is each register with its offset and value, and the offsets are `Reg.offset`. -/
theorem registerReadAnswersValue : Obligations.RegisterReadAnswersValue := by
  unfold Obligations.RegisterReadAnswersValue
  rintro s map hmap
  have hlist : map = Reg.all.map fun r => (r.offset, r, s.readReg r) := hmap.trans rfl
  subst hlist
  refine ⟨fun off r v hmem => ?_, fun off r h => ?_⟩
  · obtain ⟨r', -, heq⟩ := List.mem_map.1 hmem
    cases heq
    exact ⟨r.ofOffset_offset, rfl, fun es hs ha =>
      step_read_stable r.ofOffset_offset (hs.imp_right Reg.volatile_eq_false) ha⟩
  · exact ⟨s.readReg r, List.mem_map.2 ⟨r, r.mem_all, by rw [Reg.ofOffset_eq_some_iff.1 h]⟩⟩

/-! ### Writes -/

/-- A write to a writable register while idle (R63). -/
theorem State.writeOffset_of_writable {off : Nat} {r : Reg} (h : Reg.ofOffset off = some r) (hw : r.writable = true)
    (v : Word) (s : State) : s.writeOffset off v = s.writeReg r v := by
  have hcmd : r ≠ .cmd := by rintro rfl; cases hw
  simp [State.writeOffset, h, hcmd]

/-- A write to a reserved offset, or to a register that is neither writable nor CMD, changes nothing (R21, R33). -/
theorem State.writeOffset_of_ignored {off : Nat}
    (h : ∀ r, Reg.ofOffset off = some r → r ≠ .cmd ∧ r.writable = false) (v : Word) (s : State) :
    s.writeOffset off v = s := by
  rcases s.writeOffset_cases off v with ⟨-, he⟩ | ⟨hcmd, -⟩ | ⟨r, hr, -, he⟩
  · exact he
  · exact absurd rfl (h _ hcmd).1
  · rw [he, State.writeReg_of_not_writable (h r hr).2]

/-- A word write of a writable register while idle (R63). -/
theorem step_write_writable {s : State} {r : Reg} {off : Nat} {v : Word} {es : List Event}
    (h : Reg.ofOffset off = some r) (hw : r.writable = true) (hb : s.busy = false)
    (ha : s.agenda = .write (engineBase s.cfg + off) .word v :: es) :
    step s = .next { s.writeReg r v with agenda := es, responses := .ok :: s.responses } := by
  rw [step_write_register h hb ha, State.writeOffset_of_writable h hw]
  cases r <;> rfl

/-- A word write that is served where nothing takes it: ignored while busy, and while idle at a register offset that
ignores it or in the reserved window (R33, R70 a). -/
theorem step_write_ignored {s : State} {off : Nat} {v : Word} {es : List Event} (hlt : off < 0x4000) (h4 : off % 4 = 0)
    (hbuf : ¬ (0x1000 ≤ off ∧ off < 0x3000))
    (hreg : ∀ r, Reg.ofOffset off = some r → r ≠ .cmd ∧ r.writable = false)
    (ha : s.agenda = .write (engineBase s.cfg + off) .word v :: es) :
    step s = .next { s with agenda := es, responses := .ok :: s.responses } := by
  have hserve : State.serveWrite off .word v { s with agenda := es } = (.ok, { s with agenda := es }) := by
    rcases State.serveWrite_cases off .word v { s with agenda := es } with
      ⟨hbad, -⟩ | ⟨-, -, he⟩ | ⟨-, -, -, he⟩ | ⟨-, -, hr, -⟩ | ⟨-, -, -, he⟩
    · exact absurd (accessOk_iff.2 ⟨h4, .inl rfl⟩) (by simp [hbad])
    · exact he
    · rw [he, State.writeOffset_of_ignored hreg]
    · rcases regionOf_outside hbuf with ho | ho <;> simp [ho] at hr
    · exact he
  rw [step_write hlt ha, hserve]
  rfl

/-- Settles O24: the write and the read are two steps, and the read's offset is that of no other register. -/
theorem writableRegisterReadsBack : Obligations.WritableRegisterReadsBack := by
  unfold Obligations.WritableRegisterReadsBack
  intro s off v hb hoff h4 ha
  obtain ⟨r, hr⟩ : ∃ r, Reg.ofOffset off = some r := by
    refine Option.ne_none_iff_exists'.1 fun hn => ?_
    have := (Reg.ofOffset_eq_none_iff h4).1 hn
    simp only [List.mem_cons, List.not_mem_nil, or_false] at this
    omega
  have hw : r.writable = true := Reg.writable_iff.2 (Reg.ofOffset_eq_some_iff.1 hr ▸ hoff)
  obtain ⟨hmem, -, hstatus, -⟩ := State.writeReg_frame r v s
  have hwrite := step_write_writable hr hw hb ha
  have hread := step_read_stable (es := []) hr
    (s := { s.writeReg r v with agenda := [.read (engineBase s.cfg + off) .word], responses := .ok :: s.responses })
    (.inl (by simpa [State.busy] using hb)) (by simp)
  rw [State.readReg_log, State.readReg_writeReg_self hw] at hread
  refine ⟨_, (run_succ_of_next hwrite).trans (run_succ_of_next hread), rfl, hmem, hstatus, ?_⟩
  intro off' r' hne hr'
  have hrr : r' ≠ r := by
    rintro rfl
    exact hne ((Reg.ofOffset_eq_some_iff.1 hr').trans (Reg.ofOffset_eq_some_iff.1 hr).symm)
  exact (State.readReg_log _ _ _ r').trans (State.readReg_writeReg_ne hrr v s)

/-- Settles O25: none of these offsets is that of a writable register or of CMD, and a reserved one has no register. -/
theorem readOnlyAndReservedIgnoreWrites : Obligations.ReadOnlyAndReservedIgnoreWrites := by
  unfold Obligations.ReadOnlyAndReservedIgnoreWrites
  intro s off v es hlt h4 hoff
  simp only [List.mem_cons, List.not_mem_nil, or_false] at hoff
  refine ⟨step_write_ignored hlt h4 (by omega) fun r hr => ?_, fun hres ha => ?_⟩
  · have hat := Reg.ofOffset_eq_some_iff.1 hr
    refine ⟨?_, Bool.eq_false_iff.2 fun hw => ?_⟩
    · rintro rfl
      simp only [Reg.offset] at hat
      omega
    · have := Reg.writable_iff.1 hw
      omega
  · exact step_read_reserved hlt h4 (by omega) ((Reg.ofOffset_eq_none_iff h4).2 hres) ha

/-! ### Key and nonce bytes -/

/-- Settles O37: 4k + b has quotient k and remainder b by 4. -/
theorem keyAndNonceBytesLittleEndian : Obligations.KeyAndNonceBytesLittleEndian := by
  unfold Obligations.KeyAndNonceBytesLittleEndian
  intro s
  have hdiv (k : Nat) (b : Fin 4) : (4 * k + b.val) / 4 = k := by omega
  have hmod (k : Nat) (b : Fin 4) : (4 * k + b.val) % 4 = b.val := by omega
  refine ⟨fun k b => ?_, fun k b => ?_⟩
  · simp [State.keyByte, byteOfWord, State.readReg, hdiv, hmod]
  · simp [State.nonceByte, byteOfWord, State.readReg, hdiv, hmod]

end Sys2Proof.Machine
end

section
/-! STATUS (R24), and what a step keeps (R20, R28, R29, R66, R94): what each operation leaves of the memory's form, of
STATUS, and of KEY and NONCE, and the statements about every step. -/

namespace Sys2Proof.Machine

open Sys2Proof

/-! ### The STATUS word -/

/-- The flag bits of STATUS, and the reserved bit above them (R24). -/
theorem State.statusWord_flags (s : State) :
    s.statusWord.getLsbD 0 = s.busy ∧ s.statusWord.getLsbD 1 = s.done ∧ s.statusWord.getLsbD 2 = s.errFlag ∧
      s.statusWord.getLsbD 3 = false := by
  simp only [State.statusWord, BitVec.getLsbD_append]
  simp

/-- From bit 4 on STATUS holds the error code, with zeros above it (R24). -/
theorem State.statusWord_code (s : State) (k : Nat) : s.statusWord.getLsbD (4 + k) = s.err.code.getLsbD k := by
  simp only [State.statusWord, BitVec.getLsbD_append]
  simpa using BitVec.lt_of_getLsbD

/-- ERR is 0 where no error is recorded, and nowhere else (R24). -/
theorem State.errFlag_eq_false_iff {s : State} : s.errFlag = false ↔ s.err = .noError := by
  simp [State.errFlag]

/-- Settles O16: the fields by the bits of STATUS, the codes by the error's name. -/
theorem statusWordFields : Obligations.StatusWordFields := by
  unfold Obligations.StatusWordFields
  intro s
  obtain ⟨hbusy, hdone, herr, hreserved⟩ := s.statusWord_flags
  refine ⟨hbusy, hdone, herr, hreserved, ?errcode, ?above, ?_, ?_, ?_, ?_, ?noError⟩
  case errcode =>
    refine BitVec.eq_of_getLsbD_eq fun i hi => ?_
    simp [hi, s.statusWord_code]
  case above =>
    refine BitVec.eq_of_getLsbD_eq fun i hi => ?_
    have hzero : s.err.code.getLsbD (4 + i) = false := BitVec.getLsbD_of_ge _ _ (by omega)
    rw [BitVec.getLsbD_extractLsb', show 8 + i = 4 + (4 + i) by omega, s.statusWord_code, hzero]
    simp
  case noError =>
    intro h
    rw [State.errFlag_eq_false_iff.1 h]
    rfl
  all_goals
    intro h
    rw [h]
    rfl

/-- STATUS is made of PHASE, DONE and ERR alone (R24). -/
theorem State.statusWord_congr {s t : State} (hp : t.phase = s.phase) (hd : t.done = s.done) (he : t.err = s.err) :
    t.statusWord = s.statusWord := by
  simp only [State.statusWord, State.errFlag, State.busy, hp, hd, he]

/-! ### Coherence of STATUS -/

/-- BUSY reads PHASE (R24). -/
theorem State.busy_eq_false_iff {s : State} : s.busy = false ↔ s.phase = .idle := by
  cases h : s.phase <;> simp [State.busy, h]

theorem State.busy_of_phase {s : State} {w : Word} (h : s.phase = .busy w) : s.busy = true := by
  simp [State.busy, h]

/-- The three forms of a coherent STATUS: idle after a command, idle before any, and busy with an accepted one
(R20, R24, R224). -/
theorem State.statusCoherent_iff {s : State} :
    s.statusCoherent = true ↔
      (s.phase = .idle ∧ s.done = true) ∨
      (s.phase = .idle ∧ s.done = false ∧ s.err = .noError) ∨
      (∃ w i, s.phase = .busy w ∧ s.done = false ∧ s.err = .noError ∧
        decodeWord w = .ok i ∧ (i.usesLen = true → s.lengthError = none)) := by
  cases hp : s.phase with
  | idle => cases hd : s.done <;> simp [State.statusCoherent, hp, hd]
  | busy w =>
    cases hw : decodeWord w with
    | error e => simp [State.statusCoherent, hp, hw]
    | ok i => cases hu : i.usesLen <;> simp [State.statusCoherent, hp, hw, hu, and_assoc]

/-- Settles O17, by the three forms of a coherent STATUS. -/
theorem statusReadsLegalValue : Obligations.StatusReadsLegalValue := by
  unfold Obligations.StatusReadsLegalValue
  rintro s ⟨-, -, hs⟩
  unfold State.statusWord State.errFlag
  rcases State.statusCoherent_iff.1 hs with ⟨hp, hd⟩ | ⟨hp, hd, he⟩ | ⟨w, i, hp, hd, he, -, -⟩
  · rw [State.busy_eq_false_iff.2 hp, hd]
    cases s.err <;> decide
  · rw [State.busy_eq_false_iff.2 hp, hd, he]
    decide
  · rw [State.busy_of_phase hp, hd, he]
    decide

/-- A completed command leaves STATUS coherent, whatever the state it ran in (R225). -/
theorem State.statusCoherent_complete (s : State) (c : ErrCode) : (s.complete c).statusCoherent = true :=
  State.statusCoherent_iff.2 (.inl ⟨rfl, rfl⟩)

/-- A CMD write leaves STATUS coherent, whatever it was (R224). -/
theorem State.statusCoherent_accept (w : Word) (s : State) : (s.accept w).statusCoherent = true := by
  rcases s.accept_cases w with ⟨e, -, h⟩ | ⟨i, e, -, -, -, h⟩ | ⟨i, hw, hl, h⟩
  · exact h ▸ s.statusCoherent_complete _
  · exact h ▸ s.statusCoherent_complete _
  · exact h ▸ State.statusCoherent_iff.2 (.inr (.inr ⟨w, i, rfl, rfl, rfl, hw, hl⟩))

/-- While idle the length is no part of STATUS's coherence. -/
theorem State.statusCoherent_of_idle {s t : State} (h : s.statusCoherent = true) (hi : s.phase = .idle)
    (hp : t.phase = s.phase) (hd : t.done = s.done) (he : t.err = s.err) : t.statusCoherent = true := by
  simpa only [State.statusCoherent, hp, hd, he, hi] using h

/-! ### The form of the memory -/

/-- The written bytes in their one form and inside the two buffers (R66). -/
def Memory.Sound (m : Memory) : Prop := m.wf ∧ m.inBuffers = true

theorem Memory.Sound.forget {m : Memory} (h : m.Sound) (a n : Nat) : (m.forget a n).Sound :=
  ⟨Memory.wf_forget h.1 a n, Memory.inBuffers_forget h.2 a n⟩

theorem Memory.Sound.xorBytes {m : Memory} (h : m.Sound) (ks : List Byte) (i d : Nat) :
    (Machine.xorBytes ks i m d).1.Sound :=
  xorBytes_wf ks i m d h.1 h.2

theorem Memory.Sound.writeBytes {s : State} (h : s.mem.Sound) (n off : Nat) (v : Word) :
    (State.writeBytes n off v s).mem.Sound :=
  State.writeBytes_wf n off v s h.1 h.2

theorem State.inv_iff {s : State} : s.Inv ↔ s.mem.Sound ∧ s.statusCoherent = true := and_assoc.symm

/-- Settles O12: the reset state is idle with no error and no written byte, and either choice of its mixer parameters
is admissible. -/
theorem resetMeetsInvariant : Obligations.ResetMeetsInvariant := by
  unfold Obligations.ResetMeetsInvariant
  refine ⟨⟨Memory.wf_reset, rfl, rfl⟩, ?_⟩
  show mixerParams.wf = true
  unfold mixerParams
  split
  · assumption
  · exact testProfile_wf

/-! ### What a command leaves -/

theorem State.sameOperands_refl (s : State) : s.sameOperands s := ⟨rfl, rfl, rfl, rfl, rfl, rfl, rfl⟩

/-- Every command ends by completing, from a state with the operands it began with and a memory still in its form
(R94, R225). -/
theorem exec_completes (i : Instr) (s : State) :
    ∃ c u, exec i s = .next (u.complete c) ∧ s.sameOperands u ∧ (s.mem.Sound → u.mem.Sound) := by
  rcases exec_cases i s with ⟨-, h⟩ | ⟨-, h⟩ | ⟨-, b, -, h⟩ | ⟨-, -, h⟩ | ⟨-, h⟩
  · exact ⟨_, _, h, by simp [State.sameOperands], by simp⟩
  · exact ⟨_, _, h, by simp [State.sameOperands], by simp⟩
  · exact ⟨_, _, h, by simp [State.sameOperands], by simp⟩
  · exact ⟨_, s, h, s.sameOperands_refl, id⟩
  · rcases s.drive_cases with ⟨e, -, hd⟩ | ⟨-, -, hd⟩ | ⟨ks, c, -, -, hd⟩
    · exact ⟨_, s, hd ▸ h, s.sameOperands_refl, id⟩
    · exact ⟨_, s, hd ▸ h, s.sameOperands_refl, id⟩
    · exact ⟨_, _, hd ▸ h, by simp [State.sameOperands], fun hm => by simpa using hm.xorBytes ks 0 s.draws⟩

/-- The engine's turn does nothing while idle, and completes while busy (R190, R225). -/
theorem engineTurn_next {s t : State} (h : engineTurn s = .next t) :
    (s.phase = .idle ∧ t = s) ∨
    (s.busy = true ∧ ∃ c u, t = u.complete c ∧ s.sameOperands u ∧ (s.mem.Sound → u.mem.Sound)) := by
  rcases engineTurn_cases s with ⟨hp, h'⟩ | ⟨w, i, hp, -, h'⟩ | ⟨w, e, hp, -, h'⟩
  · cases h'.symm.trans h
    exact .inl ⟨hp, rfl⟩
  · obtain ⟨c, u, hu, hsame, hmem⟩ := exec_completes i s
    cases (h'.trans hu).symm.trans h
    exact .inr ⟨State.busy_of_phase hp, c, u, rfl, hsame, hmem⟩
  · cases h'.symm.trans h
    exact .inr ⟨State.busy_of_phase hp, _, s, rfl, s.sameOperands_refl, id⟩

/-! ### What a write leaves -/

/-- A CMD write changes PHASE and STATUS alone (R224). -/
theorem State.accept_state (w : Word) (s : State) :
    ∃ p d e, s.accept w = { s with phase := p, done := d, err := e } := by
  rcases s.accept_cases w with ⟨e, -, h⟩ | ⟨i, e, -, -, -, h⟩ | ⟨i, -, -, h⟩ <;> exact ⟨_, _, _, h⟩

/-- The effect of a write access: none, or while idle a command is taken, a register written by an aligned word, or
buffer bytes stored (R62, R63, R70 a). -/
theorem State.serveWrite_effect (off : Nat) (w : BusWidth) (v : Word) (s : State) :
    (s.serveWrite off w v).2 = s ∨
    (s.phase = .idle ∧ w = .word ∧ off = Reg.cmd.offset ∧ (s.serveWrite off w v).2 = s.accept v) ∨
    (s.phase = .idle ∧ w = .word ∧ ∃ r, Reg.ofOffset off = some r ∧ (s.serveWrite off w v).2 = s.writeReg r v) ∨
    (s.phase = .idle ∧ (s.serveWrite off w v).2 = State.writeBytes w.bytes off v s) := by
  rcases s.serveWrite_cases off w v with
    ⟨-, h⟩ | ⟨-, -, h⟩ | ⟨hok, hb, hr, h⟩ | ⟨-, hb, -, h⟩ | ⟨-, -, -, h⟩
  · exact .inl (by rw [h])
  · exact .inl (by rw [h])
  · have hidle := State.busy_eq_false_iff.1 hb
    have hword : w = .word := by
      rcases (accessOk_iff.1 hok).2 with hw | ⟨h1, h2⟩
      · exact hw
      · rcases regionOf_buffer h1 h2 with h' | h' <;> cases hr.symm.trans h'
    rcases s.writeOffset_cases off v with ⟨-, he⟩ | ⟨hcmd, he⟩ | ⟨r, hreg, -, he⟩
    · exact .inl (by rw [h, he])
    · exact .inr (.inl ⟨hidle, hword, Reg.ofOffset_eq_some_iff.1 hcmd, by rw [h, he]⟩)
    · exact .inr (.inr (.inl ⟨hidle, hword, r, hreg, by rw [h, he]⟩))
  · exact .inr (.inr (.inr ⟨State.busy_eq_false_iff.1 hb, by rw [h]⟩))
  · exact .inl (by rw [h])

/-- A write to a register outside the offsets of KEY and NONCE leaves both alone (R28, R29). -/
theorem State.writeReg_keyMaterial {r : Reg} (h : ¬ (0x020 ≤ r.offset ∧ r.offset ≤ 0x048)) (v : Word) (s : State) :
    (s.writeReg r v).key = s.key ∧ (s.writeReg r v).nonce = s.nonce := by
  cases r with
  | key k => exact absurd (show 0x020 ≤ 0x020 + 4 * k.val ∧ 0x020 + 4 * k.val ≤ 0x048 by omega) h
  | nonce k => exact absurd (show 0x020 ≤ 0x040 + 4 * k.val ∧ 0x040 + 4 * k.val ≤ 0x048 by omega) h
  | _ => exact ⟨rfl, rfl⟩

/-! ### Every step -/

/-- A step that answers, by its event: the engine's turn, the reset input, a read that records an answer, or a write
inside the window (R60, R71, R190, R250). -/
theorem step_next_cases {s t : State} (h : step s = .next t) :
    (∃ es, (s.agenda = [] ∨ s.agenda = .engine :: es) ∧ engineTurn { s with agenda := es } = .next t) ∨
    (∃ es, s.agenda = .reset :: es ∧ t = State.resetInput { s with agenda := es }) ∨
    (∃ a w es r d, s.agenda = .read a w :: es ∧ t = State.respond r { s with agenda := es, draws := s.draws + d }) ∨
    (∃ off w v es r, s.agenda = .write (engineBase s.cfg + off) w v :: es ∧
      t = State.respond r (State.serveWrite off w v { s with agenda := es }).2) := by
  rcases step_cases s with ⟨ha, h'⟩ | ⟨es, ha, h'⟩ | ⟨es, ha, h'⟩ | ⟨a, w, es, ha, h'⟩ | ⟨a, w, v, es, ha, h'⟩
  · have hs : { s with agenda := [] } = s := by rw [← ha]
    exact .inl ⟨[], .inl ha, hs ▸ h'.symm.trans h⟩
  · exact .inl ⟨es, .inr ha, h'.symm.trans h⟩
  · cases h'.symm.trans h
    exact .inr (.inl ⟨es, ha, rfl⟩)
  · rcases hostRead_cases a w { s with agenda := es } with ⟨off, r, d, -, -, hr⟩ | ⟨-, hr⟩
    · cases (h'.trans hr).symm.trans h
      exact .inr (.inr (.inl ⟨a, w, es, r, d, ha, rfl⟩))
    · cases (h'.trans hr).symm.trans h
  · rcases hostWrite_cases a w v { s with agenda := es } with ⟨off, hoff, hw⟩ | ⟨-, hw⟩
    · obtain ⟨-, haddr⟩ := busOffset_eq_some hoff
      cases (h'.trans hw).symm.trans h
      exact .inr (.inr (.inr ⟨off, w, v, es, _, haddr ▸ ha, rfl⟩))
    · cases (h'.trans hw).symm.trans h

/-- A write access keeps the invariant. -/
theorem State.inv_serveWrite {s : State} (h : s.Inv) (off : Nat) (w : BusWidth) (v : Word) :
    (s.serveWrite off w v).2.Inv := by
  obtain ⟨hmem, hstatus⟩ := State.inv_iff.1 h
  rcases s.serveWrite_effect off w v with he | ⟨-, -, -, he⟩ | ⟨hidle, -, r, -, he⟩ | ⟨hidle, he⟩ <;> rw [he]
  · exact h
  · obtain ⟨p, d, e, ha⟩ := s.accept_state v
    exact State.inv_iff.2 ⟨by rw [ha]; exact hmem, s.statusCoherent_accept v⟩
  · refine State.inv_iff.2 ⟨by simpa using hmem, State.statusCoherent_of_idle hstatus hidle ?_ ?_ ?_⟩ <;> simp
  · obtain ⟨m, hm⟩ := State.writeBytes_state w.bytes off v s
    refine State.inv_iff.2 ⟨hmem.writeBytes _ off v, State.statusCoherent_of_idle hstatus hidle ?_ ?_ ?_⟩ <;> rw [hm]

/-- Settles O11, by the event the step takes. -/
theorem everyStepKeepsInvariant : Obligations.EveryStepKeepsInvariant := by
  unfold Obligations.EveryStepKeepsInvariant
  intro s t hs h
  obtain ⟨hmem, hstatus⟩ := State.inv_iff.1 hs
  rcases step_next_cases h with ⟨es, -, hengine⟩ | ⟨es, -, rfl⟩ | ⟨a, w, es, r, d, -, rfl⟩ | ⟨off, w, v, es, r, -, rfl⟩
  · rcases engineTurn_next hengine with ⟨-, rfl⟩ | ⟨-, c, u, rfl, -, hu⟩
    · exact hs
    · exact State.inv_iff.2 ⟨hu hmem, u.statusCoherent_complete c⟩
  · exact State.inv_iff.2 ⟨hmem.forget _ _, rfl⟩
  · exact hs
  · exact State.inv_serveWrite (s := { s with agenda := es }) hs off w v

/-- Settles O14: a command keeps its operands, and of the host's accesses only a register write at the offsets of KEY
and NONCE reaches them. -/
theorem keyAndNonceChangeOnlyByHostOrReset : Obligations.KeyAndNonceChangeOnlyByHostOrReset := by
  unfold Obligations.KeyAndNonceChangeOnlyByHostOrReset
  intro s t h hchange
  have hkept : ¬ (t.key = s.key ∧ t.nonce = s.nonce) := by tauto
  rcases step_next_cases h with ⟨es, -, hengine⟩ | ⟨es, ha, -⟩ | ⟨a, w, es, r, d, -, rfl⟩ | ⟨off, w, v, es, r, ha, rfl⟩
  · rcases engineTurn_next hengine with ⟨-, rfl⟩ | ⟨-, c, u, rfl, ⟨-, -, -, hkey, hnonce, -, -⟩, -⟩
    · exact absurd ⟨rfl, rfl⟩ hkept
    · exact absurd ⟨hkey, hnonce⟩ hkept
  · exact .inl ⟨es, ha⟩
  · exact absurd ⟨rfl, rfl⟩ hkept
  · rw [State.respond_key, State.respond_nonce] at hkept
    rcases State.serveWrite_effect off w v { s with agenda := es } with
      he | ⟨-, -, -, he⟩ | ⟨hidle, rfl, r', hr, he⟩ | ⟨-, he⟩ <;> rw [he] at hkept
    · exact absurd ⟨rfl, rfl⟩ hkept
    · obtain ⟨p, d, e, hacc⟩ := State.accept_state v { s with agenda := es }
      exact absurd (by rw [hacc]; exact ⟨rfl, rfl⟩) hkept
    · obtain rfl := Reg.ofOffset_eq_some_iff.1 hr
      have hat : 0x020 ≤ r'.offset ∧ r'.offset ≤ 0x048 := by
        by_contra hout
        exact hkept (State.writeReg_keyMaterial hout v _)
      exact .inr ⟨hidle, _, v, es, ha, hat.1, hat.2, (Reg.ofOffset_some hr).2⟩
    · obtain ⟨m, hm⟩ := State.writeBytes_state w.bytes off v { s with agenda := es }
      exact absurd (by rw [hm]; exact ⟨rfl, rfl⟩) hkept

/-- Settles O15: reads and other writes leave PHASE, DONE and ERR alone. -/
theorem statusChangesOnlyByCommandOrReset : Obligations.StatusChangesOnlyByCommandOrReset := by
  unfold Obligations.StatusChangesOnlyByCommandOrReset
  intro s t h hchange
  rcases step_next_cases h with ⟨es, ha, hengine⟩ | ⟨es, ha, -⟩ | ⟨a, w, es, r, d, -, rfl⟩ | ⟨off, w, v, es, r, ha, rfl⟩
  · rcases engineTurn_next hengine with ⟨-, rfl⟩ | ⟨hbusy, -⟩
    · exact absurd rfl hchange
    · exact .inr (.inl ⟨hbusy, ha.imp_right fun ha => ⟨es, ha⟩⟩)
  · exact .inl ⟨es, ha⟩
  · exact absurd rfl hchange
  · have hserved : (State.serveWrite off w v { s with agenda := es }).2.statusWord ≠ s.statusWord := hchange
    rcases State.serveWrite_effect off w v { s with agenda := es } with
      he | ⟨hidle, rfl, rfl, -⟩ | ⟨-, -, r', -, he⟩ | ⟨-, he⟩
    · exact absurd (by rw [he]; rfl) hserved
    · exact .inr (.inr ⟨hidle, v, es, ha⟩)
    · exact absurd (by rw [he]; exact State.statusWord_congr (by simp) (by simp) (by simp)) hserved
    · obtain ⟨m, hm⟩ := State.writeBytes_state w.bytes off v { s with agenda := es }
      exact absurd (by rw [he, hm]; rfl) hserved

/-! ### Reset -/

/-- Settles O58: the reset state is a constant, of which only the OPEN parameters are unknown. -/
theorem resetValues : Obligations.ResetValues := by
  unfold Obligations.ResetValues
  obtain ⟨hid, hwarmup, hmaxlen⟩ := State.reset.readReg_constants
  obtain ⟨hsl, hsh, hrl, hrh, hbl, hbh, hdl, hdh⟩ := State.reset.readReg_parameters
  exact ⟨rfl, rfl, by decide, by decide, by decide, hid, hwarmup, hmaxlen, hsl, hsh, hrl, hrh, hbl, hbh, hdl, hdh,
    by decide, fun _ => rfl⟩

end Sys2Proof.Machine
end

section
/-! The bus port as steps (R60 to R70): accesses that are refused, writes while busy, draws while busy, reads and writes
of the two buffers, and accesses outside the window. -/

namespace Sys2Proof.Machine

open Sys2Proof

/-! ### Accesses by their answer -/

/-- A read event whose access has this answer and leaves this state (R60). -/
theorem step_read_of_serveRead {s t : State} {off : Nat} {w : BusWidth} {r : Response} {es : List Event}
    (hlt : off < 0x4000) (hserve : State.serveRead off w { s with agenda := es } = (r, t))
    (ha : s.agenda = .read (engineBase s.cfg + off) w :: es) : step s = .next (t.respond r) := by
  rw [step_read hlt ha, hserve]

/-- A write event whose access has this answer and leaves this state (R60). -/
theorem step_write_of_serveWrite {s t : State} {off : Nat} {w : BusWidth} {v : Word} {r : Response} {es : List Event}
    (hlt : off < 0x4000) (hserve : State.serveWrite off w v { s with agenda := es } = (r, t))
    (ha : s.agenda = .write (engineBase s.cfg + off) w v :: es) : step s = .next (t.respond r) := by
  rw [step_write hlt ha, hserve]

/-- A read the port does not serve is a bus error without effect (R62). -/
theorem State.serveRead_of_not_ok {off : Nat} {w : BusWidth} (s : State) (h : accessOk off w = false) :
    s.serveRead off w = (.busError, s) := by
  simp [State.serveRead, h]

/-- A write the port does not serve is a bus error without effect (R62). -/
theorem State.serveWrite_of_not_ok {off : Nat} {w : BusWidth} (v : Word) (s : State) (h : accessOk off w = false) :
    s.serveWrite off w v = (.busError, s) := by
  simp [State.serveWrite, h]

/-- A write while busy is answered by its alignment and width, and ignored (R70 a). -/
theorem State.serveWrite_busy (off : Nat) (w : BusWidth) (v : Word) {s : State} (hb : s.busy = true) :
    s.serveWrite off w v = (if accessOk off w then .ok else .busError, s) := by
  rcases s.serveWrite_cases off w v with ⟨hk, h⟩ | ⟨hk, -, h⟩ | ⟨-, hi, -⟩ | ⟨-, hi, -⟩ | ⟨-, hi, -⟩
  · simpa [hk] using h
  · simpa [hk] using h
  all_goals simp [hb] at hi

/-- Settles O19: such an access is not served, whichever its direction. -/
theorem badAccessGetsBusError : Obligations.BadAccessGetsBusError := by
  unfold Obligations.BadAccessGetsBusError
  intro s off w v es hlt hbad ha
  have hk : accessOk off w = false := accessOk_eq_false hbad
  rcases ha with ha | ha
  · exact step_read_of_serveRead hlt (State.serveRead_of_not_ok _ hk) ha
  · exact step_write_of_serveWrite hlt (State.serveWrite_of_not_ok v _ hk) ha

/-- Settles O20: the test of the answer is `accessOk`, by `accessOk_iff`. -/
theorem busyWriteIgnored : Obligations.BusyWriteIgnored := by
  unfold Obligations.BusyWriteIgnored
  intro s off w v es hlt hb ha
  simp only [← accessOk_iff]
  exact step_write_of_serveWrite hlt (State.serveWrite_busy off w v (s := { s with agenda := es }) hb) ha

/-! ### Reads -/

/-- While busy a volatile register answers the next free value (R70 c). -/
theorem State.readOffset_of_volatile {off : Nat} {r : Reg} {s : State} (h : Reg.ofOffset off = some r)
    (hv : r.volatile = true) (hb : s.busy = true) : s.readOffset off = s.drawWord := by
  simp [State.readOffset, h, hv, hb]

/-- A word read of a volatile register while busy counts one draw and answers it (R70 c). -/
theorem step_read_volatile {s : State} {r : Reg} {off : Nat} {es : List Event} (h : Reg.ofOffset off = some r)
    (hv : r.volatile = true) (hb : s.busy = true) (ha : s.agenda = .read (engineBase s.cfg + off) .word :: es) :
    step s = .next { s with
      agenda := es, draws := s.draws + 1, responses := .data (Config.freeWord s.draws) :: s.responses } := by
  have hread := State.readOffset_of_volatile (s := { s with agenda := es }) h hv hb
  rw [step_read_register h ha, hread]
  rfl

/-- The registers that are drawn while busy, by their offsets (R21, R70 c). -/
theorem Reg.exists_volatile_of_mem {off : Nat}
    (h : off ∈ ([0x050, 0x054, 0x058, 0x05C, 0x060, 0x064, 0x014] : List Nat)) :
    ∃ r, Reg.ofOffset off = some r ∧ r.volatile = true := by
  have hall : ∀ r ∈ ([.xLo, .xHi, .yLo, .yHi, .zLo, .zHi, .kb] : List Reg), r.volatile = true := by decide
  have hmap : [0x050, 0x054, 0x058, 0x05C, 0x060, 0x064, 0x014] =
      ([.xLo, .xHi, .yLo, .yHi, .zLo, .zHi, .kb] : List Reg).map Reg.offset := rfl
  rw [hmap] at h
  obtain ⟨r, hr, rfl⟩ := List.mem_map.1 h
  exact ⟨r, r.ofOffset_offset, hall r hr⟩

/-- Settles O22: a volatile register is one draw, and DATA_OUT a draw for each byte. -/
theorem busyVolatileReadIsDraw : Obligations.BusyVolatileReadIsDraw := by
  unfold Obligations.BusyVolatileReadIsDraw
  intro s off w es hb ha
  refine ⟨fun hw hoff => ?register, fun h1 h2 h4 => ?dataOut⟩
  case register =>
    subst hw
    obtain ⟨r, hr, hv⟩ := Reg.exists_volatile_of_mem hoff
    exact step_read_volatile hr hv hb ha
  case dataOut =>
    have hserve := State.serveRead_dataOut_busy { s with agenda := es } h1 h2 h4 hb
    obtain ⟨hstate, hlt, hbytes⟩ := State.drawBytes_spec w.bytes off { s with agenda := es } w.bytes_le (by omega)
      (BusWidth.end_le h2 rfl h4)
    rw [hstate] at hserve
    exact ⟨_, step_read_of_serveRead (by omega) hserve ha, hlt, hbytes⟩

/-- Settles O23: of the steps that answer, the one that takes a read event. -/
theorem readsHaveNoSideEffect : Obligations.ReadsHaveNoSideEffect := by
  unfold Obligations.ReadsHaveNoSideEffect
  intro s t a w es ha h
  rcases step_next_cases h with
    ⟨es', ha' | ha', -⟩ | ⟨es', ha', -⟩ | ⟨a', w', es', r, d, ha', rfl⟩ | ⟨off, w', v, es', r, ha', -⟩ <;>
    cases ha.symm.trans ha'
  exact ⟨r, d, rfl⟩

/-! ### The buffers -/

/-- An aligned read of a buffer whose bytes no running command changes reads its bytes (R66, R70 b). -/
theorem State.serveRead_stable_buffer {off : Nat} {w : BusWidth} (s : State) (h1 : 0x1000 ≤ off) (h2 : off < 0x3000)
    (h4 : off % w.bytes = 0) (hs : s.busy = false ∨ off < 0x2000) :
    s.serveRead off w = (.data (State.readBytes w.bytes off s).1, (State.readBytes w.bytes off s).2) := by
  rcases hs with hb | hin
  · exact s.serveRead_buffer h1 h2 h4 hb
  · exact s.serveRead_dataIn h1 hin h4

/-- Settles O27, by what `readBytes` assembles. -/
theorem bufferReadAssemblesBytes : Obligations.BufferReadAssemblesBytes := by
  unfold Obligations.BufferReadAssemblesBytes
  intro s off w es h1 h2 h4 hs ha
  have hserve := State.serveRead_stable_buffer { s with agenda := es } h1 h2 h4 hs
  obtain ⟨hstate, hlt, hbytes⟩ := State.readBytes_spec w.bytes off { s with agenda := es } w.bytes_le h1
    (BusWidth.end_le h2 rfl h4)
  rw [hstate] at hserve
  refine ⟨_, step_read_of_serveRead (by omega) hserve ha, hlt, fun k hk => ⟨fun b hwritten => ?_, fun hnone => ?_⟩⟩
  · exact (hbytes k hk).trans (by simp [hwritten])
  · exact (hbytes k hk).trans (by simp only [hnone]; rfl)

/-- Settles O28, by what `writeBytes` stores. -/
theorem bufferWriteChangesOnlyItsBytes : Obligations.BufferWriteChangesOnlyItsBytes := by
  unfold Obligations.BufferWriteChangesOnlyItsBytes
  intro s off w v es hb h1 h2 h4 ha
  have hserve := State.serveWrite_buffer v { s with agenda := es } h1 h2 h4 hb
  obtain ⟨m, hm⟩ := State.writeBytes_state w.bytes off v { s with agenda := es }
  obtain ⟨hstored, hkept⟩ := State.writeBytes_lookup w.bytes off v { s with agenda := es } h1
    (BusWidth.end_le h2 rfl h4)
  rw [hm] at hserve hstored hkept
  exact ⟨_, step_write_of_serveWrite (by omega) hserve ha, rfl, hstored, hkept⟩

/-- A word below 2^8 is its lowest byte, zero-extended (R99). -/
theorem eq_zeroExtend_of_lt {v : Word} {b : Byte} (hlt : v.toNat < 2 ^ 8) (hb : v.extractLsb' 0 8 = b) :
    v = b.zeroExtend 32 := by
  subst hb
  apply BitVec.eq_of_toNat_eq
  simp only [BitVec.truncate_eq_setWidth, BitVec.toNat_setWidth, BitVec.extractLsb'_toNat, Nat.shiftRight_zero]
  omega

/-- Settles O26: the write is O28's, and the read is O27's of a written byte. -/
theorem storedWordReadsLittleEndian : Obligations.StoredWordReadsLittleEndian := by
  unfold Obligations.StoredWordReadsLittleEndian
  intro s off k v hb h1 h2 h4 hk ha
  obtain ⟨t, hwrite, ht, hstored, -⟩ := bufferWriteChangesOnlyItsBytes s off .word v _ hb h1 h2 h4 ha
  have hbusy : t.busy = false := by rw [ht]; exact hb
  have hagenda : t.agenda = [.read (engineBase t.cfg + (off + k)) .byte] := by rw [ht]
  have hresponses : t.responses = .ok :: s.responses := by rw [ht]
  obtain ⟨u, hread, hlt, hbyte⟩ := bufferReadAssemblesBytes t (off + k) .byte [] (by omega) (by omega)
    (Nat.mod_one _) (.inl hbusy) hagenda
  have hu : u = (v.extractLsb' (8 * k) 8).zeroExtend 32 :=
    eq_zeroExtend_of_lt hlt ((hbyte 0 (by decide)).1 _ (hstored k hk))
  exact ⟨_, (run_succ_of_next hwrite).trans (run_succ_of_next hread), by simp [hu, hresponses]⟩

/-! ### Outside the window -/

/-- An address below ENGINE_BASE or past the 16 KiB has no offset in the window (R61). -/
theorem busOffset_eq_none {c : BlockConfig} {addr : Nat} (h : addr < engineBase c ∨ engineBase c + 0x4000 ≤ addr) :
    busOffset c addr = none := by
  refine Option.eq_none_iff_forall_ne_some.2 fun off hoff => ?_
  have := busOffset_eq_some hoff
  omega

/-- Settles O10: neither access has an offset in the window. -/
theorem accessOutsideWindowFaults : Obligations.AccessOutsideWindowFaults := by
  unfold Obligations.AccessOutsideWindowFaults
  intro s a w v es hout ha
  have hoff : busOffset s.cfg a = none := busOffset_eq_none hout
  rcases ha with ha | ha
  · simp [step, ha, hostRead, hoff]
  · simp [step, ha, hostWrite, hoff]

end Sys2Proof.Machine
end

section
/-! Command words and commands (R90 to R93). A word is its two fields, each OP names at most one command, and a word is
its four bytes, so the decoder answers a command on that command's encoding and nowhere else. -/

namespace Sys2Proof

open Sys2Proof.Laws

/-! ### The fields of a word -/

/-- A word is made of its two fields (R90). -/
theorem CmdWord.toWord_ofWord (w : Word) : (CmdWord.ofWord w).toWord = w :=
  BitVec.extractLsb'_append_extractLsb' (w := 28) (len := 4)

theorem CmdWord.ofWord_rsv_toNat (w : Word) : (CmdWord.ofWord w).rsv.toNat = w.toNat / 16 := by
  have := w.isLt
  simp only [CmdWord.ofWord, BitVec.extractLsb'_toNat, Nat.shiftRight_eq_div_pow]
  omega

theorem CmdWord.ofWord_op_toNat (w : Word) : (CmdWord.ofWord w).op.toNat = w.toNat % 16 := by
  simp only [CmdWord.ofWord, BitVec.extractLsb'_toNat, Nat.shiftRight_zero]

/-- The reserved bits are zero in the words below 16 (R93). -/
theorem CmdWord.ofWord_rsv_eq_zero_iff {w : Word} : (CmdWord.ofWord w).rsv = 0 ↔ w.toNat < 16 := by
  rw [BitVec.toNat_eq, CmdWord.ofWord_rsv_toNat]
  exact Nat.div_eq_zero_iff_lt (by decide)

/-! ### The operation code -/

/-- An operation code the decoder accepts is the one of the command it answers (R92). -/
theorem op_of_opcode_eq_ok {op : BitVec 4} {i : Instr} (h : opcode op = .ok i) : op = i.fields.op := by
  unfold opcode at h
  split at h <;> cases h <;> exact BitVec.eq_of_toNat_eq ‹_›

/-- An operation code outside 1 to 5 is refused by name (R93). -/
theorem opcode_of_unassigned {op : BitVec 4} (h : op.toNat = 0 ∨ 6 ≤ op.toNat) :
    opcode op = .error (.reservedOp op) := by
  unfold opcode
  split
  case h_6 => rfl
  all_goals omega

/-! ### The word -/

/-- The reserved bits are tested first (R91). -/
theorem decodeWord_of_rsv_ne_zero {w : Word} (h : (CmdWord.ofWord w).rsv ≠ 0) :
    decodeWord w = .error (.reservedBits (CmdWord.ofWord w).rsv) := if_pos h

/-- With no reserved bit set, OP selects the command (R91). -/
theorem decodeWord_of_rsv_eq_zero {w : Word} (h : (CmdWord.ofWord w).rsv = 0) :
    decodeWord w = opcode (CmdWord.ofWord w).op := if_neg (not_not.2 h)

/-- The reserved field of every command's word is zero (R92). -/
theorem Instr.fields_rsv (i : Instr) : i.fields.rsv = 0 := by
  cases i <;> rfl

/-- The encoding of each command decodes back to it, as a word and as the first bytes of a list. -/
theorem Instr.roundTrip (i : Instr) : RoundTrip.Statement i := by
  cases i with
  | mix => exact RoundTrip.mix
  | step => exact RoundTrip.step
  | extract => exact RoundTrip.extract
  | encrypt => exact RoundTrip.encrypt
  | decrypt => exact RoundTrip.decrypt

/-- The decoder answers a command exactly on its one word (R92): both fields of an accepted word are the command's. -/
theorem decodeWord_eq_ok_iff {w : Word} {i : Instr} : decodeWord w = .ok i ↔ w = encode i := by
  constructor
  · intro h
    by_cases hrsv : (CmdWord.ofWord w).rsv = 0
    · rw [decodeWord_of_rsv_eq_zero hrsv] at h
      have hfields : CmdWord.ofWord w = i.fields := by
        rw [CmdWord.mk.injEq]
        exact ⟨hrsv.trans i.fields_rsv.symm, op_of_opcode_eq_ok h⟩
      rw [encode, ← hfields, CmdWord.toWord_ofWord]
    · rw [decodeWord_of_rsv_ne_zero hrsv] at h
      cases h
  · rintro rfl
    obtain ⟨-, hword, -⟩ := i.roundTrip
    exact hword

/-! ### The bytes -/

/-- Past the lowest byte, the lanes are those of the bits above it (R64). -/
theorem lane_succ_append {n : Nat} (hi : BitVec n) (lo : Byte) (k : Nat) :
    (hi ++ lo).extractLsb' (8 * (k + 1)) 8 = hi.extractLsb' (8 * k) 8 :=
  BitVec.extractLsb'_append_eq_of_le (by omega)

/-- The lanes of the word of four bytes are these bytes, the first the least significant (R64). -/
theorem bytes_wordOfBytes (b0 b1 b2 b3 : Byte) :
    (List.range 4).map (fun k => (wordOfBytes b0 b1 b2 b3).extractLsb' (8 * k) 8) = [b0, b1, b2, b3] := by
  have lane0 : (wordOfBytes b0 b1 b2 b3).extractLsb' 0 8 = b0 := BitVec.extractLsb'_append_eq_right
  have lane1 : (wordOfBytes b0 b1 b2 b3).extractLsb' 8 8 = b1 :=
    (lane_succ_append _ _ 0).trans BitVec.extractLsb'_append_eq_right
  have lane2 : (wordOfBytes b0 b1 b2 b3).extractLsb' 16 8 = b2 :=
    (lane_succ_append _ _ 1).trans ((lane_succ_append _ _ 0).trans BitVec.extractLsb'_append_eq_right)
  have lane3 : (wordOfBytes b0 b1 b2 b3).extractLsb' 24 8 = b3 :=
    (lane_succ_append _ _ 2).trans ((lane_succ_append _ _ 1).trans BitVec.extractLsb'_append_eq_left)
  simp [List.range_succ, lane0, lane1, lane2, lane3]

/-- What an accepted list of bytes is: four bytes whose word is a command's, and the rest. -/
theorem decode_eq_ok_cases {bs rest : List Byte} {i : Instr} (h : decode bs = .ok (i, rest)) :
    ∃ b0 b1 b2 b3, bs = [b0, b1, b2, b3] ++ rest ∧ decodeWord (wordOfBytes b0 b1 b2 b3) = .ok i := by
  unfold decode at h
  split at h
  · split at h
    · cases h
      exact ⟨_, _, _, _, rfl, ‹_›⟩
    · cases h
  · cases h

/-- Settles O2: an accepted list begins with four bytes whose word is the command's encoding, and the bytes of that
word are these four. The converse is the round trip of each command. -/
theorem decodeReadsExactlyEncodedBytes : Obligations.DecodeReadsExactlyEncodedBytes := by
  unfold Obligations.DecodeReadsExactlyEncodedBytes
  intro bs i rest
  constructor
  · intro h
    obtain ⟨b0, b1, b2, b3, rfl, hword⟩ := decode_eq_ok_cases h
    rw [encodeBytes, ← decodeWord_eq_ok_iff.1 hword, bytes_wordOfBytes]
  · rintro rfl
    obtain ⟨-, -, hbytes⟩ := i.roundTrip
    exact hbytes rest

/-- Settles O3: a word from 16 on has a reserved bit set; below 16 the word is its OP. -/
theorem illegalWordsRejectedByName : Obligations.IllegalWordsRejectedByName := by
  unfold Obligations.IllegalWordsRejectedByName
  intro w
  refine ⟨fun hge => ?_, fun hlt hop => ?_⟩
  · exact decodeWord_of_rsv_ne_zero (mt CmdWord.ofWord_rsv_eq_zero_iff.1 (Nat.not_lt.2 hge))
  · rw [decodeWord_of_rsv_eq_zero (CmdWord.ofWord_rsv_eq_zero_iff.2 hlt)]
    refine opcode_of_unassigned ?_
    rwa [CmdWord.ofWord_op_toNat, Nat.mod_eq_of_lt hlt]

/-- Settles O1: the five words are the encodings of the five commands. -/
theorem eachCommandHasExactlyOneWord : Obligations.EachCommandHasExactlyOneWord := by
  unfold Obligations.EachCommandHasExactlyOneWord
  exact fun w => ⟨decodeWord_eq_ok_iff, decodeWord_eq_ok_iff, decodeWord_eq_ok_iff, decodeWord_eq_ok_iff,
    decodeWord_eq_ok_iff⟩

/-- Settles O4: the bytes are the encodings, with no rest (O2); the row of the opcode table is evaluated. -/
theorem writtenOutWordsDecode : Obligations.WrittenOutWordsDecode := by
  unfold Obligations.WrittenOutWordsDecode
  have hdecode : ∀ i, decode (encodeBytes i) = .ok (i, []) := fun i =>
    (decodeReadsExactlyEncodedBytes _ i []).2 (List.append_nil _).symm
  exact ⟨hdecode .mix, hdecode .step, hdecode .extract, hdecode .encrypt, hdecode .decrypt, by decide⟩

end Sys2Proof
end

section
/-! A lane as a coordinate (R116, R117). A lane is rounded to 53 bits as a magnitude is; dividing by 2^64 is exact; and
modulo 1.0 drops the multiples of 2^64, so that the zeros are the lanes that round to 0 or to 2^64. -/

namespace Sys2Proof.Machine

open Sys2Proof

/-! ### Rounding a whole number -/

/-- A common factor of numerator and denominator does not change the rounded quotient. -/
theorem roundHalfEven_mul_left {c : Nat} (hc : 0 < c) (num den : Nat) :
    roundHalfEven (c * num) (c * den) = roundHalfEven num den := by
  unfold roundHalfEven
  simp only [Nat.mul_div_mul_left _ _ hc, Nat.mul_mod_mul_left, Nat.mul_left_comm 2 c, Nat.mul_lt_mul_left hc]

/-- A magnitude that is rounded as it stands: its significand at its last place. -/
theorem roundMag_one_den (n : Nat) :
    roundMag n 1 = roundHalfEven n (2 ^ F64.lastPlace n) * 2 ^ F64.lastPlace n := by
  simp [roundMag]

theorem roundHalfEven_lastPlace_le (n : Nat) : roundHalfEven n (2 ^ F64.lastPlace n) ≤ 2 ^ 53 := by
  simpa using roundHalfEven_le_significand n 1

/-- Up to 53 bits rounding changes nothing. -/
theorem roundMag_of_lt {n : Nat} (h : n < 2 ^ 53) : roundMag n 1 = n := by
  have hexact : 2 ^ F64.lastPlace n ∣ n := by simp [F64.lastPlace_eq_zero h]
  simpa using roundMag_of_wf Nat.one_pos hexact

/-- Rounding never passes a power of two. -/
theorem roundMag_le_two_pow {n j : Nat} (h : n < 2 ^ 53 * 2 ^ j) : roundMag n 1 ≤ 2 ^ 53 * 2 ^ j := by
  rw [roundMag_one_den]
  exact Nat.mul_le_mul (roundHalfEven_lastPlace_le n) (Nat.pow_le_pow_right (by omega) (F64.lastPlace_le_of_lt h))

/-- Only 0 rounds to 0: from 2^52 on the significand keeps its leading bit. -/
theorem roundMag_pos {n : Nat} (h : 0 < n) : 0 < roundMag n 1 := by
  rcases Nat.lt_or_ge n (2 ^ 53) with hn | hn
  · rwa [roundMag_of_lt hn]
  · have hp := Nat.two_pow_pos (F64.lastPlace n)
    have hle : 2 ^ F64.lastPlace n ≤ n :=
      le_trans (Nat.le_mul_of_pos_left _ (by omega)) (F64.lastPlace_le (q := n) (by omega))
    rw [roundMag_one_den]
    exact Nat.mul_pos (lt_of_lt_of_le (Nat.div_pos hle hp) (le_roundHalfEven _ _)) hp

/-- From 2^52 on the last place of a whole number moves with the unit. -/
theorem F64.lastPlace_one_mul {n : Nat} (h : 2 ^ 52 ≤ n) :
    F64.lastPlace (F64.one * n) = F64.unitExp + F64.lastPlace n := by
  refine le_antisymm (F64.lastPlace_le_of_lt ?_) ?_
  · calc F64.one * n < F64.one * (2 ^ 53 * 2 ^ F64.lastPlace n) :=
          Nat.mul_lt_mul_of_pos_left (F64.lt_lastPlace n) F64.one_pos
      _ = 2 ^ 53 * 2 ^ (F64.unitExp + F64.lastPlace n) := by rw [F64.one, Nat.pow_add]; ring
  · have hle : 2 ^ (52 + (F64.unitExp + F64.lastPlace n)) ≤ F64.one * n := by
      calc 2 ^ (52 + (F64.unitExp + F64.lastPlace n)) = F64.one * (2 ^ 52 * 2 ^ F64.lastPlace n) := by
            rw [F64.one, Nat.pow_add, Nat.pow_add]; ring
        _ ≤ F64.one * n := Nat.mul_le_mul_left _ (F64.lastPlace_le h)
    have hpos : F64.one * n ≠ 0 := (Nat.mul_pos F64.one_pos (by omega)).ne'
    have hlog := (Nat.le_log2 hpos).2 hle
    unfold F64.lastPlace at hlog ⊢
    omega

/-- A whole number rounds as a magnitude does: up to 53 bits both are exact, above the last places agree. -/
theorem roundMag_one_mul (n : Nat) : roundMag (F64.one * n) 1 = F64.one * roundMag n 1 := by
  rcases Nat.lt_or_ge n (2 ^ 53) with hn | hn
  · have hexact : 2 ^ F64.lastPlace (F64.one * n) ∣ F64.one * n := by
      rw [Nat.mul_comm]
      exact F64.dvd_of_mul_pow hn.le
    rw [roundMag_of_lt hn]
    simpa using roundMag_of_wf Nat.one_pos hexact
  · rw [roundMag_one_den, roundMag_one_den n, F64.lastPlace_one_mul (by omega), Nat.pow_add, ← F64.one,
      roundHalfEven_mul_left F64.one_pos, Nat.mul_left_comm]

/-- From 2^63 on a u64 is rounded to a multiple of 2^11. -/
theorem roundMag_top {n : Nat} (hlo : 2 ^ 63 ≤ n) (hhi : n < 2 ^ 64) :
    roundMag n 1 = roundHalfEven n 2048 * 2048 := by
  have hlast : F64.lastPlace n = 11 := by
    refine le_antisymm (F64.lastPlace_le_of_lt (by omega)) ?_
    have := (Nat.le_log2 (by omega)).2 hlo
    unfold F64.lastPlace
    omega
  rw [roundMag_one_den, hlast]
  norm_num

/-- Which u64 round to a multiple of 2^64: 0, and those within half a last place of 2^64, ties to even upwards. -/
theorem roundMag_mod_eq_zero_iff {n : Nat} (h : n < 2 ^ 64) :
    roundMag n 1 % 2 ^ 64 = 0 ↔ n = 0 ∨ 0xFFFFFFFFFFFFFC00 ≤ n := by
  rcases Nat.eq_zero_or_pos n with rfl | hpos
  · simp [roundMag_of_lt]
  · rcases Nat.lt_or_ge n (2 ^ 63) with hlow | hhigh
    · have := roundMag_pos hpos
      have := roundMag_le_two_pow (n := n) (j := 10) (by omega)
      omega
    · rw [roundMag_top hhigh h]
      unfold roundHalfEven
      dsimp only
      split
      · omega
      · split <;> omega

/-! ### The constants -/

/-- The value of a power of two from 1.0 on, from its exponent field (R95). -/
theorem F64.ofBits_pack_two_pow {k : Nat} (hk : k < 1024) :
    F64.ofBits (F64.pack false (1023 + k) 0) = .fin false (2 ^ k * F64.one) := by
  have hmag : 2 ^ 52 * 2 ^ (1023 + k - 1) = 2 ^ k * F64.one := by
    rw [F64.one, ← Nat.pow_add, ← Nat.pow_add, F64.unitExp_eq]
    congr 1
    omega
  rw [F64.ofBits_pack (by omega) (by omega), if_neg (by omega), if_neg (by omega), Nat.add_zero, hmag]

/-- The literal 1.0 (R116). -/
theorem fOne_eq : fOne = .fin false F64.one := by
  have hbits : (0x3FF0000000000000 : DWord) = F64.pack false (1023 + 0) 0 := by decide
  rw [fOne, hbits, F64.ofBits_pack_two_pow (by omega), Nat.pow_zero, Nat.one_mul]

/-- K_DIV is 2^64 (R6). -/
theorem kDiv_eq : kDiv = .fin false (2 ^ 64 * F64.one) := by
  have hbits : (0x43F0000000000000 : DWord) = F64.pack false (1023 + 64) 0 := by decide
  rw [kDiv, hbits, F64.ofBits_pack_two_pow (by omega)]

/-- 1.0 as 2^64 units of the lanes. -/
theorem F64.one_eq_lane : F64.one = 2 ^ 64 * 2 ^ (F64.unitExp - 64) := by
  rw [← Nat.pow_add, F64.one, F64.unitExp_eq]

/-! ### The coordinate -/

/-- A lane converted is its 53-bit rounding (R10). -/
theorem cvtU64_eq (l : DWord) : cvtU64 l = .fin false (F64.one * roundMag l.toNat 1) := by
  have hle : roundMag l.toNat 1 ≤ 2 ^ 53 * 2 ^ 11 := roundMag_le_two_pow (by have := l.isLt; omega)
  have hlt : F64.one * roundMag l.toNat 1 < F64.limit := by
    refine lt_of_le_of_lt (Nat.mul_le_mul_left _ hle) ?_
    rw [F64.one, ← Nat.pow_add, ← Nat.pow_add]
    exact Nat.pow_lt_pow_right Nat.one_lt_two (by omega)
  unfold cvtU64 F64.round
  simp only [roundMag_one_mul, hlt, if_true]

/-- A rounded lane divided by 2^64 is a binary64. -/
theorem F64.wf_lane (l : DWord) : (F64.fin false (roundMag l.toNat 1 * 2 ^ (F64.unitExp - 64))).wf = true := by
  have hle : roundMag l.toNat 1 ≤ 2 ^ 53 * 2 ^ 11 := roundMag_le_two_pow (by have := l.isLt; omega)
  have hlt : roundMag l.toNat 1 * 2 ^ (F64.unitExp - 64) < F64.limit := by
    refine lt_of_le_of_lt (Nat.mul_le_mul_right _ hle) ?_
    rw [← Nat.pow_add, ← Nat.pow_add]
    exact Nat.pow_lt_pow_right Nat.one_lt_two (by rw [F64.unitExp_eq]; omega)
  rw [roundMag_one_den, Nat.mul_assoc, ← Nat.pow_add] at hlt ⊢
  exact F64.wf_of_mul_pow (roundHalfEven_lastPlace_le _) hlt

/-- The coordinate in units of 2^-64: the rounded lane without its multiples of 2^64. The division is exact. -/
theorem laneCoord_eq (l : DWord) :
    laneCoord l = .fin false (roundMag l.toNat 1 % 2 ^ 64 * 2 ^ (F64.unitExp - 64)) := by
  have hdiv : fdiv (cvtU64 l) kDiv = .fin false (roundMag l.toNat 1 * 2 ^ (F64.unitExp - 64)) := by
    have hden : 0 < 2 ^ 64 * F64.one := Nat.mul_pos (by omega) F64.one_pos
    have hnum : F64.one * (F64.one * roundMag l.toNat 1) =
        roundMag l.toNat 1 * 2 ^ (F64.unitExp - 64) * (2 ^ 64 * F64.one) := by
      conv_lhs => rw [F64.one_eq_lane]
      rw [F64.one_eq_lane]
      ring
    rw [cvtU64_eq, kDiv_eq, fdiv, if_neg hden.ne', hnum]
    exact F64.round_of_wf hden (F64.wf_lane l)
  rw [laneCoord, hdiv, fOne_eq, ffmod, if_neg F64.one_pos.ne']
  conv_lhs => rw [F64.one_eq_lane]
  rw [Nat.mul_mod_mul_right]

/-- A lane's coordinate is a nonnegative value below 1.0, and +0.0 exactly for the lanes R116 names. -/
theorem laneCoord_spec (l : DWord) :
    ∃ m, laneCoord l = .fin false m ∧ m < F64.one ∧ (m = 0 ↔ l = 0 ∨ 0xFFFFFFFFFFFFFC00 ≤ l.toNat) := by
  have hunit : 0 < 2 ^ (F64.unitExp - 64) := Nat.two_pow_pos _
  refine ⟨_, laneCoord_eq l, ?_, ?_⟩
  · rw [F64.one_eq_lane]
    exact Nat.mul_lt_mul_of_pos_right (Nat.mod_lt _ (by omega)) hunit
  · rw [Nat.mul_eq_zero, or_iff_left hunit.ne', roundMag_mod_eq_zero_iff l.isLt, BitVec.toNat_eq]
    rfl

/-- The zero fallback of a coordinate, by its lane (R117). -/
theorem zeroFallback_laneCoord (fb l : DWord) :
    zeroFallback fb (laneCoord l) =
      if l = 0 ∨ 0xFFFFFFFFFFFFFC00 ≤ l.toNat then F64.ofBits fb else laneCoord l := by
  obtain ⟨m, hcoord, -, hzero⟩ := laneCoord_spec l
  simp only [zeroFallback, hcoord, F64.isZero, beq_iff_eq, hzero]

/-- Settles O35: the exact quotient of the rounded lane, and the fallback by the lane. -/
theorem laneCoordinateRangeAndZeros : Obligations.LaneCoordinateRangeAndZeros := by
  unfold Obligations.LaneCoordinateRangeAndZeros
  refine ⟨fun l => ⟨rfl, laneCoord_spec l⟩, fun p key nonce f hf => ?_⟩
  simp only [mixF, zeroFallback_laneCoord, hf]

end Sys2Proof.Machine
end

section
/-! The final lanes (R111 to R115): each loop over bytes is the sequence of lanes its rule gives. -/

namespace Sys2Proof.Machine

open Sys2Proof

/-- A loop over the first `n` indices ends where a sequence that follows the loop's body does. -/
theorem foldl_finRange_of_rec {α : Type} {n : Nat} (f : α → Fin n → α) (S : Nat → α)
    (h : ∀ j : Fin n, S (j.val + 1) = f (S j.val) j) : (List.finRange n).foldl f (S 0) = S n := by
  rw [← Fin.foldl_eq_foldl_finRange]
  induction n with
  | zero => rfl
  | succ n ih =>
    rw [Fin.foldl_succ_last, ih (fun a j => f a j.castSucc) fun j => h j.castSucc]
    exact (h (Fin.last n)).symm

/-- The model's rotation is the library's, for the amounts R9 admits. -/
theorem rotl64_eq_rotateLeft (a : DWord) {r : Nat} (h : r < 64) : rotl64 a r = a.rotateLeft r := by
  unfold rotl64
  rw [BitVec.rotateLeft_def, Nat.mod_eq_of_lt h]
  split
  · next h0 => simp [h0, BitVec.ushiftRight_eq_zero]
  · rfl

/-- Admissible rotate amounts are below 64 (R119). -/
theorem MixerParams.rotates_lt {p : MixerParams} (h : p.wf = true) :
    p.krot.m1 < 64 ∧ p.krot.m2 < 64 ∧ p.krot.m3 < 64 ∧ p.nrot < 64 := by
  simp only [MixerParams.wf, MixerParams.krotOk, MixerParams.nrotOk, Three.all, Bool.and_eq_true,
    decide_eq_true_eq] at h
  omega

/-- One key byte by its rule (R112). -/
theorem absorbKey_eq {p : MixerParams} (h : p.wf = true) (b : Byte) (l : Lanes) :
    absorbKey p b l =
      ⟨l.m1.rotateLeft p.krot.m1 ^^^ (b.zeroExtend 64 * p.kmul.m1),
        l.m2.rotateLeft p.krot.m2 ^^^ (b.zeroExtend 64 * p.kmul.m2),
        l.m3.rotateLeft p.krot.m3 ^^^ (b.zeroExtend 64 * p.kmul.m3)⟩ := by
  obtain ⟨h1, h2, h3, -⟩ := MixerParams.rotates_lt h
  simp only [absorbKey, absorbKeyLane, rotl64_eq_rotateLeft, h1, h2, h3]

/-- One nonce byte by its rules (R113). -/
theorem absorbNonce_eq {p : MixerParams} (h : p.wf = true) (j : Fin 12) (b : Byte) (l : Lanes) :
    absorbNonce p j b l =
      ⟨l.m1 ^^^ (b.zeroExtend 64 <<< p.nsh[j]), l.m2 + b.zeroExtend 64 * p.nw[j],
        l.m3.rotateLeft p.nrot ^^^ b.zeroExtend 64⟩ := by
  obtain ⟨-, -, -, hn⟩ := MixerParams.rotates_lt h
  simp only [absorbNonce, rotl64_eq_rotateLeft, hn]

/-- Settles O34: each of the two loops ends where its sequence of lanes does. -/
theorem mixerLanesFollowTheRules : Obligations.MixerLanesFollowTheRules := by
  unfold Obligations.MixerLanesFollowTheRules
  intro p key nonce K N hp hK0 hK hN0 hN
  have hkey : keyLanes p key = K 32 := by
    rw [keyLanes, ← hK0]
    exact foldl_finRange_of_rec _ K fun j => (hK j).trans (absorbKey_eq hp _ _).symm
  have hnonce : nonceLanes p nonce (K 32) = N 12 := by
    rw [nonceLanes, ← hN0]
    exact foldl_finRange_of_rec _ N fun j => (hN j).trans (absorbNonce_eq hp _ _ _).symm
  refine ⟨_, _, _, rfl, rfl, rfl, ?_⟩
  rw [mixLanes, hkey, hnonce]
  rfl

end Sys2Proof.Machine
end

section
/-! The mixed state lies in the open unit cube (R118), so storing it takes no draw and MIX depends on the key and the
nonce alone (R120). -/

namespace Sys2Proof.Machine

open Sys2Proof

/-! ### Values strictly between 0.0 and 1.0 -/

/-- A positive finite value below 1.0. -/
def F64.InUnit (v : F64) : Prop := ∃ m, v = .fin false m ∧ 0 < m ∧ m < F64.one

theorem F64.InUnit.ne_nan {v : F64} (h : v.InUnit) : v ≠ .nan := by
  obtain ⟨m, rfl, -, -⟩ := h
  simp

/-- The encodings strictly between those of 0.0 and 1.0 are those of values strictly between them (R95). -/
theorem F64.inUnit_ofBits {b : DWord} (hpos : 0 < b.toNat) (hlt : b.toNat < 0x3FF0000000000000) :
    (F64.ofBits b).InUnit := by
  have hsign : b.getLsbD 63 = false := by
    rw [BitVec.getLsbD, Nat.testBit_eq_decide_div_mod_eq]
    simp only [decide_eq_false_iff_not]
    omega
  have hexp : (b.extractLsb' 52 11).toNat = b.toNat / 2 ^ 52 := by
    rw [BitVec.extractLsb'_toNat, Nat.shiftRight_eq_div_pow]
    omega
  have hfrac : (b.extractLsb' 0 52).toNat = b.toNat % 2 ^ 52 := by
    rw [BitVec.extractLsb'_toNat, Nat.shiftRight_zero]
  unfold F64.ofBits
  simp only [hsign, hexp, hfrac]
  rw [if_neg (by omega)]
  split
  · next h0 => exact ⟨_, rfl, by omega, lt_of_lt_of_le (Nat.mod_lt _ (by omega)) (F64.two_pow_le_one (by omega))⟩
  · next h0 =>
    refine ⟨_, rfl, Nat.mul_pos (by omega) (Nat.two_pow_pos _), ?_⟩
    refine lt_of_lt_of_le (Nat.mul_lt_mul_of_pos_right (show _ < 2 ^ 53 by omega) (Nat.two_pow_pos _)) ?_
    rw [← Nat.pow_add]
    exact F64.two_pow_le_one (by omega)

/-- A coordinate after the zero fallback, when the fallback is admissible (R117, R119). -/
theorem inUnit_zeroFallback {fb : DWord} (hfb : (F64.ofBits fb).InUnit) (l : DWord) :
    (zeroFallback fb (laneCoord l)).InUnit := by
  obtain ⟨m, hcoord, hlt, hzero⟩ := laneCoord_spec l
  rw [zeroFallback_laneCoord]
  split
  · exact hfb
  · next hl => exact ⟨m, hcoord, Nat.pos_of_ne_zero (mt hzero.1 hl), hlt⟩

/-- Admissible fallbacks lie strictly between 0.0 and 1.0 (R119). -/
theorem MixerParams.inUnit_fb {p : MixerParams} (h : p.wf = true) :
    (F64.ofBits p.fb.m1).InUnit ∧ (F64.ofBits p.fb.m2).InUnit ∧ (F64.ofBits p.fb.m3).InUnit := by
  simp only [MixerParams.wf, MixerParams.fbOk, Three.all, Bool.and_eq_true, decide_eq_true_eq] at h
  obtain ⟨-, ⟨⟨hpos1, hlt1⟩, hpos2, hlt2⟩, hpos3, hlt3⟩ := h
  exact ⟨F64.inUnit_ofBits hpos1 hlt1, F64.inUnit_ofBits hpos2 hlt2, F64.inUnit_ofBits hpos3 hlt3⟩

/-! ### The mixed state -/

/-- Each coordinate of the mixed state lies strictly between 0.0 and 1.0 (R118). -/
theorem inUnit_mixF {p : MixerParams} (h : p.wf = true) (key : Fin 32 → Byte) (nonce : Fin 12 → Byte) :
    (mixF p key nonce).x.InUnit ∧ (mixF p key nonce).y.InUnit ∧ (mixF p key nonce).z.InUnit := by
  obtain ⟨h1, h2, h3⟩ := MixerParams.inUnit_fb h
  simp only [mixF]
  exact ⟨inUnit_zeroFallback h1 _, inUnit_zeroFallback h2 _, inUnit_zeroFallback h3 _⟩

theorem wf_zeroFallback_laneCoord (fb l : DWord) : (zeroFallback fb (laneCoord l)).wf = true := by
  unfold zeroFallback
  split
  · exact F64.wf_ofBits fb
  · exact F64.wf_ffmod (F64.wf_fdiv _ _) (F64.wf_ofBits _)

/-- The mixed state is made of binary64 values, whatever the parameters. -/
theorem wf_mixF (p : MixerParams) (key : Fin 32 → Byte) (nonce : Fin 12 → Byte) : (mixF p key nonce).wf = true := by
  simp only [Chaos.wf, mixF, wf_zeroFallback_laneCoord, Bool.and_self]

/-- Settles O36: a coordinate is its lane's where that is not zero, and an admissible fallback elsewhere. -/
theorem mixedStateInOpenUnitCube : Obligations.MixedStateInOpenUnitCube := by
  unfold Obligations.MixedStateInOpenUnitCube
  intro p key nonce hp
  obtain ⟨⟨a, hx, ha, ha'⟩, ⟨b, hy, hb, hb'⟩, c, hz, hc, hc'⟩ := inUnit_mixF hp key nonce
  refine ⟨wf_mixF p key nonce, a, b, c, ?_, ha, ha', hb, hb', hc, hc'⟩
  rw [← hx, ← hy, ← hz]

/-! ### The command MIX -/

theorem exec_mix (s : State) : exec .mix s = .next ((s.writeChaos s.mixed).complete .noError) := rfl

/-- Completing a command leaves the triple (R225). -/
@[simp] theorem State.complete_chaos (s : State) (c : ErrCode) : (s.complete c).chaos = s.chaos := rfl

/-- Completing a command leaves the words of the triple (R225). -/
theorem State.sameTriple.complete {s s' : State} (h : s.sameTriple s') (c c' : ErrCode) :
    (s.complete c).sameTriple (s'.complete c') := h

/-- A command that succeeds leaves STATUS with DONE alone (R225). -/
theorem State.statusWord_complete_noError (s : State) : (s.complete .noError).statusWord = 0x00000002 := by
  simp only [State.statusWord, State.errFlag, State.busy, State.complete_phase, State.complete_done,
    State.complete_err]
  decide

/-- Settles O38: the registers hold the binary64 values that were written, and the rest is the frame of the two
operations MIX is made of. -/
theorem mixCompletes : Obligations.MixCompletes := by
  unfold Obligations.MixCompletes
  intro s
  refine ⟨_, exec_mix s, ?chaos, State.complete_phase _ _, State.statusWord_complete_noError _, ?operands, ?kb,
    ?bytes⟩
  case chaos =>
    rw [State.complete_chaos]
    exact State.chaos_writeChaos (wf_mixF _ _ _) s
  case operands => simp [State.sameOperands]
  case kb => simp
  case bytes => simp [State.sameBytes]

/-- What a register stores for a value that is no NaN depends on no draw (R140). -/
theorem storedBits_eq_of_ne_nan {v : F64} (h : v ≠ .nan) (k k' : Nat) : storedBits v k = storedBits v k' := by
  obtain ⟨b, hb⟩ := Option.ne_none_iff_exists'.1 (mt F64.toBits_eq_none.1 h)
  rw [(storedBits_of_some hb k).1, (storedBits_of_some hb k').1]

/-- A triple without a NaN is stored alike in any two states. -/
theorem State.sameTriple_writeChaos {c : Chaos} (hx : c.x ≠ .nan) (hy : c.y ≠ .nan) (hz : c.z ≠ .nan)
    (s s' : State) : (s.writeChaos c).sameTriple (s'.writeChaos c) := by
  simp only [State.sameTriple, State.writeChaos, storedBits_eq_of_ne_nan hx s'.draws s.draws,
    storedBits_eq_of_ne_nan hy _ (s.draws + storeDraws c.x),
    storedBits_eq_of_ne_nan hz _ (s.draws + storeDraws c.x + storeDraws c.y), and_self]

/-- The mixed state is a function of the mixer parameters, the key and the nonce (R110). -/
theorem State.mixed_congr {s s' : State} (hp : s'.cfg.mixer = s.cfg.mixer) (hk : s'.key = s.key)
    (hn : s'.nonce = s.nonce) : s'.mixed = s.mixed := by
  have hkey : s'.keyByte = s.keyByte := funext fun j => by simp only [State.keyByte, hk]
  have hnonce : s'.nonceByte = s.nonceByte := funext fun j => by simp only [State.nonceByte, hn]
  rw [State.mixed, State.mixed, hp, hkey, hnonce]

/-- Settles O39: both commands store the one mixed state, which holds no NaN. -/
theorem mixDependsOnKeyAndNonceOnly : Obligations.MixDependsOnKeyAndNonceOnly := by
  unfold Obligations.MixDependsOnKeyAndNonceOnly
  intro s s' t t' hwf hp hk hn ht ht'
  cases (exec_mix s).symm.trans ht
  cases (exec_mix s').symm.trans ht'
  obtain ⟨hx, hy, hz⟩ := inUnit_mixF hwf s.keyByte s.nonceByte
  rw [State.mixed_congr hp hk hn, State.mixed]
  exact (State.sameTriple_writeChaos hx.ne_nan hy.ne_nan hz.ne_nan s s').complete _ _

end Sys2Proof.Machine
end

section
/-! The ChaoticStepper (R142 to R145) and consecutive STEP commands (R146). -/

namespace Sys2Proof.Machine

open Sys2Proof

/-! ### A NaN operand (R140) -/

@[simp] theorem fadd_nan_left (b : F64) : fadd .nan b = .nan := by cases b <;> rfl
@[simp] theorem fadd_nan_right (a : F64) : fadd a .nan = .nan := by cases a <;> rfl
@[simp] theorem fsub_nan_left (b : F64) : fsub .nan b = .nan := fadd_nan_left _
@[simp] theorem fsub_nan_right (a : F64) : fsub a .nan = .nan := fadd_nan_right a
@[simp] theorem fmul_nan_left (b : F64) : fmul .nan b = .nan := by cases b <;> rfl
@[simp] theorem fmul_nan_right (a : F64) : fmul a .nan = .nan := by cases a <;> rfl

theorem stepF_nan_x (y z : F64) : stepF ⟨.nan, y, z⟩ = ⟨.nan, .nan, .nan⟩ := by simp [stepF]

theorem stepF_nan_y (x z : F64) : stepF ⟨x, .nan, z⟩ = ⟨.nan, .nan, .nan⟩ := by simp [stepF]

theorem stepF_nan_z (x y : F64) : (stepF ⟨x, y, .nan⟩).y = .nan ∧ (stepF ⟨x, y, .nan⟩).z = .nan := by simp [stepF]

/-- R142's formula for x' reads no z. -/
theorem stepF_x_congr (x y z z' : F64) : (stepF ⟨x, y, z⟩).x = (stepF ⟨x, y, z'⟩).x := rfl

/-- Settles O42, by the coordinate that is a NaN. -/
theorem nanPropagatesThroughStep : Obligations.NanPropagatesThroughStep := by
  unfold Obligations.NanPropagatesThroughStep
  rintro ⟨x, y, z⟩
  refine ⟨?_, ?_⟩
  · rintro (rfl | rfl)
    · exact stepF_nan_x y z
    · exact stepF_nan_y x z
  · rintro rfl
    obtain ⟨hy, hz⟩ := stepF_nan_z x y
    exact ⟨hy, hz, stepF_x_congr x y .nan⟩

/-- Settles O43: the named constants and increments of `stepF`, written out. -/
theorem stepFormula : Obligations.StepFormula := by
  unfold Obligations.StepFormula
  intro x y z
  simp only [stepF, sigma, rho, beta, dt, sigmaBits, rhoBits, betaBits, dtBits]

/-! ### The command STEP -/

theorem exec_step (s : State) : exec .step s = .next ((s.writeChaos (stepF s.chaos)).complete .noError) := rfl

/-- Settles O40: the registers hold the binary64 values that were written, and the rest is the frame of the two
operations STEP is made of. -/
theorem stepCompletes : Obligations.StepCompletes := by
  unfold Obligations.StepCompletes
  intro s
  refine ⟨rfl, _, exec_step s, ?chaos, State.complete_phase _ _, State.statusWord_complete_noError _, ?operands, ?kb,
    ?bytes⟩
  case chaos =>
    rw [State.complete_chaos]
    exact State.chaos_writeChaos (wf_stepF _) s
  case operands => simp [State.sameOperands]
  case kb => simp
  case bytes => simp [State.sameBytes]

theorem State.sameOperands.trans {s t u : State} (h : s.sameOperands t) (h' : t.sameOperands u) :
    s.sameOperands u := by
  obtain ⟨hcfg, hlen, hctr, hkey, hnonce, hagenda, hresponses⟩ := h
  obtain ⟨hcfg', hlen', hctr', hkey', hnonce', hagenda', hresponses'⟩ := h'
  exact ⟨hcfg'.trans hcfg, hlen'.trans hlen, hctr'.trans hctr, hkey'.trans hkey, hnonce'.trans hnonce,
    hagenda'.trans hagenda, hresponses'.trans hresponses⟩

theorem State.sameBytes.trans {s t u : State} (h : s.sameBytes t) (h' : t.sameBytes u) : s.sameBytes u :=
  fun a => (h' a).trans (h a)

theorem execAll_cons_of_next {i : Instr} {is : List Instr} {s t : State} (h : exec i s = .next t) :
    execAll (i :: is) s = execAll is t := by
  rw [execAll, h]

/-- Settles O41, by induction on the number of commands: the first is O40's, the others follow in the state it
leaves. -/
theorem consecutiveStepsIterate : Obligations.ConsecutiveStepsIterate := by
  unfold Obligations.ConsecutiveStepsIterate
  intro n
  induction n with
  | zero => exact fun s => ⟨s, rfl, rfl, s.sameOperands_refl, rfl, fun _ => rfl⟩
  | succ n ih =>
    intro s
    obtain ⟨-, t, hexec, hchaos, -, -, hoperands, hkb, hbytes⟩ := stepCompletes s
    obtain ⟨u, hexec', hchaos', hoperands', hkb', hbytes'⟩ := ih t
    refine ⟨u, ?_, ?_, hoperands.trans hoperands', hkb'.trans hkb, hbytes.trans hbytes'⟩
    · rw [List.replicate_succ, execAll_cons_of_next hexec, hexec']
    · rw [hchaos', hchaos, Function.iterate_succ_apply]

end Sys2Proof.Machine
end

section
/-! Rounding to nearest, ties to even (R140, R10): how far the rounded magnitude lies from the exact one, against every
binary64 magnitude, and where rounding leaves the finite values. -/

namespace Sys2Proof.Machine

open Sys2Proof

/-! ### The nearest integer -/

/-- How far the magnitude `r` lies from num/den, in units of 1/den. -/
def roundError (num den r : Nat) : Nat := ((num : Int) - den * r).natAbs

/-- The rounded integer is at most half a unit away, and exactly half a unit only if it is even. -/
theorem roundError_roundHalfEven {den : Nat} (hd : 0 < den) (num : Nat) :
    2 * roundError num den (roundHalfEven num den) < den ∨
      (2 * roundError num den (roundHalfEven num den) = den ∧ roundHalfEven num den % 2 = 0) := by
  have hdiv : (den : Int) * (num / den : Nat) + (num % den : Nat) = num := by exact_mod_cast Nat.div_add_mod num den
  have hmod := Nat.mod_lt num hd
  have hsucc : ∀ q : Nat, (den : Int) * (q + 1 : Nat) = den * q + den := fun q => by push_cast; ring
  unfold roundError roundHalfEven
  dsimp only
  generalize num / den = q at hdiv ⊢
  generalize num % den = r at hdiv hmod ⊢
  have := hsucc q
  split
  · omega
  · split
    · omega
    · rcases Nat.mod_two_eq_zero_or_one q with hq | hq
      · rw [hq, Nat.add_zero]
        omega
      · rw [hq]
        omega

/-- Two different integers lie at least one unit apart. -/
theorem le_roundError_add {num den r r' : Nat} (h : r' ≠ r) :
    den ≤ roundError num den r + roundError num den r' := by
  unfold roundError
  have hstep : ∀ a b : Nat, a < b → (den : Int) * a + den ≤ den * b := fun a b hab => by
    exact_mod_cast Nat.mul_le_mul_left den hab
  rcases Nat.lt_or_gt_of_ne h with hlt | hlt
  · have := hstep r' r hlt
    omega
  · have := hstep r r' hlt
    omega

/-- Any other integer lies farther, or as far and the rounded one is even. -/
theorem roundHalfEven_nearest {num den r : Nat} (hd : 0 < den) (hne : r ≠ roundHalfEven num den) :
    roundError num den (roundHalfEven num den) < roundError num den r ∨
      (roundError num den (roundHalfEven num den) = roundError num den r ∧ roundHalfEven num den % 2 = 0) := by
  have hfar := le_roundError_add (num := num) (den := den) hne
  rcases roundError_roundHalfEven hd num with h | ⟨h, heven⟩ <;> omega

theorem roundHalfEven_error_le {den : Nat} (hd : 0 < den) (num r : Nat) :
    roundError num den (roundHalfEven num den) ≤ roundError num den r := by
  rcases eq_or_ne r (roundHalfEven num den) with rfl | hne
  · exact le_rfl
  · rcases roundHalfEven_nearest hd hne with h | ⟨h, -⟩
    · exact h.le
    · exact h.le

/-! ### The nearest magnitude of 53 significant bits -/

theorem roundError_mul (num den r c : Nat) : roundError num den (r * c) = roundError num (den * c) r := by
  unfold roundError
  push_cast
  ring_nf

/-- The rounded magnitude is as far from num/den as the rounded integer from the quotient in its last places. -/
theorem roundError_roundMag (num den : Nat) :
    roundError num den (roundMag num den) =
      roundError num (den * 2 ^ F64.lastPlace (num / den))
        (roundHalfEven num (den * 2 ^ F64.lastPlace (num / den))) :=
  roundError_mul _ _ _ _

/-- Below the quotient a greater magnitude is nearer. -/
theorem roundError_lt_of_lt {num den r r' : Nat} (hd : 0 < den) (hlt : r < r') (hle : r' ≤ num / den) :
    roundError num den r' < roundError num den r := by
  have h1 : den * r < den * r' := Nat.mul_lt_mul_of_pos_left hlt hd
  have h2 : den * r' ≤ num := (Nat.mul_le_mul_left den hle).trans (Nat.mul_div_le num den)
  unfold roundError
  zify at h1 h2
  omega

/-- A magnitude of 53 significant bits is a multiple of a quotient's last place, or less than the least magnitude with
that last place, which the quotient is not. -/
theorem dvd_or_lt_of_dvd_lastPlace {q r : Nat} (hr : 2 ^ F64.lastPlace r ∣ r) :
    2 ^ F64.lastPlace q ∣ r ∨ (r < 2 ^ 52 * 2 ^ F64.lastPlace q ∧ 2 ^ 52 * 2 ^ F64.lastPlace q ≤ q) := by
  rcases Nat.lt_or_ge (F64.lastPlace r) (F64.lastPlace q) with hlt | hge
  · have hq : 2 ^ 52 ≤ q := by
      by_contra hsmall
      rw [F64.lastPlace_eq_zero (q := q) (by omega)] at hlt
      omega
    refine .inr ⟨?_, F64.lastPlace_le hq⟩
    calc r < 2 ^ 53 * 2 ^ F64.lastPlace r := F64.lt_lastPlace r
      _ = 2 ^ 52 * 2 ^ (F64.lastPlace r + 1) := by rw [Nat.pow_succ 2 (F64.lastPlace r)]; ring
      _ ≤ 2 ^ 52 * 2 ^ F64.lastPlace q := Nat.mul_le_mul_left _ (Nat.pow_le_pow_right (by omega) hlt)
  · exact .inl ((Nat.pow_dvd_pow 2 hge).trans hr)

/-- A quotient that is no subnormal has a rounded significand of 53 bits. -/
theorem le_roundHalfEven_significand {num den : Nat} (h : 2 ^ 52 ≤ num / den) :
    2 ^ 52 ≤ roundHalfEven num (den * 2 ^ F64.lastPlace (num / den)) := by
  refine le_trans ?_ (le_roundHalfEven _ _)
  rw [← Nat.div_div_eq_div_mul]
  exact (Nat.le_div_iff_mul_le (Nat.two_pow_pos _)).2 (F64.lastPlace_le h)

/-- An even rounded integer is the rounded magnitude's significand, unless it has grown to 2^53, which is even too. -/
theorem significand_roundMag_even {num den : Nat}
    (heven : roundHalfEven num (den * 2 ^ F64.lastPlace (num / den)) % 2 = 0) :
    roundMag num den / 2 ^ F64.lastPlace (roundMag num den) % 2 = 0 := by
  have hle := roundHalfEven_le_significand num den
  have hlow := le_roundHalfEven_significand (num := num) (den := den)
  have hsub := F64.lastPlace_eq_zero (q := num / den)
  unfold roundMag
  dsimp only
  generalize F64.lastPlace (num / den) = k at heven hle hlow hsub ⊢
  generalize roundHalfEven num (den * 2 ^ k) = sig at heven hle hlow ⊢
  rcases hle.eq_or_lt with rfl | hlt
  · have hgrown : 2 ^ 53 * 2 ^ k = 2 ^ 52 * 2 ^ (k + 1) := by rw [Nat.pow_succ 2 k]; ring
    rw [hgrown, F64.lastPlace_mul_pow le_rfl (by omega), Nat.mul_div_cancel _ (Nat.two_pow_pos _)]
    norm_num
  · rcases Nat.lt_or_ge (num / den) (2 ^ 52) with hsmall | hbig
    · rw [hsub (by omega), Nat.pow_zero, Nat.mul_one, F64.lastPlace_eq_zero hlt, Nat.pow_zero, Nat.div_one]
      exact heven
    · rw [F64.lastPlace_mul_pow (hlow hbig) hlt, Nat.mul_div_cancel _ (Nat.two_pow_pos _)]
      exact heven

/-- Any other magnitude of 53 significant bits lies farther from the exact one, or as far and the rounded one's
significand is even. -/
theorem roundMag_nearest {num den r : Nat} (hd : 0 < den) (hr : 2 ^ F64.lastPlace r ∣ r)
    (hne : r ≠ roundMag num den) :
    roundError num den (roundMag num den) < roundError num den r ∨
      (roundError num den (roundMag num den) = roundError num den r ∧
        roundMag num den / 2 ^ F64.lastPlace (roundMag num den) % 2 = 0) := by
  have hgrid : 0 < den * 2 ^ F64.lastPlace (num / den) := Nat.mul_pos hd (Nat.two_pow_pos _)
  rcases dvd_or_lt_of_dvd_lastPlace (q := num / den) hr with ⟨a, rfl⟩ | ⟨hlt, hle⟩
  · rw [Nat.mul_comm] at hne ⊢
    rw [roundError_mul num den a, roundError_roundMag]
    have hne' : a ≠ roundHalfEven num (den * 2 ^ F64.lastPlace (num / den)) := fun ha => hne (ha ▸ rfl)
    exact (roundHalfEven_nearest hgrid hne').imp_right (And.imp_right significand_roundMag_even)
  · left
    calc roundError num den (roundMag num den) ≤ roundError num den (2 ^ 52 * 2 ^ F64.lastPlace (num / den)) := by
          rw [roundError_roundMag, roundError_mul]
          exact roundHalfEven_error_le hgrid num _
      _ < roundError num den r := roundError_lt_of_lt hd hlt hle

theorem roundMag_error_le {num den r : Nat} (hd : 0 < den) (hr : 2 ^ F64.lastPlace r ∣ r) :
    roundError num den (roundMag num den) ≤ roundError num den r := by
  rcases eq_or_ne r (roundMag num den) with rfl | hne
  · exact le_rfl
  · rcases roundMag_nearest hd hr hne with h | ⟨h, -⟩
    · exact h.le
    · exact h.le

/-- A finite rounded value has the sign asked for and the rounded magnitude. -/
theorem F64.round_eq_fin {neg u : Bool} {num den r : Nat} (h : F64.round neg num den = .fin u r) :
    u = neg ∧ r = roundMag num den := by
  unfold F64.round at h
  dsimp only at h
  split at h
  · cases h
    exact ⟨rfl, rfl⟩
  · cases h

/-- Settles O30: a binary64 that is not the rounded one is farther away unless the rounded one is even. -/
theorem tiesRoundToEven : Obligations.TiesRoundToEven := by
  unfold Obligations.TiesRoundToEven
  intro neg num den r r' hd hround hwf hne htie
  obtain ⟨-, rfl⟩ := F64.round_eq_fin hround
  obtain ⟨-, hdvd⟩ := F64.wf_fin.1 hwf
  rcases roundMag_nearest hd hdvd hne with h | ⟨-, heven⟩
  · exact absurd htie h.ne
  · exact heven

/-! ### Signed values -/

@[simp] theorem signed_false (m : Nat) : signed false m = m := rfl
@[simp] theorem signed_true (m : Nat) : signed true m = -(m : Int) := rfl

theorem natAbs_signed (s : Bool) (m : Nat) : (signed s m).natAbs = m := by cases s <;> simp

theorem signed_not (s : Bool) (m : Nat) : signed (!s) m = -signed s m := by cases s <;> simp

theorem signed_mul (s t : Bool) (m n : Nat) : signed s m * signed t n = signed (s != t) (m * n) := by
  cases s <;> cases t <;> simp

theorem signed_add (s : Bool) (m n : Nat) : signed s (m + n) = signed s m + signed s n := by
  cases s with
  | false => simp
  | true => simp [add_comm]

theorem signed_sub (s : Bool) {m n : Nat} (h : n ≤ m) : signed s (m - n) = signed s m - signed s n := by
  cases s with
  | false => simp [Nat.cast_sub h]
  | true =>
    simp only [signed_true, Nat.cast_sub h]
    ring

/-- With equal signs the distance is that of the magnitudes. -/
theorem natAbs_signed_sub (s : Bool) (num den r : Nat) :
    (signed s num - den * signed s r).natAbs = roundError num den r := by
  cases s with
  | false => rfl
  | true =>
    rw [roundError, ← Int.natAbs_neg, signed_true, signed_true]
    congr 1
    ring

/-- With opposite signs a value is farther than 0 is. -/
theorem roundError_zero_le {s u : Bool} (h : u ≠ s) (num den r : Nat) :
    roundError num den 0 ≤ (signed s num - den * signed u r).natAbs := by
  obtain rfl : u = !s := Bool.eq_not_of_ne h
  have hadd : signed s num - den * signed (!s) r = signed s (num + den * r) := by
    rw [signed_not, signed_add]
    cases s <;> simp [sub_eq_add_neg]
  rw [hadd, natAbs_signed]
  simp [roundError]

/-- A finite rounded value is a binary64, and no binary64 of either sign is nearer to the exact value. -/
theorem F64.round_nearest {s u u' : Bool} {num den r r' : Nat} (hd : 0 < den) (hwf : (F64.fin u' r').wf = true)
    (h : F64.round s num den = .fin u r) :
    (F64.fin u r).wf = true ∧
      (signed s num - den * signed u r).natAbs ≤ (signed s num - den * signed u' r').natAbs := by
  refine ⟨h ▸ F64.wf_round s num den, ?_⟩
  obtain ⟨rfl, rfl⟩ := F64.round_eq_fin h
  rw [natAbs_signed_sub]
  rcases eq_or_ne u' u with rfl | hne
  · rw [natAbs_signed_sub]
    exact roundMag_error_le hd (F64.wf_fin.1 hwf).2
  · exact (roundMag_error_le hd (by simp)).trans (roundError_zero_le hne num den r')

/-! ### The three operations -/

/-- A sum of finite values is the exact sum rounded once; where they cancel it is the rounded +0. -/
theorem fadd_fin (s t : Bool) (m n : Nat) :
    ∃ neg num, signed s m + signed t n = signed neg num ∧ fadd (.fin s m) (.fin t n) = F64.round neg num 1 := by
  rcases eq_or_ne s t with rfl | hst
  · exact ⟨s, m + n, (signed_add s m n).symm, by simp [fadd]⟩
  · obtain rfl : t = !s := Bool.eq_not_of_ne hst.symm
    rcases lt_trichotomy m n with hlt | rfl | hlt
    · refine ⟨!s, n - m, ?_, ?_⟩
      · rw [signed_sub _ hlt.le, signed_not, signed_not]
        ring
      · simp [fadd, hlt.ne, hlt.not_gt]
    · refine ⟨false, 0, ?_, ?_⟩
      · simp [signed_not]
      · simpa [fadd] using (F64.round_of_wf Nat.one_pos (F64.wf_zero false)).symm
    · refine ⟨s, m - n, ?_, ?_⟩
      · rw [signed_sub _ hlt.le, signed_not, sub_eq_add_neg]
      · simp [fadd, hlt.ne', hlt]

theorem fadd_nearest {s t u u' : Bool} {m n r r' : Nat} (hwf : (F64.fin u' r').wf = true)
    (h : fadd (.fin s m) (.fin t n) = .fin u r) :
    (F64.fin u r).wf = true ∧
      (signed s m + signed t n - signed u r).natAbs ≤ (signed s m + signed t n - signed u' r').natAbs := by
  obtain ⟨neg, num, hsum, hround⟩ := fadd_fin s t m n
  rw [hsum]
  simpa using F64.round_nearest Nat.one_pos hwf (hround.symm.trans h)

theorem fmul_nearest {s t u u' : Bool} {m n r r' : Nat} (hwf : (F64.fin u' r').wf = true)
    (h : fmul (.fin s m) (.fin t n) = .fin u r) :
    (F64.fin u r).wf = true ∧
      (signed s m * signed t n - F64.one * signed u r).natAbs ≤
        (signed s m * signed t n - F64.one * signed u' r').natAbs := by
  rw [signed_mul]
  exact F64.round_nearest F64.one_pos hwf h

/-- The distance to a quotient, scaled by the divisor, is the distance to the quotient of its magnitude and sign. -/
theorem natAbs_quotient_sub (s t : Bool) (m n c : Nat) (v : Int) :
    (signed s m * c - signed t n * v).natAbs = (signed (s != t) (c * m) - n * v).natAbs := by
  have hmul : signed s m * (c : Int) = signed s (c * m) := by cases s <;> simp [mul_comm]
  rw [hmul]
  cases t with
  | false => simp
  | true =>
    rw [← Int.natAbs_neg, Bool.bne_true, signed_not, signed_true]
    congr 1
    ring

theorem fdiv_nearest {s t u u' : Bool} {m n r r' : Nat} (hwf : (F64.fin u' r').wf = true)
    (h : fdiv (.fin s m) (.fin t n) = .fin u r) :
    (F64.fin u r).wf = true ∧
      (signed s m * F64.one - signed t n * signed u r).natAbs ≤
        (signed s m * F64.one - signed t n * signed u' r').natAbs := by
  unfold fdiv at h
  dsimp only at h
  split at h
  · split at h <;> cases h
  · next hn =>
    rw [natAbs_quotient_sub, natAbs_quotient_sub]
    exact F64.round_nearest (Nat.pos_of_ne_zero hn) hwf h

/-- Settles O29: each operation rounds its exact result once. -/
theorem arithmeticRoundsToNearest : Obligations.ArithmeticRoundsToNearest := by
  unfold Obligations.ArithmeticRoundsToNearest
  exact fun s t u u' m n r r' hwf => ⟨fadd_nearest hwf, fmul_nearest hwf, fdiv_nearest hwf⟩

/-! ### Overflow -/

/-- Half a unit in either direction bounds the exact value around the rounded integer. -/
theorem roundHalfEven_bounds {den : Nat} (hd : 0 < den) (num : Nat) :
    2 * (den * roundHalfEven num den) ≤ 2 * num + den ∧ 2 * num ≤ 2 * (den * roundHalfEven num den) + den := by
  have herr := roundError_roundHalfEven hd num
  unfold roundError at herr
  omega

/-- Below the midpoint between n and n + 1 an integer is rounded to n at most. -/
theorem roundHalfEven_le_of_lt {num den n : Nat} (hd : 0 < den) (h : 2 * num < 2 * (den * n) + den) :
    roundHalfEven num den ≤ n := by
  obtain ⟨hlow, -⟩ := roundHalfEven_bounds hd num
  by_contra hgt
  have : den * (n + 1) ≤ den * roundHalfEven num den := Nat.mul_le_mul_left den (by omega)
  rw [Nat.mul_add] at this
  omega

/-- From the midpoint between n and n + 1 on an integer is rounded above an odd n. -/
theorem lt_roundHalfEven_of_le {num den n : Nat} (hd : 0 < den) (hodd : n % 2 = 1)
    (h : 2 * (den * n) + den ≤ 2 * num) : n < roundHalfEven num den := by
  obtain ⟨-, hhigh⟩ := roundHalfEven_bounds hd num
  by_contra hle
  have hmul : den * roundHalfEven num den ≤ den * n := Nat.mul_le_mul_left den (by omega)
  have heq : roundHalfEven num den = n := Nat.eq_of_mul_eq_mul_left hd (by omega)
  have herr := roundError_roundHalfEven hd num
  unfold roundError at herr
  rw [heq] at herr
  omega

/-- Below half a last place under a power of two rounding stays below the power. -/
theorem roundMag_lt_two_pow_of_lt {num den e : Nat} (hd : 0 < den) (h : num < den * ((2 ^ 54 - 1) * 2 ^ e)) :
    roundMag num den < 2 ^ 54 * 2 ^ e := by
  have hpow : (2 : Nat) ^ (e + 1) = 2 * 2 ^ e := by rw [Nat.pow_succ, Nat.mul_comm]
  have hpos := Nat.two_pow_pos e
  have hquot : num / den < (2 ^ 54 - 1) * 2 ^ e := Nat.div_lt_of_lt_mul h
  have hplace : F64.lastPlace (num / den) ≤ e + 1 := F64.lastPlace_le_of_lt (by rw [hpow]; omega)
  have hsig := roundHalfEven_le_significand num den
  unfold roundMag
  dsimp only
  rcases hplace.eq_or_lt with heq | hlt
  · rw [heq]
    have hle : roundHalfEven num (den * 2 ^ (e + 1)) ≤ 2 ^ 53 - 1 := by
      refine roundHalfEven_le_of_lt (Nat.mul_pos hd (Nat.two_pow_pos _)) ?_
      calc 2 * num < 2 * (den * ((2 ^ 54 - 1) * 2 ^ e)) := by omega
        _ = 2 * (den * 2 ^ (e + 1) * (2 ^ 53 - 1)) + den * 2 ^ (e + 1) := by rw [hpow]; ring
    calc _ ≤ (2 ^ 53 - 1) * 2 ^ (e + 1) := Nat.mul_le_mul_right _ hle
      _ < 2 ^ 54 * 2 ^ e := by rw [hpow]; omega
  · calc _ ≤ 2 ^ 53 * 2 ^ e := Nat.mul_le_mul hsig (Nat.pow_le_pow_right (by omega) (by omega))
      _ < 2 ^ 54 * 2 ^ e := by omega

/-- From half a last place under a power of two on rounding reaches the power: the midpoint's lower neighbour is odd. -/
theorem two_pow_le_roundMag_of_le {num den e : Nat} (hd : 0 < den) (h : den * ((2 ^ 54 - 1) * 2 ^ e) ≤ num) :
    2 ^ 54 * 2 ^ e ≤ roundMag num den := by
  have hpow : (2 : Nat) ^ (e + 1) = 2 * 2 ^ e := by rw [Nat.pow_succ, Nat.mul_comm]
  have hpos := Nat.two_pow_pos e
  have hquot : (2 ^ 54 - 1) * 2 ^ e ≤ num / den := (Nat.le_div_iff_mul_le hd).2 (by rwa [Nat.mul_comm])
  have hplace : e + 1 ≤ F64.lastPlace (num / den) := by
    rw [← F64.lastPlace_mul_pow (r := 2 ^ 52) (k := e + 1) le_rfl (by omega)]
    exact F64.lastPlace_mono (by rw [hpow]; omega)
  have hsig := le_roundHalfEven_significand (num := num) (den := den) (by omega)
  unfold roundMag
  dsimp only
  rcases hplace.eq_or_lt with heq | hlt
  · rw [← heq]
    have hle : 2 ^ 53 - 1 < roundHalfEven num (den * 2 ^ (e + 1)) := by
      refine lt_roundHalfEven_of_le (Nat.mul_pos hd (Nat.two_pow_pos _)) (by norm_num) ?_
      calc 2 * (den * 2 ^ (e + 1) * (2 ^ 53 - 1)) + den * 2 ^ (e + 1) = 2 * (den * ((2 ^ 54 - 1) * 2 ^ e)) := by
            rw [hpow]; ring
        _ ≤ 2 * num := by omega
    calc 2 ^ 54 * 2 ^ e = 2 ^ 53 * 2 ^ (e + 1) := by rw [hpow]; omega
      _ ≤ _ := Nat.mul_le_mul_right _ hle
  · calc 2 ^ 54 * 2 ^ e = 2 ^ 52 * 2 ^ (e + 1 + 1) := by rw [Nat.pow_succ 2 (e + 1), hpow]; omega
      _ ≤ _ := Nat.mul_le_mul hsig (Nat.pow_le_pow_right Nat.two_pos hlt)

/-- The limit, 2^1024, as a power of two with the threshold's weight 2^970 for a factor. -/
theorem F64.limit_eq : F64.limit = 2 ^ 54 * 2 ^ (F64.unitExp + 970) := by
  have hexp : 54 + (F64.unitExp + 970) = 2098 := by rw [F64.unitExp_eq]
  refine le_antisymm (F64.limit_le_mul hexp.ge) ?_
  rw [← Nat.pow_add]
  exact F64.two_pow_le_limit hexp.le

/-- Rounding answers an infinity exactly when the rounded magnitude is past every finite binary64. -/
theorem F64.round_eq_inf_iff {neg : Bool} {num den : Nat} :
    F64.round neg num den = .inf neg ↔ F64.limit ≤ roundMag num den := by
  unfold F64.round
  dsimp only
  split
  · next h => simpa using h
  · next h => simpa using h

/-- Settles O31: the limit is a power of two, and the threshold is half a last place under it. -/
theorem overflowThreshold : Obligations.OverflowThreshold := by
  unfold Obligations.OverflowThreshold
  intro neg num den hd
  rw [F64.round_eq_inf_iff, F64.limit_eq]
  refine ⟨fun h => ?_, two_pow_le_roundMag_of_le hd⟩
  by_contra hlt
  exact absurd h (Nat.not_le.2 (roundMag_lt_two_pow_of_lt hd (Nat.not_le.1 hlt)))

end Sys2Proof.Machine
end

section
/-! The extractor's arithmetic (R161 to R165): the fraction of a finite combination is exact, the perturbation cannot
overflow and stays below 1.0, and scaling it by 256.0 moves only the exponent. -/

namespace Sys2Proof.Machine

open Sys2Proof

/-! ### The fraction -/

/-- A difference of nonnegative values that is a binary64 is exact (R140). -/
theorem fsub_of_wf {m n : Nat} (hle : n ≤ m) (hwf : (F64.fin false (m - n)).wf = true) :
    fsub (.fin false m) (.fin false n) = .fin false (m - n) := by
  have hround : F64.round false (m - n) 1 = .fin false (m - n) := by simpa using F64.round_of_wf Nat.one_pos hwf
  rcases hle.eq_or_lt with rfl | hlt
  · simp [fsub, F64.neg, fadd]
  · simp [fsub, F64.neg, fadd, hlt, hlt.ne', hround]

theorem wf_fOne : fOne.wf = true := F64.wf_ofBits _

/-- Modulo 1.0 a nonnegative value is its remainder (R10). -/
theorem ffmod_fOne (m : Nat) : ffmod (.fin false m) fOne = .fin false (m % F64.one) := by
  rw [fOne_eq, ffmod, if_neg F64.one_pos.ne']

/-- The fraction of a finite binary64 is its magnitude modulo 1.0 (R163). -/
theorem fraction_fin {s : Bool} {m : Nat} (h : (F64.fin s m).wf = true) :
    fraction (.fin s m) = .fin false (m % F64.one) := by
  have hrem : m - F64.one * (m / F64.one) = m % F64.one := by
    have := Nat.div_add_mod m F64.one
    omega
  have hwf : (F64.fin false (m % F64.one)).wf = true := by
    rw [← ffmod_fOne]
    exact F64.wf_ffmod (F64.wf_fin.2 (F64.wf_fin.1 h)) wf_fOne
  rw [← hrem] at hwf ⊢
  exact fsub_of_wf (Nat.mul_div_le m F64.one) hwf

/-- Settles O44: the floor is the whole part, and what is left has no more significant bits than the value. -/
theorem fractionalPartIsExact : Obligations.FractionalPartIsExact := by
  unfold Obligations.FractionalPartIsExact
  exact fun s m h => fraction_fin h

/-! ### The perturbation -/

/-- A counter converts exactly (R10). -/
theorem cvtU32_eq (v : Word) : cvtU32 v = .fin false (F64.one * v.toNat) := by
  have hwf : (F64.fin false (F64.one * v.toNat)).wf = true := F64.wf_one_mul (by have := v.isLt; omega)
  simpa [cvtU32] using F64.round_of_wf Nat.one_pos hwf

/-- K_CTR lies strictly between 0.0 and 1.0 (R164). -/
theorem inUnit_kCtr : kCtr.InUnit := F64.inUnit_ofBits (by decide) (by decide)

/-- A value under half a last place below a power of two, itself no more than the limit, rounds to a finite value
below that power. -/
theorem F64.round_fin_of_lt {neg : Bool} {num den e : Nat} (hd : 0 < den) (he : e ≤ F64.unitExp + 970)
    (h : num < den * ((2 ^ 54 - 1) * 2 ^ e)) :
    ∃ r, F64.round neg num den = .fin neg r ∧ r < 2 ^ 54 * 2 ^ e := by
  have hlt := roundMag_lt_two_pow_of_lt hd h
  have hlimit : roundMag num den < F64.limit := by
    rw [F64.limit_eq]
    exact lt_of_lt_of_le hlt (Nat.mul_le_mul_left _ (Nat.pow_le_pow_right Nat.two_pos he))
  exact ⟨_, by simp only [F64.round, hlimit, if_true], hlt⟩

/-- A counter times K_CTR is finite: both factors are small (R164). -/
theorem fmul_cvtU32_kCtr (v : Word) :
    ∃ p, fmul (cvtU32 v) kCtr = .fin false p ∧ p < 2 ^ 54 * 2 ^ F64.unitExp := by
  obtain ⟨k, hk, -, hlt⟩ := inUnit_kCtr
  have hprod : F64.one * v.toNat * k < F64.one * ((2 ^ 54 - 1) * 2 ^ F64.unitExp) := by
    rw [Nat.mul_assoc]
    exact Nat.mul_lt_mul_of_pos_left (Nat.mul_lt_mul'' (by have := v.isLt; omega) hlt) F64.one_pos
  rw [cvtU32_eq, hk, fmul]
  exact F64.round_fin_of_lt F64.one_pos (Nat.le_add_right _ _) hprod

/-- The perturbed fraction is a binary64 in [0.0, 1.0) (R164). -/
theorem perturb_fin {m : Nat} (h : m < F64.one) (ctr : Word) :
    ∃ g, perturb (.fin false m) ctr = .fin false g ∧ g < F64.one ∧ (F64.fin false g).wf = true := by
  obtain ⟨p, hp, hplt⟩ := fmul_cvtU32_kCtr ctr
  have hsum : m + p < 1 * ((2 ^ 54 - 1) * 2 ^ (F64.unitExp + 1)) := by
    rw [F64.one] at h
    rw [Nat.pow_succ]
    omega
  obtain ⟨r, hr, -⟩ := F64.round_fin_of_lt (neg := false) Nat.one_pos (by omega) hsum
  have hadd : fadd (.fin false m) (.fin false p) = .fin false r := by simpa [fadd] using hr
  have hperturb : perturb (.fin false m) ctr = .fin false (r % F64.one) := by
    rw [perturb, hp, hadd, ffmod_fOne]
  refine ⟨_, hperturb, Nat.mod_lt _ F64.one_pos, ?_⟩
  rw [← hperturb]
  exact F64.wf_ffmod (F64.wf_fadd _ _) wf_fOne

/-! ### The scaling -/

/-- The literal 256.0 (R165). -/
theorem f256_eq : f256 = .fin false (2 ^ 8 * F64.one) := by
  have hbits : (0x4070000000000000 : DWord) = F64.pack false (1023 + 8) 0 := by decide
  rw [f256, hbits, F64.ofBits_pack_two_pow (by omega)]

/-- A power of two times a binary64 has the same significand. -/
theorem F64.dvd_mul_two_pow {m k : Nat} (h : 2 ^ F64.lastPlace m ∣ m) :
    2 ^ F64.lastPlace (m * 2 ^ k) ∣ m * 2 ^ k := by
  have hle : F64.lastPlace (m * 2 ^ k) ≤ F64.lastPlace m + k := by
    refine F64.lastPlace_le_of_lt ?_
    rw [Nat.pow_add, ← Nat.mul_assoc]
    exact Nat.mul_lt_mul_of_pos_right (F64.lt_lastPlace m) (Nat.two_pow_pos k)
  exact (Nat.pow_dvd_pow 2 hle).trans (Nat.pow_add 2 _ k ▸ Nat.mul_dvd_mul_right h _)

/-- Scaling a value below 1.0 by 256.0 is exact (R165). -/
theorem fmul_f256 {g : Nat} (hlt : g < F64.one) (hwf : (F64.fin false g).wf = true) :
    fmul (.fin false g) f256 = .fin false (g * 2 ^ 8) := by
  have hlimit : g * 2 ^ 8 < F64.limit := by
    refine lt_of_lt_of_le (Nat.mul_lt_mul_of_pos_right hlt (Nat.two_pow_pos 8)) ?_
    rw [F64.one, ← Nat.pow_add]
    exact Nat.pow_le_pow_right Nat.two_pos (by omega)
  have hscaled : (F64.fin false (g * 2 ^ 8)).wf = true :=
    F64.wf_fin.2 ⟨hlimit, F64.dvd_mul_two_pow (F64.wf_fin.1 hwf).2⟩
  rw [f256_eq, fmul, ← Nat.mul_assoc]
  exact F64.round_of_wf F64.one_pos hscaled

/-- The integer of a floor is the whole part (R10). -/
theorem ftoint_ffloor {m : Nat} (h : m / F64.one ≤ 255) :
    ftoint (ffloor (.fin false m)) = some (m / F64.one) := by
  simp [ffloor, ftoint, F64.one_pos, h]

/-- The scaled fraction is the whole part of 256 times it, which is in 0..255 (R165). -/
theorem ftoint_scaled {g : Nat} (hlt : g < F64.one) (hwf : (F64.fin false g).wf = true) :
    ftoint (ffloor (fmul (.fin false g) f256)) = some (g * 256 / F64.one) ∧ g * 256 / F64.one ≤ 255 := by
  have hle : g * 256 / F64.one ≤ 255 := Nat.le_of_lt_succ (Nat.div_lt_of_lt_mul (by omega))
  rw [fmul_f256 hlt hwf]
  exact ⟨ftoint_ffloor hle, hle⟩

/-- Settles O45: the perturbed fraction is a binary64 below 1.0, and scaling it is exact. -/
theorem perturbedFractionScalesToByte : Obligations.PerturbedFractionScalesToByte := by
  unfold Obligations.PerturbedFractionScalesToByte
  intro m ctr hlt _
  obtain ⟨g, hperturb, hglt, hgwf⟩ := perturb_fin hlt ctr
  obtain ⟨hbyte, hle⟩ := ftoint_scaled hglt hgwf
  exact ⟨g, hperturb, hglt, hbyte, hle⟩

end Sys2Proof.Machine
end

section
/-! The extractor KBYTEF (R160 to R170): it answers exactly for a finite combination, with the byte of its formula, and
it sees the combination only through its magnitude. -/

namespace Sys2Proof.Machine

open Sys2Proof

/-! ### When there is a byte -/

theorem isfinite_iff {a : F64} : isfinite a = true ↔ ∃ s m, a = .fin s m := by
  cases a <;> simp [isfinite]

theorem isfinite_of_fadd {a b : F64} (h : isfinite (fadd a b) = true) : isfinite a = true ∧ isfinite b = true := by
  cases a with
  | nan => simp [isfinite] at h
  | inf s =>
    cases b with
    | nan => cases h
    | inf t =>
      simp only [fadd] at h
      split at h <;> cases h
    | fin t n => cases h
  | fin s m =>
    cases b with
    | nan => cases h
    | inf t => cases h
    | fin t n => exact ⟨rfl, rfl⟩

/-- A finite product of a finite factor has its other factor finite. -/
theorem isfinite_of_fmul {a b : F64} (h : isfinite (fmul a b) = true) : isfinite a = true := by
  cases a with
  | nan => simp [isfinite] at h
  | inf s =>
    cases b with
    | nan => cases h
    | inf t => cases h
    | fin t n =>
      simp only [fmul] at h
      split at h <;> cases h
  | fin s m => rfl

/-- A finite combination has finite coordinates (R162). -/
theorem isfinite_of_combination {c : Chaos} (h : isfinite (combination c) = true) :
    isfinite c.x = true ∧ isfinite c.y = true ∧ isfinite c.z = true := by
  obtain ⟨hxy, hz⟩ := isfinite_of_fadd h
  obtain ⟨hx, hy⟩ := isfinite_of_fadd hxy
  exact ⟨isfinite_of_fmul hx, isfinite_of_fmul hy, isfinite_of_fmul hz⟩

/-- With a finite combination the scaled fraction is an integer in 0..255, and the answer is its byte after the three
passes (R163 to R168). -/
theorem kbyteF_of_finite {c : Chaos} (h : isfinite (combination c) = true) (ctr : Word) :
    ∃ b, ftoint (ffloor (fmul (perturb (fraction (combination c)) ctr) f256)) = some b ∧
      kbyteF c ctr = some (passes b ctr) := by
  obtain ⟨s, m, hcomb⟩ := isfinite_iff.1 h
  have hwf : (F64.fin s m).wf = true := hcomb ▸ F64.wf_fadd _ _
  obtain ⟨g, hperturb, hlt, hgwf⟩ := perturb_fin (Nat.mod_lt m F64.one_pos) ctr
  obtain ⟨hbyte, hle⟩ := ftoint_scaled hlt hgwf
  rw [hcomb, fraction_fin hwf, hperturb]
  refine ⟨_, hbyte, ?_⟩
  simp only [kbyteF, hcomb, isfinite, if_true, fraction_fin hwf, hperturb, scaleByte, hbyte, Option.map_some,
    Nat.mod_eq_of_lt (Nat.lt_succ_of_le hle)]

/-- NUMERIC is raised exactly when the combination is not finite (R162). -/
theorem kbyteF_eq_none_iff {c : Chaos} {ctr : Word} : kbyteF c ctr = none ↔ isfinite (combination c) = false := by
  cases h : isfinite (combination c) with
  | false => simp [kbyteF, h]
  | true =>
    obtain ⟨b, -, hb⟩ := kbyteF_of_finite h ctr
    simp [hb]

/-- Settles O46: the combination decides, and it is finite only if its coordinates are. -/
theorem numericExactlyWhenCombinationNotFinite : Obligations.NumericExactlyWhenCombinationNotFinite := by
  unfold Obligations.NumericExactlyWhenCombinationNotFinite
  intro c ctr comb hcomb
  obtain rfl : comb = combination c := hcomb
  refine ⟨kbyteF_eq_none_iff, fun hcoord => kbyteF_eq_none_iff.2 ?_⟩
  refine Bool.eq_false_iff.2 fun hfin => ?_
  obtain ⟨hx, hy, hz⟩ := isfinite_of_combination hfin
  simp [hx, hy, hz] at hcoord

/-! ### Opposite values -/

/-- Two values that differ in sign alone. The sign of a zero is left open: a sum of values that cancel is +0 whichever
of them is the negative one (R10). -/
inductive F64.Opposite : F64 → F64 → Prop where
  | nan : Opposite .nan .nan
  | inf (s : Bool) : Opposite (.inf s) (.inf !s)
  | fin {s t : Bool} {m n : Nat} (h : signed t n = -signed s m) : Opposite (.fin s m) (.fin t n)

theorem F64.opposite_neg (a : F64) : F64.Opposite a a.neg := by
  cases a with
  | nan => exact .nan
  | inf s => exact .inf s
  | fin s m => exact .fin (signed_not s m)

/-- Opposite signed integers have one magnitude, and opposite signs unless they are zero. -/
theorem eq_and_sign_of_signed_eq_neg {s t : Bool} {m n : Nat} (h : signed t n = -signed s m) :
    n = m ∧ (m = 0 ∨ t = !s) := by
  have hmag : n = m := by rw [← natAbs_signed t n, h, Int.natAbs_neg, natAbs_signed]
  refine ⟨hmag, ?_⟩
  subst hmag
  rcases eq_or_ne t s with rfl | hne
  · have hzero : signed t n = 0 := by omega
    exact .inl (by simpa [hzero] using (natAbs_signed t n).symm)
  · exact .inr (Bool.eq_not_of_ne hne)

/-- Rounding is symmetric (R140). -/
theorem F64.opposite_round {s t : Bool} {m n : Nat} (h : signed t n = -signed s m) :
    F64.Opposite (F64.round s m 1) (F64.round t n 1) := by
  obtain ⟨rfl, rfl | rfl⟩ := eq_and_sign_of_signed_eq_neg h
  · have hzero : ∀ u : Bool, F64.round u 0 1 = .fin u 0 := fun u => by
      simpa using F64.round_of_wf Nat.one_pos (F64.wf_zero u)
    rw [hzero, hzero]
    exact .fin (by simpa using h)
  · unfold F64.round
    dsimp only
    split
    · exact .fin (signed_not _ _)
    · exact .inf _

/-- Opposite operands have opposite sums. -/
theorem F64.opposite_fadd {a a' b b' : F64} (ha : F64.Opposite a a') (hb : F64.Opposite b b') :
    F64.Opposite (fadd a b) (fadd a' b') := by
  cases ha with
  | nan => simpa using F64.Opposite.nan
  | inf s =>
    cases hb with
    | nan => exact .nan
    | inf t =>
      simp only [fadd, Bool.not_inj_iff]
      split
      · exact .inf s
      · exact .nan
    | fin _ => exact .inf s
  | @fin s s' m m' hm =>
    cases hb with
    | nan => exact .nan
    | inf t => exact .inf t
    | @fin t t' n n' hn =>
      obtain ⟨neg, num, hsum, hround⟩ := fadd_fin s t m n
      obtain ⟨neg', num', hsum', hround'⟩ := fadd_fin s' t' m' n'
      rw [hround, hround']
      refine F64.opposite_round ?_
      rw [← hsum, ← hsum', hm, hn]
      ring

/-- Changing the sign of a factor changes the sign of the product. -/
theorem fmul_neg_left (a b : F64) : fmul a.neg b = (fmul a b).neg := by
  cases a with
  | nan => simp [F64.neg]
  | inf s =>
    cases b with
    | nan => rfl
    | inf t => simp [F64.neg, fmul, Bool.not_bne]
    | fin t n =>
      simp only [F64.neg, fmul, Bool.not_bne]
      split <;> rfl
  | fin s m =>
    cases b with
    | nan => rfl
    | inf t =>
      simp only [F64.neg, fmul, Bool.not_bne]
      split <;> rfl
    | fin t n =>
      simp only [F64.neg, fmul, Bool.not_bne, F64.round]
      split <;> rfl

/-- The opposite triple has the opposite combination (R161). -/
theorem opposite_combination (c : Chaos) : F64.Opposite (combination c) (combination ⟨c.x.neg, c.y.neg, c.z.neg⟩) := by
  simp only [combination, fmul_neg_left]
  exact F64.opposite_fadd (F64.opposite_fadd (F64.opposite_neg _) (F64.opposite_neg _)) (F64.opposite_neg _)

theorem F64.Opposite.fabs_eq {a a' : F64} (h : F64.Opposite a a') : fabs a' = fabs a := by
  cases h with
  | nan => rfl
  | inf s => rfl
  | fin h =>
    obtain ⟨rfl, -⟩ := eq_and_sign_of_signed_eq_neg h
    rfl

theorem isfinite_fabs (a : F64) : isfinite (fabs a) = isfinite a := by cases a <;> rfl

/-- The extractor sees the combination only through its magnitude (R162, R163). -/
theorem kbyteF_congr {c c' : Chaos} (h : fabs (combination c') = fabs (combination c)) (ctr : Word) :
    kbyteF c' ctr = kbyteF c ctr := by
  have hfin : isfinite (combination c') = isfinite (combination c) := by rw [← isfinite_fabs, h, isfinite_fabs]
  simp only [kbyteF, fraction, hfin, h]

/-- Settles O47: opposite combinations have one magnitude. -/
theorem oppositeStatesGiveSameByte : Obligations.OppositeStatesGiveSameByte := by
  unfold Obligations.OppositeStatesGiveSameByte
  exact fun c ctr => kbyteF_congr (opposite_combination c).fabs_eq ctr

end Sys2Proof.Machine
end


section
/-! The command EXTRACT (R171, R172). -/

namespace Sys2Proof.Machine

open Sys2Proof

/-- The answer of the extractor decides what EXTRACT answers. -/
theorem exec_extract_of_some {s : State} {b : Byte} (h : kbyteF s.chaos s.ctr = some b) :
    exec .extract s = .next ((s.writeKb b).complete .noError) := by
  simp only [exec, execExtract, h]

theorem exec_extract_of_none {s : State} (h : kbyteF s.chaos s.ctr = none) :
    exec .extract s = .next (s.complete .numeric) := by
  simp only [exec, execExtract, h]

/-- A command that fails with NUMERIC leaves STATUS with DONE, ERR and code 4 (R225). -/
theorem State.statusWord_complete_numeric (s : State) : (s.complete .numeric).statusWord = 0x00000046 := by
  simp only [State.statusWord, State.errFlag, State.busy, State.complete_phase, State.complete_done,
    State.complete_err]
  decide

/-- Completing a command changes STATUS alone (R221, R225). -/
theorem State.sameButStatus_complete (s : State) (c : ErrCode) : s.sameButStatus (s.complete c) := by
  simp [State.sameButStatus, State.sameOperands, State.sameTriple, State.sameBytes]

/-- Pass 2 with its shifts as arithmetic (R167). -/
theorem pass2_eq (b c : Nat) : pass2 b c = b ^^^ (b / 16 ^^^ (b * 8 % 256) ^^^ c % 97) := by
  simp [pass2, Nat.shiftRight_eq_div_pow, Nat.shiftLeft_eq]

/-- The byte after the three passes, as a number (R166 to R168). -/
theorem passes_toNat (b : Nat) (c : Word) :
    (passes b c).toNat = (pass2 (pass1 b c.toNat) c.toNat * 167 + 123) % 256 := by
  simp [passes, pass3]

/-- KB reads its byte, zero-extended (R27). -/
theorem State.readReg_kb_toNat (s : State) : (s.readReg .kb).toNat = s.kb.toNat := by
  rw [State.readReg, BitVec.toNat_setWidth_of_le (by omega)]

/-- Settles O48: the extractor's byte by its formula, and the frame of the two operations EXTRACT is made of. -/
theorem extractCompletes : Obligations.ExtractCompletes := by
  unfold Obligations.ExtractCompletes
  intro s comb hcomb hfin
  obtain rfl : comb = combination s.chaos := hcomb
  obtain ⟨b, hscaled, hbyte⟩ := kbyteF_of_finite hfin s.ctr
  refine ⟨_, perturb (fraction (combination s.chaos)) s.ctr, b, _, _, exec_extract_of_some hbyte, rfl, hscaled, rfl,
    rfl, ?kb, hbyte, State.complete_phase _ _, State.statusWord_complete_noError _, ?operands, ?triple, ?bytes⟩
  case kb =>
    rw [State.readReg_kb_toNat, State.complete_kb, State.writeKb_kb, passes_toNat, pass2_eq, pass1]
  case operands => simp [State.sameOperands]
  case triple => simp [State.sameTriple]
  case bytes => simp [State.sameBytes]

/-- Settles O49: without a byte EXTRACT only completes. -/
theorem extractNumericChangesOnlyStatus : Obligations.ExtractNumericChangesOnlyStatus := by
  unfold Obligations.ExtractNumericChangesOnlyStatus
  intro s comb hcomb hfin
  obtain rfl : comb = combination s.chaos := hcomb
  exact ⟨_, exec_extract_of_none (kbyteF_eq_none_iff.2 hfin), State.complete_phase _ _,
    State.statusWord_complete_numeric s, s.sameButStatus_complete _, State.complete_draws _ _⟩

end Sys2Proof.Machine
end

section
/-! The engine's turn (R190) and the agenda (R71, R262): the turn always answers and leaves the block idle, and a step
takes exactly the first event. -/

namespace Sys2Proof.Machine

open Sys2Proof

/-! ### The engine's turn -/

/-- While busy with a command the engine's turn executes it (R190). -/
theorem engineTurn_of_pending {s : State} {w : Word} {i : Instr} (hp : s.phase = .busy w) (hw : decodeWord w = .ok i) :
    engineTurn s = exec i s := by
  simp only [engineTurn, State.fetch, hp, hw]

/-- At an engine event and with an empty agenda a step is the engine's turn, with that event gone (log entry 7). -/
theorem step_engine {s : State} (ha : s.agenda = [] ∨ ∃ es, s.agenda = .engine :: es) :
    step s = engineTurn { s with agenda := s.agenda.tail } := by
  rcases ha with ha | ⟨es, ha⟩
  · have hs : { s with agenda := s.agenda.tail } = s := by rw [ha, List.tail_nil, ← ha]
    rw [hs]
    simp only [step, ha]
  · simp only [step, ha, List.tail_cons]

/-- Settles O5: both clauses are the engine's turn with a pending command. -/
theorem stepExecutesPendingCommand : Obligations.StepExecutesPendingCommand := by
  unfold Obligations.StepExecutesPendingCommand
  intro s w i es hp hw
  constructor
  · intro ha
    rw [step_engine (.inr ⟨es, ha⟩), ha, List.tail_cons]
    exact engineTurn_of_pending (s := { s with agenda := es }) hp hw
  · intro ha
    simp only [step, ha]
    exact engineTurn_of_pending hp hw

/-- The engine's turn answers a next state, whatever is pending (R190, R227). -/
theorem engineTurn_total (s : State) : ∃ t, engineTurn s = .next t := by
  rcases engineTurn_cases s with ⟨-, h⟩ | ⟨w, i, -, -, h⟩ | ⟨w, e, -, -, h⟩
  · exact ⟨_, h⟩
  · obtain ⟨c, u, hexec, -, -⟩ := exec_completes i s
    exact ⟨_, h.trans hexec⟩
  · exact ⟨_, h⟩

/-- The engine's turn leaves the block idle: a pending command is executed completely (R190). -/
theorem engineTurn_idle {s t : State} (h : engineTurn s = .next t) : t.phase = .idle := by
  rcases engineTurn_next h with ⟨hidle, rfl⟩ | ⟨-, c, u, rfl, -, -⟩
  · exact hidle
  · exact State.complete_phase u c

/-- The engine's turn keeps the events to come. -/
theorem engineTurn_agenda {s t : State} (h : engineTurn s = .next t) : t.agenda = s.agenda := by
  rcases engineTurn_next h with ⟨-, rfl⟩ | ⟨-, c, u, rfl, ⟨-, -, -, -, -, hagenda, -⟩, -⟩
  · rfl
  · exact hagenda

/-- A command whose length was accepted ends with success or with NUMERIC (R220, R225). -/
theorem exec_accepted {i : Instr} {s : State} (hlen : i.usesLen = true → s.lengthError = none) :
    ∃ (u : State) (c : ErrCode), exec i s = .next (u.complete c) ∧ (c = .noError ∨ c = .numeric) := by
  rcases exec_cases i s with ⟨-, h⟩ | ⟨-, h⟩ | ⟨-, b, -, h⟩ | ⟨-, -, h⟩ | ⟨hi, h⟩
  · exact ⟨_, _, h, .inl rfl⟩
  · exact ⟨_, _, h, .inl rfl⟩
  · exact ⟨_, _, h, .inl rfl⟩
  · exact ⟨_, _, h, .inr rfl⟩
  · have hnone : s.lengthError = none := hlen (by rcases hi with rfl | rfl <;> rfl)
    rcases s.drive_cases with ⟨e, he, -⟩ | ⟨-, -, hd⟩ | ⟨ks, c, -, -, hd⟩
    · cases hnone.symm.trans he
    · exact ⟨_, _, hd ▸ h, .inr rfl⟩
    · exact ⟨_, _, hd ▸ h, .inl rfl⟩

/-- What the invariant says of a busy state: a command is pending, and its length has been accepted (R224). -/
theorem State.Inv.pending {s : State} {w : Word} (h : s.Inv) (hp : s.phase = .busy w) :
    ∃ i, decodeWord w = .ok i ∧ (i.usesLen = true → s.lengthError = none) := by
  obtain ⟨-, -, hstatus⟩ := h
  rcases State.statusCoherent_iff.1 hstatus with ⟨hidle, -⟩ | ⟨hidle, -⟩ | ⟨w', i, hbusy, -, -, hw, hlen⟩
  · cases hp.symm.trans hidle
  · cases hp.symm.trans hidle
  · cases hp.symm.trans hbusy
    exact ⟨i, hw, hlen⟩

/-- Settles O7: the invariant gives a pending command with an accepted length, and that ends in one of two ways. -/
theorem engineTurnCompletesCommand : Obligations.EngineTurnCompletesCommand := by
  unfold Obligations.EngineTurnCompletesCommand
  intro s w hinv hp ha
  obtain ⟨i, hw, hlen⟩ := hinv.pending hp
  have hturn := engineTurn_of_pending (s := { s with agenda := s.agenda.tail }) hp hw
  obtain ⟨u, c, hexec, hc⟩ := exec_accepted (s := { s with agenda := s.agenda.tail }) hlen
  refine ⟨_, (step_engine ha).trans (hturn.trans hexec), State.complete_phase u c,
    engineTurn_agenda (hturn.trans hexec), ?_⟩
  rcases hc with rfl | rfl
  · exact .inl u.statusWord_complete_noError
  · exact .inr u.statusWord_complete_numeric

/-! ### The agenda -/

/-- A write access schedules nothing and removes no event. -/
theorem State.serveWrite_agenda (off : Nat) (w : BusWidth) (v : Word) (s : State) :
    (s.serveWrite off w v).2.agenda = s.agenda := by
  rcases s.serveWrite_effect off w v with h | ⟨-, -, -, h⟩ | ⟨-, -, r, -, h⟩ | ⟨-, h⟩ <;> rw [h]
  · obtain ⟨p, d, e, ha⟩ := s.accept_state v
    rw [ha]
  · exact State.writeReg_agenda r v s
  · obtain ⟨m, hm⟩ := State.writeBytes_state w.bytes off v s
    rw [hm]

/-- A step takes the first event of the agenda and leaves the others (R71). -/
theorem step_agenda {s t : State} (h : step s = .next t) : t.agenda = s.agenda.tail := by
  rcases step_next_cases h with
    ⟨es, ha, -⟩ | ⟨es, ha, rfl⟩ | ⟨a, w, es, r, d, ha, rfl⟩ | ⟨off, w, v, es, r, ha, rfl⟩
  · exact engineTurn_agenda ((step_engine (ha.imp_right fun he => ⟨es, he⟩)).symm.trans h)
  · rw [ha]; rfl
  · rw [ha]; rfl
  · rw [ha, State.respond_agenda, State.serveWrite_agenda]; rfl

theorem State.inWindow_of_head {s : State} {e : Event} {es : List Event} (h : s.agendaInWindow = true)
    (ha : s.agenda = e :: es) : e.inWindow s.cfg = true := by
  rw [State.agendaInWindow, ha, List.all_cons, Bool.and_eq_true] at h
  exact h.1

/-- What is left of the agenda after a step still reaches the block: the window does not move (R61). -/
theorem agendaInWindow_of_step {s t : State} (hs : s.agendaInWindow = true) (h : step s = .next t) :
    t.agendaInWindow = true := by
  rw [State.agendaInWindow, step_agenda h, step_cfg h]
  exact List.all_eq_true.2 fun e he => List.all_eq_true.1 hs e (List.mem_of_mem_tail he)

/-- A step whose event, if it is an access, reaches the block answers a next state (R61, R227). -/
theorem step_total {s : State} (h : s.agendaInWindow = true) : ∃ t, step s = .next t := by
  rcases step_cases s with ⟨-, hs⟩ | ⟨es, -, hs⟩ | ⟨es, -, hs⟩ | ⟨a, w, es, ha, hs⟩ | ⟨a, w, v, es, ha, hs⟩ <;> rw [hs]
  · exact engineTurn_total _
  · exact engineTurn_total _
  · exact ⟨_, rfl⟩
  · rcases hostRead_cases a w { s with agenda := es } with ⟨off, r, d, -, -, hr⟩ | ⟨hnone, -⟩
    · exact ⟨_, hr⟩
    · simpa [Event.inWindow, hnone] using State.inWindow_of_head h ha
  · rcases hostWrite_cases a w v { s with agenda := es } with ⟨off, -, hw⟩ | ⟨hnone, -⟩
    · exact ⟨_, hw⟩
    · simpa [Event.inWindow, hnone] using State.inWindow_of_head h ha

/-- Settles O8, by induction on the agenda: each step takes its event, and the one after the last is the engine's
turn. -/
theorem agendaDrainsToIdle : Obligations.AgendaDrainsToIdle := by
  unfold Obligations.AgendaDrainsToIdle
  intro s hs
  generalize hes : s.agenda = es
  induction es generalizing s with
  | nil =>
    obtain ⟨t, ht⟩ := step_total hs
    have hidle : t.phase = .idle := engineTurn_idle ((step_engine (.inl hes)).symm.trans ht)
    have hempty : t.agenda = [] := by rw [step_agenda ht, hes, List.tail_nil]
    refine ⟨t, run_succ_of_next ht, ?_⟩
    simp [State.ended, hempty, State.busy_eq_false_iff.2 hidle]
  | cons e es ih =>
    obtain ⟨t, ht⟩ := step_total hs
    have htail : t.agenda = es := by rw [step_agenda ht, hes, List.tail_cons]
    obtain ⟨u, hu, hended⟩ := ih t (agendaInWindow_of_step hs ht) htail
    exact ⟨u, (run_succ_of_next ht).trans hu, hended⟩

end Sys2Proof.Machine
end

section
/-! The driver's outcomes (R193 to R197): a refused length, a NUMERIC error at some keystream position, or success with
the input xored with the position bytes. -/

namespace Sys2Proof.Machine

open Sys2Proof

/-! ### STATUS after a command -/

/-- After a command STATUS tells its outcome and nothing else (R24, R225). -/
theorem State.statusWord_complete (s : State) (c : ErrCode) :
    (s.complete c).statusWord = 0#24 ++ c.code ++ 0#1 ++ BitVec.ofBool (c != .noError) ++ 1#1 ++ 0#1 := rfl

theorem State.statusWord_complete_congr (s s' : State) (c : ErrCode) :
    (s.complete c).statusWord = (s'.complete c).statusWord :=
  (s.statusWord_complete c).trans (s'.statusWord_complete c).symm

theorem State.statusWord_complete_invalidLength (s : State) : (s.complete .invalidLength).statusWord = 0x00000026 :=
  (s.statusWord_complete _).trans (by decide)

theorem State.statusWord_complete_lengthExceedsBuffer (s : State) :
    (s.complete .lengthExceedsBuffer).statusWord = 0x00000036 :=
  (s.statusWord_complete _).trans (by decide)

/-- A command that leaves STATUS with DONE alone has recorded no error (R24). -/
theorem State.err_of_success {s : State} {c : ErrCode} (h : (s.complete c).statusWord = 0x00000002) :
    c = .noError := by
  obtain ⟨-, -, hflag, -⟩ := (s.complete c).statusWord_flags
  rw [h] at hflag
  exact State.errFlag_eq_false_iff.1 hflag.symm

/-! ### The length -/

theorem State.lengthError_of_nonpos {s : State} (h : s.len.toInt ≤ 0) : s.lengthError = some .invalidLength := by
  have hle : s.lenValue ≤ 0 := h
  rcases s.lengthError_cases with ⟨-, he⟩ | ⟨hgt, -⟩ | ⟨hpos, -, -⟩
  · exact he
  · omega
  · omega

theorem State.lengthError_of_gt {s : State} (h : 4096 < s.len.toInt) : s.lengthError = some .lengthExceedsBuffer := by
  have hgt : (maxLen : Int) < s.lenValue := h
  rcases s.lengthError_cases with ⟨hle, -⟩ | ⟨-, he⟩ | ⟨-, hle, -⟩
  · omega
  · exact he
  · omega

/-- A length is accepted exactly in 1..4096 (R194). -/
theorem State.lengthError_eq_none_iff {s : State} {n : Nat} (hn : s.len.toInt = n) :
    s.lengthError = none ↔ 1 ≤ n ∧ n ≤ 4096 := by
  have hval : s.lenValue = n := hn
  have hmax : maxLen = 4096 := rfl
  rcases s.lengthError_cases with ⟨hle, he⟩ | ⟨hgt, he⟩ | ⟨hpos, hle, he⟩ <;> simp [he] <;> omega

theorem State.lengthError_ne_noError (s : State) : s.lengthError ≠ some .noError := by
  rcases s.lengthError_cases with ⟨-, he⟩ | ⟨-, he⟩ | ⟨-, -, he⟩ <;> simp [he]

theorem State.lenValue_toNat {s : State} {n : Nat} (hn : s.len.toInt = n) : s.lenValue.toNat = n := by
  rw [State.lenValue, hn, Int.toNat_natCast]

/-! ### The outcomes -/

/-- ENCRYPT and DECRYPT are the driver (R195, R196). -/
theorem exec_driver {i : Instr} (h : i = .encrypt ∨ i = .decrypt) (s : State) : exec i s = .next s.drive := by
  rcases h with rfl | rfl
  · exact exec_encrypt s
  · exact exec_decrypt s

/-- Settles O53: both are the driver. -/
theorem decryptIsEncrypt : Obligations.DecryptIsEncrypt := by
  unfold Obligations.DecryptIsEncrypt
  exact fun s => (exec_decrypt s).trans (exec_encrypt s).symm

theorem State.drive_of_lengthError {s : State} {e : ErrCode} (h : s.lengthError = some e) : s.drive = s.complete e := by
  simp only [State.drive, h]

theorem State.drive_of_numeric {s : State} (hl : s.lengthError = none) (hd : s.driven s.lenValue.toNat = none) :
    s.drive = s.complete .numeric := by
  simp only [State.drive, hl, hd]

/-- Settles O50: the length checks name the error, and completing changes nothing but STATUS. -/
theorem driverRefusesLength : Obligations.DriverRefusesLength := by
  unfold Obligations.DriverRefusesLength
  intro s i hi
  rw [exec_driver hi]
  constructor
  · intro hle
    rw [State.drive_of_lengthError (State.lengthError_of_nonpos hle)]
    exact ⟨_, rfl, State.complete_phase _ _, s.statusWord_complete_invalidLength, s.sameButStatus_complete _⟩
  · intro hgt
    rw [State.drive_of_lengthError (State.lengthError_of_gt hgt)]
    exact ⟨_, rfl, State.complete_phase _ _, s.statusWord_complete_lengthExceedsBuffer, s.sameButStatus_complete _⟩

/-! ### The keystream by position -/

theorem stepN_eq_iterate (n : Nat) (c : Chaos) : stepN n c = stepF^[n] c := by
  induction n generalizing c with
  | zero => rfl
  | succ n ih => exact ih (stepF c)

theorem wf_stepN {c : Chaos} (h : c.wf = true) (n : Nat) : (stepN n c).wf = true := by
  cases n with
  | zero => exact h
  | succ n => rw [stepN_succ]; exact wf_stepF _

/-- The keystream byte of index j, counted from the warmed-up state, is that of position j (R193). -/
theorem State.positionByte_eq (s : State) (j : Nat) :
    s.positionByte j = kbyteF (stepN (j + 1) (stepN warmupCount s.mixed)) (BitVec.ofNat 32 (0 + j)) := by
  rw [State.positionByte, ← stepN_add, Nat.zero_add, Nat.add_assoc]

/-- The message has a keystream exactly when no position raises NUMERIC (R197). -/
theorem State.driven_eq_none_iff {s : State} {n : Nat} :
    s.driven n = none ↔ ∃ j, j < n ∧ s.positionByte j = none := by
  rw [State.driven, keystream_eq_none_iff]
  simp only [State.positionByte_eq]

/-- The keystream of a message is its position bytes, and the state after it is WARMUP + n steps from the mixed one
(R193). -/
theorem State.driven_eq_some {s : State} {n : Nat} {ks : List Byte} {c : Chaos} (h : s.driven n = some (ks, c)) :
    ks.length = n ∧ c = stepN (warmupCount + n) s.mixed ∧
      ∀ j (hj : j < ks.length), s.positionByte j = some ks[j] := by
  obtain ⟨hc, hbytes⟩ := keystream_eq_some h
  refine ⟨keystream_length h, by rw [hc, stepN_add], fun j hj => ?_⟩
  rw [State.positionByte_eq]
  exact hbytes j hj

/-- Settles O52: without a keystream the driver only completes. -/
theorem driverNumericHasNoSideEffect : Obligations.DriverNumericHasNoSideEffect := by
  unfold Obligations.DriverNumericHasNoSideEffect
  intro s i n hi hn h1 h2 hnumeric
  have hl : s.lengthError = none := (State.lengthError_eq_none_iff hn).2 ⟨h1, h2⟩
  have hd : s.driven s.lenValue.toNat = none := by
    rw [State.lenValue_toNat hn]
    exact State.driven_eq_none_iff.2 hnumeric
  rw [exec_driver hi, State.drive_of_numeric hl hd]
  exact ⟨_, rfl, State.complete_phase _ _, s.statusWord_complete_numeric, s.sameButStatus_complete _,
    State.complete_draws _ _⟩

/-! ### Success -/

/-- The premise of a successful ENCRYPT or DECRYPT: a length n in 1..4096, and a byte at each of its positions (R194,
R197). -/
def State.Drivable (s : State) (n : Nat) : Prop :=
  s.len.toInt = n ∧ 1 ≤ n ∧ n ≤ 4096 ∧ ∀ j, j < n → s.positionByte j ≠ none

/-- The driver succeeds by writing the keystream over the input and the final state into the triple (R193, R195). -/
theorem State.Drivable.drive_eq {s : State} {n : Nat} (h : s.Drivable n) :
    ∃ ks c, s.driven n = some (ks, c) ∧ s.drive = ((s.xorOut ks).writeChaos c).complete .noError := by
  obtain ⟨hn, h1, h2, hbytes⟩ := h
  cases hd : s.driven n with
  | none =>
    obtain ⟨j, hj, hnone⟩ := State.driven_eq_none_iff.1 hd
    exact absurd hnone (hbytes j hj)
  | some p =>
    refine ⟨p.1, p.2, rfl, State.drive_of_driven ((State.lengthError_eq_none_iff hn).2 ⟨h1, h2⟩) ?_⟩
    rw [State.lenValue_toNat hn]
    exact hd

theorem State.Drivable.statusWord {s : State} {n : Nat} (h : s.Drivable n) : s.drive.statusWord = 0x00000002 := by
  obtain ⟨ks, c, -, hdrive⟩ := h.drive_eq
  rw [hdrive]
  exact State.statusWord_complete_noError _

/-- The driver reports success only where it succeeds: its errors have codes of their own (R220). -/
theorem State.drivable_of_statusWord {s : State} {n : Nat} (hn : s.len.toInt = n)
    (h : s.drive.statusWord = 0x00000002) : s.Drivable n := by
  rcases s.drive_cases with ⟨e, he, hd⟩ | ⟨-, -, hd⟩ | ⟨ks, c, hl, hks, -⟩
  · cases State.err_of_success (hd ▸ h)
    exact absurd he s.lengthError_ne_noError
  · cases State.err_of_success (hd ▸ h)
  · obtain ⟨h1, h2⟩ := (State.lengthError_eq_none_iff hn).1 hl
    rw [State.lenValue_toNat hn] at hks
    refine ⟨hn, h1, h2, fun j hj hnone => ?_⟩
    have hnumeric := State.driven_eq_none_iff.2 ⟨j, hj, hnone⟩
    cases hnumeric.symm.trans hks

/-- X, Y and Z hold the state after WARMUP + n steps (R193). -/
theorem State.Drivable.chaos {s : State} {n : Nat} (h : s.Drivable n) :
    s.drive.chaos = stepN (warmupCount + n) s.mixed := by
  obtain ⟨ks, c, hks, hdrive⟩ := h.drive_eq
  obtain ⟨-, hc, -⟩ := State.driven_eq_some hks
  rw [hdrive, State.complete_chaos, hc]
  exact State.chaos_writeChaos (wf_stepN (wf_mixF _ _ _) _) _

/-- OUT[j] is IN[j] xored with the byte of position j (R68, R192). -/
theorem State.Drivable.out {s : State} {n : Nat} (h : s.Drivable n) {j : Nat} (hj : j < n) :
    ∃ b k, s.positionByte j = some k ∧ s.drive.mem.lookup (outOff j) = some (b ^^^ k) ∧
      ∀ b', s.mem.lookup (inOff j) = some b' → b = b' := by
  obtain ⟨ks, c, hks, hdrive⟩ := h.drive_eq
  obtain ⟨hlen, -, hbytes⟩ := State.driven_eq_some hks
  obtain ⟨-, -, hmax, -⟩ := h
  obtain ⟨b, hout, hin⟩ := xorBytes_lookup_out ks 0 s.mem s.draws (by rw [hlen, Nat.zero_add]; exact hmax)
    (show j < ks.length by omega)
  rw [Nat.zero_add] at hout hin
  exact ⟨b, ks[j], hbytes j _, by simpa [hdrive] using hout, hin⟩

/-- Every byte but OUT[0..n−1] is as it was (R68, R200). -/
theorem State.Drivable.sameBytesButOut {s : State} {n : Nat} (h : s.Drivable n) : s.sameBytesButOut n s.drive := by
  obtain ⟨ks, c, hks, hdrive⟩ := h.drive_eq
  obtain ⟨hlen, -, -⟩ := State.driven_eq_some hks
  intro a ha
  have hkept := xorBytes_lookup_ne ks 0 s.mem s.draws (a := a) fun j hj => by
    rw [Nat.zero_add]
    exact ha j (hlen ▸ hj)
  simpa [hdrive] using hkept

/-- Settles O51: the driver's success, and the frame of the operations it is made of. -/
theorem driverCompletes : Obligations.DriverCompletes := by
  unfold Obligations.DriverCompletes
  intro s i n hi hn h1 h2 hbytes
  have h : s.Drivable n := ⟨hn, h1, h2, hbytes⟩
  obtain ⟨ks, c, -, hdrive⟩ := h.drive_eq
  refine ⟨_, exec_driver hi s, ?phase, h.statusWord, ?chaos, fun j hj => h.out hj, h.sameBytesButOut, ?kb, ?operands⟩
  case phase => rw [hdrive, State.complete_phase]
  case chaos => rw [h.chaos, stepN_eq_iterate, State.mixed]
  case kb => simp [hdrive]
  case operands => simp [hdrive, State.sameOperands]

end Sys2Proof.Machine
end

section
/-! What a successful ENCRYPT depends on and gives back (R198, R199, R202): the keystream is a function of the mixer
parameters, the key, the nonce and the length, and xoring with it twice is the identity. -/

namespace Sys2Proof.Machine

open Sys2Proof

/-! ### The operands of the keystream -/

/-- The same mixer parameters, key, nonce and length: what the keystream is made of (R202). -/
def State.sameKeying (s u : State) : Prop :=
  u.cfg.mixer = s.cfg.mixer ∧ u.key = s.key ∧ u.nonce = s.nonce ∧ u.len = s.len

theorem State.sameKeying.mixed {s u : State} (h : s.sameKeying u) : u.mixed = s.mixed := by
  obtain ⟨hmixer, hkey, hnonce, -⟩ := h
  exact State.mixed_congr hmixer hkey hnonce

theorem State.sameKeying.positionByte {s u : State} (h : s.sameKeying u) (j : Nat) :
    u.positionByte j = s.positionByte j := by
  rw [State.positionByte, h.mixed, State.positionByte]

theorem State.sameKeying.drivable {s u : State} {n : Nat} (h : s.sameKeying u) (hs : s.Drivable n) : u.Drivable n := by
  obtain ⟨hn, h1, h2, hbytes⟩ := hs
  have ⟨_, _, _, hlen⟩ := h
  exact ⟨by rw [hlen, hn], h1, h2, fun j hj => by rw [h.positionByte]; exact hbytes j hj⟩

/-- The outcome of the driver depends on these alone, errors included (R202). -/
theorem State.sameKeying.statusWord {s u : State} (h : s.sameKeying u) : u.drive.statusWord = s.drive.statusWord := by
  have ⟨_, _, _, hlen⟩ := h
  have hl : u.lengthError = s.lengthError := State.lengthError_congr hlen
  have hd : u.driven u.lenValue.toNat = s.driven s.lenValue.toNat := by
    rw [State.driven, State.driven, h.mixed, State.lenValue, State.lenValue, hlen]
  rcases s.drive_cases with ⟨e, he, hs⟩ | ⟨hnone, hnumeric, hs⟩ | ⟨ks, c, hnone, hks, hs⟩
  · rw [hs, State.drive_of_lengthError (hl.trans he)]
    exact State.statusWord_complete_congr u s _
  · rw [hs, State.drive_of_numeric (hl.trans hnone) (hd.trans hnumeric)]
    exact State.statusWord_complete_congr u s _
  · rw [hs, State.drive_of_driven (hl.trans hnone) (hd.trans hks)]
    exact State.statusWord_complete_congr _ _ _

/-! ### Written input -/

theorem State.Drivable.exists_positionByte {s : State} {n : Nat} (h : s.Drivable n) {j : Nat} (hj : j < n) :
    ∃ k, s.positionByte j = some k := by
  obtain ⟨-, -, -, hbytes⟩ := h
  exact Option.ne_none_iff_exists'.1 (hbytes j hj)

/-- A written input byte appears in OUT xored with the byte of its position (R192). -/
theorem State.Drivable.out_of_written {s : State} {n : Nat} (h : s.Drivable n) {j : Nat} (hj : j < n) {b k : Byte}
    (hb : s.mem.lookup (inOff j) = some b) (hk : s.positionByte j = some k) :
    s.drive.mem.lookup (outOff j) = some (b ^^^ k) := by
  obtain ⟨b', k', hk', hout, hin⟩ := h.out hj
  cases hk.symm.trans hk'
  rw [hout, hin b hb]

/-- The same with the byte of a state of the same operands (R198, R199). -/
theorem State.sameKeying.out_of_written {s u : State} {n : Nat} (h : s.sameKeying u) (hs : s.Drivable n) {j : Nat}
    (hj : j < n) {b k : Byte} (hb : u.mem.lookup (inOff j) = some b) (hk : s.positionByte j = some k) :
    u.drive.mem.lookup (outOff j) = some (b ^^^ k) :=
  (h.drivable hs).out_of_written hj hb ((h.positionByte j).trans hk)

/-- Settles O54: the two drivers xor with the same keystream. -/
theorem decryptUndoesEncrypt : Obligations.DecryptUndoesEncrypt := by
  unfold Obligations.DecryptUndoesEncrypt
  intro s t u n i hi hn hwritten ht hsuccess hmixer hkey hnonce hlen hback
  cases (exec_encrypt s).symm.trans ht
  have hsame : s.sameKeying u := ⟨hmixer, hkey, hnonce, hlen⟩
  have hs : s.Drivable n := State.drivable_of_statusWord hn hsuccess
  refine ⟨_, exec_driver hi u, (hsame.drivable hs).statusWord, fun j hj => ?_⟩
  obtain ⟨b, hb⟩ := Option.ne_none_iff_exists'.1 (hwritten j hj)
  obtain ⟨k, hk⟩ := hs.exists_positionByte hj
  have hin : u.mem.lookup (inOff j) = some (b ^^^ k) := (hback j hj).trans (hs.out_of_written hj hb hk)
  rw [hsame.out_of_written hs hj hin hk, hb, BitVec.xor_assoc, BitVec.xor_self,
    BitVec.xor_zero]

/-- The memory whose first n input bytes are given, and nothing else is written. -/
def Memory.ofInput (P : Nat → Byte) : Nat → Memory
  | 0 => []
  | n + 1 => (Memory.ofInput P n).insert (inOff n) (P n)

theorem Memory.lookup_ofInput (P : Nat → Byte) {n j : Nat} (hj : j < n) :
    (Memory.ofInput P n).lookup (inOff j) = some (P j) := by
  induction n with
  | zero => omega
  | succ n ih =>
    rw [Memory.ofInput, Memory.lookup_insert]
    split
    · next h => rw [inOff_inj.1 h]
    · next h => exact ih (lt_of_le_of_ne (Nat.le_of_lt_succ hj) (mt inOff_inj.2 h))

/-- Equal output bytes come from equal input bytes: xoring with the byte of the position is injective (R199). -/
theorem State.sameKeying.in_eq_of_out_eq {s u : State} {n : Nat} (h : s.sameKeying u) (hs : s.Drivable n) {j : Nat}
    (hj : j < n) (hsin : s.mem.lookup (inOff j) ≠ none) (huin : u.mem.lookup (inOff j) ≠ none)
    (hout : u.drive.mem.lookup (outOff j) = s.drive.mem.lookup (outOff j)) :
    u.mem.lookup (inOff j) = s.mem.lookup (inOff j) := by
  obtain ⟨b, hb⟩ := Option.ne_none_iff_exists'.1 hsin
  obtain ⟨b', hb'⟩ := Option.ne_none_iff_exists'.1 huin
  obtain ⟨k, hk⟩ := hs.exists_positionByte hj
  rw [h.out_of_written hs hj hb' hk, hs.out_of_written hj hb hk] at hout
  rw [hb, hb', (BitVec.xor_left_inj k).1 (Option.some.inj hout)]

/-- The input that a given output comes from: xored with the byte of each position (R199). -/
def State.inputFor (s : State) (C : Nat → Byte) (j : Nat) : Byte := C j ^^^ (s.positionByte j).getD 0

theorem State.inputFor_xor {s : State} {j : Nat} {k : Byte} (hk : s.positionByte j = some k) (C : Nat → Byte) :
    s.inputFor C j ^^^ k = C j := by
  rw [State.inputFor, hk, Option.getD_some, BitVec.xor_assoc, BitVec.xor_self, BitVec.xor_zero]

/-- Every byte string is the output of the input made for it (R199). -/
theorem State.Drivable.exists_input {s : State} {n : Nat} (hs : s.Drivable n) (C : Nat → Byte) :
    ∃ m : Memory, ∀ j, j < n → (State.drive { s with mem := m }).mem.lookup (outOff j) = some (C j) := by
  refine ⟨Memory.ofInput (s.inputFor C) n, fun j hj => ?_⟩
  have hsame (m : Memory) : s.sameKeying { s with mem := m } := ⟨rfl, rfl, rfl, rfl⟩
  obtain ⟨k, hk⟩ := hs.exists_positionByte hj
  rw [(hsame _).out_of_written hs hj (Memory.lookup_ofInput _ hj) hk, State.inputFor_xor hk]

/-- Settles O55: injectivity byte by byte, and an input for every output. -/
theorem encryptIsBijective : Obligations.EncryptIsBijective := by
  unfold Obligations.EncryptIsBijective
  intro s t n hn ht hsuccess
  cases (exec_encrypt s).symm.trans ht
  have hs : s.Drivable n := State.drivable_of_statusWord hn hsuccess
  constructor
  · intro u v hmixer hkey hnonce hlen hwritten hv
    cases (exec_encrypt u).symm.trans hv
    have hsame : s.sameKeying u := ⟨hmixer, hkey, hnonce, hlen⟩
    refine ⟨(hsame.drivable hs).statusWord, fun hout j hj => ?_⟩
    obtain ⟨hsin, huin⟩ := hwritten j hj
    exact hsame.in_eq_of_out_eq hs hj hsin huin (hout j hj)
  · intro C
    obtain ⟨m, hm⟩ := hs.exists_input C
    have hsame : s.sameKeying { s with mem := m } := ⟨rfl, rfl, rfl, rfl⟩
    exact ⟨m, _, exec_encrypt _, (hsame.drivable hs).statusWord, hm⟩

/-! ### The words of the triple -/

/-- A value that is no NaN has one encoding (R95). -/
theorem F64.eq_of_ofBits_eq {b b' : DWord} (h : F64.ofBits b' = F64.ofBits b) (hne : F64.ofBits b ≠ .nan) : b' = b := by
  have hb : isNanPattern b = false := Bool.eq_false_iff.2 (mt F64.ofBits_of_isNanPattern hne)
  have hb' : isNanPattern b' = false := Bool.eq_false_iff.2 (mt F64.ofBits_of_isNanPattern (h ▸ hne))
  have hbits : some b' = some b := by rw [← F64.toBits_ofBits hb, ← F64.toBits_ofBits hb', h]
  exact Option.some.inj hbits

theorem halves_eq_of_append_eq {hi lo hi' lo' : Word} (h : (hi' ++ lo' : DWord) = hi ++ lo) : hi' = hi ∧ lo' = lo := by
  constructor
  · rw [← BitVec.extractLsb'_append_eq_left (a := hi') (b := lo'), h, BitVec.extractLsb'_append_eq_left]
  · rw [← BitVec.extractLsb'_append_eq_right (a := hi') (b := lo'), h, BitVec.extractLsb'_append_eq_right]

/-- Registers that hold the same triple without a NaN hold the same words (R30). -/
theorem State.sameTriple_of_chaos_eq {s t : State} (h : t.chaos = s.chaos) (hx : s.chaos.x ≠ .nan)
    (hy : s.chaos.y ≠ .nan) (hz : s.chaos.z ≠ .nan) : s.sameTriple t := by
  obtain ⟨hxHi, hxLo⟩ := halves_eq_of_append_eq (F64.eq_of_ofBits_eq (congrArg Chaos.x h) hx)
  obtain ⟨hyHi, hyLo⟩ := halves_eq_of_append_eq (F64.eq_of_ofBits_eq (congrArg Chaos.y h) hy)
  obtain ⟨hzHi, hzLo⟩ := halves_eq_of_append_eq (F64.eq_of_ofBits_eq (congrArg Chaos.z h) hz)
  exact ⟨hxLo, hxHi, hyLo, hyHi, hzLo, hzHi⟩

theorem F64.ne_nan_of_isfinite {v : F64} (h : isfinite v = true) : v ≠ .nan := by
  rintro rfl
  cases h

/-- The final state of a success gave the last keystream byte, so it holds no NaN, and any registers that hold it hold
the same words (R162, R193). -/
theorem State.Drivable.sameTriple {s t : State} {n : Nat} (h : s.Drivable n)
    (ht : t.chaos = stepN (warmupCount + n) s.mixed) : s.drive.sameTriple t := by
  have ⟨_, h1, _, hbytes⟩ := h
  have hlast : s.drive.chaos = stepN (warmupCount + (n - 1) + 1) s.mixed := by
    rw [h.chaos, Nat.add_assoc, Nat.sub_add_cancel h1]
  have hbyte := hbytes (n - 1) (by omega)
  rw [State.positionByte, ← hlast] at hbyte
  obtain ⟨hx, hy, hz⟩ := isfinite_of_combination (Bool.not_eq_false _ ▸ mt kbyteF_eq_none_iff.2 hbyte)
  exact State.sameTriple_of_chaos_eq (ht.trans h.chaos.symm) (F64.ne_nan_of_isfinite hx) (F64.ne_nan_of_isfinite hy)
    (F64.ne_nan_of_isfinite hz)

/-- Settles O56: the outcome, the final state and the keystream are functions of the operands. -/
theorem encryptDependsOnItsOperandsOnly : Obligations.EncryptDependsOnItsOperandsOnly := by
  unfold Obligations.EncryptDependsOnItsOperandsOnly
  intro s s' t t' n hn hmixer hkey hnonce hlen hin ht ht'
  cases (exec_encrypt s).symm.trans ht
  cases (exec_encrypt s').symm.trans ht'
  have hsame : s.sameKeying s' := ⟨hmixer, hkey, hnonce, hlen⟩
  refine ⟨hsame.statusWord, fun hsuccess => ?_⟩
  have hs : s.Drivable n := State.drivable_of_statusWord hn hsuccess
  refine ⟨hs.sameTriple (by rw [(hsame.drivable hs).chaos, hsame.mixed]), fun j hj => ?_⟩
  obtain ⟨hwritten, hsamebyte⟩ := hin j hj
  obtain ⟨b, hb⟩ := Option.ne_none_iff_exists'.1 hwritten
  obtain ⟨k, hk⟩ := hs.exists_positionByte hj
  rw [hs.out_of_written hj hb hk, hsame.out_of_written hs hj (hsamebyte.trans hb) hk]

end Sys2Proof.Machine
end

section
/-! ENCRYPT and the host sequence of the primitives (R201): each byte of the sequence leaves the triple and the memory
that one round of the driver's two loops leaves, whatever has been drawn in between. -/

namespace Sys2Proof.Machine

open Sys2Proof

/-! ### Memories that hold the same bytes -/

/-- Storing a byte keeps memories with the same bytes alike. -/
theorem lookup_storeByte_congr {m m' : Memory} (h : ∀ a, m'.lookup a = m.lookup a) (off : Nat) (b : Byte) (a : Nat) :
    (storeByte off b m').lookup a = (storeByte off b m).lookup a := by
  unfold storeByte
  split
  · rw [Memory.lookup_insert, Memory.lookup_insert, h a]
  · exact h a

/-- A written byte reads alike in memories with the same bytes, whatever has been drawn (R67). -/
theorem byteAt_congr_of_written {m m' : Memory} {off : Nat} (h : m'.lookup off = m.lookup off)
    (hw : m.lookup off ≠ none) (k k' : Nat) : byteAt off m' k' = byteAt off m k := by
  obtain ⟨b, hb⟩ := Option.ne_none_iff_exists'.1 hw
  simp only [byteAt, h, hb, Option.getD_some]

/-! ### The first byte of a keystream -/

/-- A keystream is its first byte and the keystream from the advanced state on (R192). -/
theorem keystream_succ_eq_some {n i : Nat} {c c' : Chaos} {ks : List Byte}
    (h : keystream (n + 1) i c = some (ks, c')) :
    ∃ k ks', ks = k :: ks' ∧ kbyteF (stepF c) (BitVec.ofNat 32 i) = some k ∧
      keystream n (i + 1) (stepF c) = some (ks', c') := by
  rw [keystream] at h
  cases hk : kbyteF (stepF c) (BitVec.ofNat 32 i) with
  | none => simp [hk] at h
  | some k =>
    cases hks : keystream n (i + 1) (stepF c) with
    | none => simp [hk, hks] at h
    | some p =>
      simp only [hk, hks, Option.some.injEq, Prod.mk.injEq] at h
      obtain ⟨rfl, rfl⟩ := h
      exact ⟨k, p.1, rfl, rfl, rfl⟩

/-! ### The operands the host sequence keeps -/

/-- The OPEN parameters, LEN, KEY and NONCE are the same: the operands that the host sequence, which writes CTR,
keeps. -/
def State.sameKeyMaterial (s t : State) : Prop :=
  t.cfg = s.cfg ∧ t.len = s.len ∧ t.key = s.key ∧ t.nonce = s.nonce

theorem State.sameKeyMaterial.trans {s t u : State} (h : s.sameKeyMaterial t) (h' : t.sameKeyMaterial u) :
    s.sameKeyMaterial u := by
  obtain ⟨hcfg, hlen, hkey, hnonce⟩ := h
  obtain ⟨hcfg', hlen', hkey', hnonce'⟩ := h'
  exact ⟨hcfg'.trans hcfg, hlen'.trans hlen, hkey'.trans hkey, hnonce'.trans hnonce⟩

theorem State.sameOperands.keyMaterial {s t : State} (h : s.sameOperands t) : s.sameKeyMaterial t := by
  obtain ⟨hcfg, hlen, -, hkey, hnonce, -, -⟩ := h
  exact ⟨hcfg, hlen, hkey, hnonce⟩

/-! ### The sequence -/

/-- MIX and n STEPs leave the state n steps from the mixed one (R120, R146). -/
theorem execAll_mix_steps (n : Nat) (s : State) :
    ∃ t, execAll (.mix :: List.replicate n .step) s = .next t ∧ t.chaos = stepN n s.mixed ∧
      s.sameKeyMaterial t ∧ s.sameBytes t := by
  obtain ⟨m, hmix, hmixed, -, -, hmixOperands, -, hmixBytes⟩ := mixCompletes s
  obtain ⟨t, hsteps, hchaos, hstepOperands, -, hstepBytes⟩ := consecutiveStepsIterate n m
  refine ⟨t, (execAll_cons_of_next hmix).trans hsteps, ?_, (hmixOperands.trans hstepOperands).keyMaterial,
    hmixBytes.trans hstepBytes⟩
  rw [hchaos, hmixed, stepN_eq_iterate, State.mixed]

/-- Byte i of the host sequence, by the states its two commands leave (R201). -/
theorem primitiveByte_of_next {i : Nat} {s u v : State} (hstep : exec .step s = .next u)
    (hextract : exec .extract (u.writeReg .ctr (BitVec.ofNat 32 i)) = .next v) :
    primitiveByte i s = .next
      ((v.readByte (inOff i)).2.writeByte (outOff i) ((v.readByte (inOff i)).1 ^^^ v.kb)) := by
  simp only [primitiveByte, hstep, hextract, State.readByte_kb]

theorem State.chaos_writeReg_ctr (v : Word) (s : State) : (s.writeReg .ctr v).chaos = s.chaos := rfl

/-- The host's part of byte i advances the triple by one step, and stores the input byte xored with the extracted one
(R201). -/
theorem primitiveByte_of_some {s : State} {i : Nat} {k : Byte} {m : Memory}
    (hk : kbyteF (stepF s.chaos) (BitVec.ofNat 32 i) = some k) (hm : ∀ a, s.mem.lookup a = m.lookup a)
    (hin : m.lookup (inOff i) ≠ none) (d : Nat) :
    ∃ t, primitiveByte i s = .next t ∧ t.chaos = stepF s.chaos ∧ s.sameKeyMaterial t ∧
      ∀ a, t.mem.lookup a = (storeByte (outOff i) (byteAt (inOff i) m d ^^^ k) m).lookup a := by
  obtain ⟨-, u, hstep, hchaos, -, -, hoperands, -, hbytes⟩ := stepCompletes s
  have hextract := exec_extract_of_some (s := u.writeReg .ctr (BitVec.ofNat 32 i)) (b := k) (by
    rw [State.chaos_writeReg_ctr, State.writeReg_ctr_self, hchaos]
    exact hk)
  have hsame : ∀ a, u.mem.lookup a = m.lookup a := fun a => (hbytes a).trans (hm a)
  refine ⟨_, primitiveByte_of_next hstep hextract, hchaos, hoperands.keyMaterial, fun a => ?_⟩
  have hread : byteAt (inOff i) u.mem u.draws = byteAt (inOff i) m d := byteAt_congr_of_written (hsame _) hin _ _
  simpa [State.readByte, hread] using lookup_storeByte_congr hsame (outOff i) (byteAt (inOff i) m d ^^^ k) a

/-- Bytes i..i+n−1 of the host sequence leave what the driver's loops leave, on any memory with the same bytes (R192,
R201). -/
theorem primitiveBytes_of_keystream {n i : Nat} {s : State} {ks : List Byte} {c : Chaos} {m : Memory}
    (hks : keystream n i s.chaos = some (ks, c)) (hmax : i + n ≤ maxLen)
    (hm : ∀ a, s.mem.lookup a = m.lookup a) (hin : ∀ j, j < n → m.lookup (inOff (i + j)) ≠ none) (d : Nat) :
    ∃ p, primitiveBytes n i s = .next p ∧ p.chaos = c ∧ s.sameKeyMaterial p ∧
      ∀ a, p.mem.lookup a = (xorBytes ks i m d).1.lookup a := by
  induction n generalizing i s ks m d with
  | zero =>
    cases hks
    exact ⟨s, rfl, rfl, ⟨rfl, rfl, rfl, rfl⟩, hm⟩
  | succ n ih =>
    obtain ⟨k, ks', rfl, hk, hks'⟩ := keystream_succ_eq_some hks
    obtain ⟨t, hbyte, hchaos, hkey, hmem⟩ := primitiveByte_of_some hk hm (hin 0 (by omega)) d
    obtain ⟨p, hbytes, hc, hkey', hmem'⟩ := ih (by rw [hchaos]; exact hks') (by omega) hmem (fun j hj => by
      rw [lookup_storeByte_ne (inOff_ne_outOff (by omega)), show i + 1 + j = i + (j + 1) by omega]
      exact hin (j + 1) (by omega)) (d + byteDraws (inOff i) m)
    exact ⟨p, by rw [primitiveBytes, hbyte]; exact hbytes, hc, hkey.trans hkey', hmem'⟩

/-- The bytes of the host sequence start in the state MIX and the warmup leave (R201). -/
theorem primitiveSequence_of_next {n : Nat} {s t : State}
    (h : execAll (.mix :: List.replicate warmupCount .step) s = .next t) :
    primitiveSequence n s = primitiveBytes n 0 t := by
  unfold primitiveSequence
  rw [h]

/-- Settles O57: the host sequence draws otherwise than the driver, but on written input and with a final state without
a NaN no draw is seen. -/
theorem encryptEqualsPrimitiveSequence : Obligations.EncryptEqualsPrimitiveSequence := by
  unfold Obligations.EncryptEqualsPrimitiveSequence
  intro s t n hn hwritten ht hsuccess
  cases (exec_encrypt s).symm.trans ht
  have hs : s.Drivable n := State.drivable_of_statusWord hn hsuccess
  obtain ⟨ks, c, hks, hdrive⟩ := hs.drive_eq
  obtain ⟨-, hc, -⟩ := State.driven_eq_some hks
  have ⟨_, _, hmax, _⟩ := hs
  obtain ⟨u, hwarm, hchaos, hkey, hbytes⟩ := execAll_mix_steps warmupCount s
  obtain ⟨p, hp, hpchaos, hkey', hmem⟩ := primitiveBytes_of_keystream (i := 0) (s := u)
    (by rw [hchaos]; exact hks) (by rw [Nat.zero_add]; exact hmax) hbytes
    (fun j hj => by rw [Nat.zero_add]; exact hwritten j hj) s.draws
  obtain ⟨hcfg, hlen, hpkey, hnonce⟩ := hkey.trans hkey'
  refine ⟨p, (primitiveSequence_of_next hwarm).trans hp, hs.sameTriple (hpchaos.trans hc), fun a => ?_, ?_⟩
  · rw [hmem a]
    simp [hdrive]
  · simp [hdrive, hcfg, hlen, hpkey, hnonce]

end Sys2Proof.Machine
end

section
/-! Runs that are never stopped (R61, R227), the command word placed for the next step (R190), and what a write to CMD
does in every case (R224). -/

namespace Sys2Proof.Machine

open Sys2Proof

/-! ### Runs inside the window -/

/-- Settles O9, by induction on the number of steps: a step answers, and what is left of the agenda still reaches the
block. -/
theorem runsInsideTheWindowNeverStop : Obligations.RunsInsideTheWindowNeverStop := by
  unfold Obligations.RunsInsideTheWindowNeverStop
  intro s hs k
  induction k generalizing s with
  | zero => exact ⟨s, rfl⟩
  | succ k ih =>
    obtain ⟨t, ht⟩ := step_total hs
    obtain ⟨u, hu⟩ := ih t (agendaInWindow_of_step hs ht)
    exact ⟨u, (run_succ_of_next ht).trans hu⟩

/-! ### The word placed for the next step -/

/-- A 32-bit word read as a table row of 32 bits is itself (R90). -/
theorem wordOfTable_toNat (w : Word) : wordOfTable 32 w.toNat = w := by
  rw [wordOfTable, Nat.mod_eq_of_lt w.isLt, BitVec.ofNat_toNat, BitVec.setWidth_eq]

/-- With a word placed, the engine's turn is next: no event is scheduled, or its turn is the first. -/
theorem State.withPending_agenda_cases (w : Word) (s : State) :
    (s.withPending w).agenda = [] ∨ ∃ es, (s.withPending w).agenda = .engine :: es := by
  cases h : s.agenda with
  | nil => exact .inl (by simp [State.withPending, h])
  | cons e es => exact .inr ⟨e :: es, by simp [State.withPending, h]⟩

/-- Once that turn is taken, the placed word is the one difference to the state its acceptance leaves. -/
theorem State.withPending_tail (w : Word) (s : State) :
    { s.withPending w with agenda := (s.withPending w).agenda.tail } = s.begin w := by
  cases h : s.agenda <;> simp [State.withPending, State.begin, h]

/-- Settles O6: the step is the engine's turn in the state acceptance leaves, with the command's word pending. -/
theorem placedWordRunsNext : Obligations.PlacedWordRunsNext := by
  unfold Obligations.PlacedWordRunsNext
  intro s i
  rw [State.withFetchWord, wordOfTable_toNat, step_engine (s.withPending_agenda_cases _), State.withPending_tail]
  exact engineTurn_of_pending (State.begin_phase s _) (decodeWord_eq_ok_iff.2 rfl)

/-! ### The command words by number -/

/-- The words that are commands (R92). -/
theorem mem_commandWords_iff {w : Word} : w ∈ ([1, 2, 3, 4, 5] : List Word) ↔ ∃ i, decodeWord w = .ok i := by
  simp only [decodeWord_eq_ok_iff]
  constructor
  · intro h
    simp only [List.mem_cons, List.not_mem_nil, or_false] at h
    rcases h with h | h | h | h | h
    exacts [⟨.mix, h⟩, ⟨.step, h⟩, ⟨.extract, h⟩, ⟨.encrypt, h⟩, ⟨.decrypt, h⟩]
  · rintro ⟨i, rfl⟩
    cases i <;> decide

/-- ENCRYPT and DECRYPT are the commands that read LEN (R25, R94). -/
theorem usesLen_iff_mem {w : Word} {i : Instr} (h : decodeWord w = .ok i) :
    i.usesLen = true ↔ w ∈ ([4, 5] : List Word) := by
  obtain rfl := decodeWord_eq_ok_iff.1 h
  cases i <;> decide

/-- MIX, STEP and EXTRACT are none of them. -/
theorem not_mem_lengthWords {w : Word} (h : w ∈ ([1, 2, 3] : List Word)) : w ∉ ([4, 5] : List Word) := by
  simp only [List.mem_cons, List.not_mem_nil, or_false] at h
  rcases h with rfl | rfl | rfl <;> decide

/-! ### Acceptance -/

/-- A length in 1..4096 passes the checks (R194). -/
theorem State.lengthError_eq_none_of_bounds {s : State} (hpos : 0 < s.len.toInt) (hmax : s.len.toInt ≤ 4096) :
    s.lengthError = none :=
  (State.lengthError_eq_none_iff (Int.toNat_of_nonneg hpos.le).symm).2 (by omega)

/-- An illegal word is rejected at acceptance (R93, R224). -/
theorem State.accept_of_illegal {w : Word} (s : State) (h : w ∉ ([1, 2, 3, 4, 5] : List Word)) :
    s.accept w = s.complete .illegalCommand := by
  rcases s.accept_cases w with ⟨e, -, ha⟩ | ⟨i, e, hw, -⟩ | ⟨i, hw, -⟩
  · exact ha
  · exact absurd (mem_commandWords_iff.2 ⟨i, hw⟩) h
  · exact absurd (mem_commandWords_iff.2 ⟨i, hw⟩) h

/-- An ENCRYPT or DECRYPT with a refused length is rejected at acceptance (R194, R224). -/
theorem State.accept_of_lengthError {w : Word} {s : State} {e : ErrCode} (h : w ∈ ([4, 5] : List Word))
    (he : s.lengthError = some e) : s.accept w = s.complete e := by
  obtain ⟨i, hw⟩ := mem_commandWords_iff.1 (List.mem_append_right [1, 2, 3] h)
  simp [State.accept, hw, (usesLen_iff_mem hw).2 h, he]

/-- Every other command is accepted: one that reads no length, or whose length passes the checks (R224). -/
theorem State.accept_of_legal {w : Word} {s : State} (h : w ∈ ([1, 2, 3, 4, 5] : List Word))
    (hlen : w ∈ ([4, 5] : List Word) → s.lengthError = none) : s.accept w = s.begin w := by
  obtain ⟨i, hw⟩ := mem_commandWords_iff.1 h
  rcases s.accept_cases w with ⟨e, herr, -⟩ | ⟨j, e, hj, hu, he, -⟩ | ⟨j, -, -, ha⟩
  · cases hw.symm.trans herr
  · cases (hlen ((usesLen_iff_mem hj).1 hu)).symm.trans he
  · exact ha

theorem State.statusWord_complete_illegalCommand (s : State) :
    (s.complete .illegalCommand).statusWord = 0x00000016 :=
  (s.statusWord_complete _).trans (by decide)

/-- From acceptance on STATUS reads BUSY alone (R224). -/
theorem State.statusWord_begin (w : Word) (s : State) : (s.begin w).statusWord = 0x00000001 := by
  have : (s.begin w).statusWord = 0#24 ++ ErrCode.noError.code ++ 0#1 ++ 0#1 ++ 0#1 ++ 1#1 := rfl
  rw [this]
  decide

/-! ### A write to CMD -/

/-- A word write to CMD while idle offers the word for acceptance and is answered OK (R23, R224). -/
theorem step_write_cmd {s : State} {v : Word} {es : List Event} (hb : s.busy = false)
    (ha : s.agenda = .write (engineBase s.cfg + 4) .word v :: es) :
    step s = .next ((State.accept v { s with agenda := es }).respond .ok) := by
  have hcmd : Reg.ofOffset 4 = some .cmd := Reg.ofOffset_offset .cmd
  rw [step_write_register hcmd hb ha]
  simp [State.writeOffset, hcmd]

/-- Settles O18: at CMD a bad access is refused and a busy write ignored as elsewhere (O19, O20), and a word write while
idle has the outcomes of acceptance. -/
theorem commandAcceptance : Obligations.CommandAcceptance := by
  unfold Obligations.CommandAcceptance
  intro s v es
  refine ⟨fun off w h4 h8 hbad ha => ?refused, fun ha => ⟨fun hb => ?ignored, fun hb => ?taken⟩⟩
  case refused =>
    refine badAccessGetsBusError s off w v es (by omega) ?_ (.inr ha)
    by_cases hw : w = .word
    · subst hw
      have hoff : off ≠ 4 := fun h => hbad ⟨h, rfl⟩
      exact .inl (show off % 4 ≠ 0 by omega)
    · exact .inr ⟨.inl (by omega), hw⟩
  case ignored => exact busyWriteIgnored s 4 .word v es (by omega) hb ha
  case taken =>
    have hstep := step_write_cmd hb ha
    generalize hu : { s with agenda := es } = u at hstep
    have hlen : u.len = s.len := by rw [← hu]
    refine ⟨_, hstep, ?frame, fun hv => ?illegal, fun hv hl => ?short, fun hv hl => ?long, fun hv => ?accepted⟩
    case frame =>
      obtain ⟨p, d, e, haccept⟩ := u.accept_state v
      rw [haccept, ← hu]
      rfl
    case illegal =>
      rw [u.accept_of_illegal hv]
      exact ⟨rfl, u.statusWord_complete_illegalCommand⟩
    case short =>
      rw [State.accept_of_lengthError hv (State.lengthError_of_nonpos (hlen ▸ hl))]
      exact ⟨rfl, u.statusWord_complete_invalidLength⟩
    case long =>
      rw [State.accept_of_lengthError hv (State.lengthError_of_gt (hlen ▸ hl))]
      exact ⟨rfl, u.statusWord_complete_lengthExceedsBuffer⟩
    case accepted =>
      have hbegin : u.accept v = u.begin v := by
        rcases hv with hv | ⟨hv, hpos, hmax⟩
        · exact State.accept_of_legal (List.mem_append_left [4, 5] hv) fun h => absurd h (not_mem_lengthWords hv)
        · exact State.accept_of_legal (List.mem_append_right [1, 2, 3] hv) fun _ =>
            State.lengthError_eq_none_of_bounds (hlen ▸ hpos) (hlen ▸ hmax)
      rw [hbegin]
      exact ⟨rfl, u.statusWord_begin v⟩

end Sys2Proof.Machine
end

section
/-! The reset input (R250, R251): which OUT bytes it puts at risk, and the step that takes it. -/

namespace Sys2Proof.Machine

open Sys2Proof

/-! ### The OUT bytes at risk -/

/-- With no command running no byte is at risk (R250). -/
theorem State.outAtRisk_of_idle {s : State} (h : s.phase = .idle) : s.outAtRisk = 0 := by
  simp only [State.outAtRisk, h]

/-- A command that reads no LEN writes no OUT byte (R251). -/
theorem State.outAtRisk_of_not_mem {s : State} {w : Word} (h : s.phase = .busy w) (hw : w ∉ ([4, 5] : List Word)) :
    s.outAtRisk = 0 := by
  cases hd : decodeWord w with
  | error e => simp only [State.outAtRisk, h, hd]
  | ok i =>
    have hu : i.usesLen = false := Bool.eq_false_iff.2 (mt (usesLen_iff_mem hd).1 hw)
    simp [State.outAtRisk, h, hd, hu]

/-- An ENCRYPT or DECRYPT of an accepted length puts as many bytes at risk (R251). -/
theorem State.outAtRisk_of_mem {s : State} {w : Word} {n : Nat} (h : s.phase = .busy w)
    (hw : w ∈ ([4, 5] : List Word)) (hn : s.len.toInt = n) (hpos : 1 ≤ n) (hmax : n ≤ 4096) : s.outAtRisk = n := by
  obtain ⟨i, hd⟩ := mem_commandWords_iff.1 (List.mem_append_right [1, 2, 3] hw)
  have hlen : s.lengthError = none := (State.lengthError_eq_none_iff hn).2 ⟨hpos, hmax⟩
  simp [State.outAtRisk, h, hd, (usesLen_iff_mem hd).2 hw, hlen, State.lenValue_toNat hn]

/-! ### The buffers after reset -/

/-- With no byte at risk reset leaves the buffers (R250). -/
theorem State.sameBytes_resetInput {s : State} (h : s.outAtRisk = 0) : s.sameBytes s.resetInput := by
  obtain ⟨-, -, -, -, -, hlookup⟩ := s.resetInput_spec
  intro a
  rw [hlookup a, h, if_neg (by omega)]

/-- The bytes at risk are OUT bytes: reset leaves every other byte (R251). -/
theorem State.sameBytesButOut_resetInput (s : State) : s.sameBytesButOut s.outAtRisk s.resetInput := by
  obtain ⟨-, -, -, -, -, hlookup⟩ := s.resetInput_spec
  intro a ha
  rw [hlookup a, if_neg]
  rintro ⟨hlo, hhi⟩
  obtain ⟨i, rfl⟩ := Nat.exists_eq_add_of_le hlo
  exact ha i (Nat.lt_of_add_lt_add_left hhi) rfl

/-- A byte at risk has no value after reset (R251). -/
theorem State.lookup_resetInput_outOff {s : State} {j : Nat} (hj : j < s.outAtRisk) :
    s.resetInput.mem.lookup (outOff j) = none := by
  obtain ⟨-, -, -, -, -, hlookup⟩ := s.resetInput_spec
  rw [hlookup, if_pos]
  simp only [outOff]
  omega

/-! ### The reset event -/

theorem step_reset {s : State} {es : List Event} (ha : s.agenda = .reset :: es) :
    step s = .next (State.resetInput { s with agenda := es }) := by
  simp only [step, ha]

/-- Settles O59: the registers are those of the reset state, and the running command tells which OUT bytes are at
risk. -/
theorem resetInputEffect : Obligations.ResetInputEffect := by
  unfold Obligations.ResetInputEffect
  intro s es ha
  obtain ⟨hregs, hphase, hcfg, hagenda, hresponses, -⟩ := State.resetInput_spec { s with agenda := es }
  refine ⟨_, step_reset ha, hphase, hregs .status, hcfg, hagenda, hresponses, hregs, fun hidle => ?idle,
    fun w hw hmem => ?otherCommand, fun w n hw hmem hn hpos hmax => ?driver⟩
  case idle => exact State.sameBytes_resetInput (State.outAtRisk_of_idle (State.busy_eq_false_iff.1 hidle))
  case otherCommand => exact State.sameBytes_resetInput (State.outAtRisk_of_not_mem hw hmem)
  case driver =>
    have hrisk : State.outAtRisk { s with agenda := es } = n := State.outAtRisk_of_mem hw hmem hn hpos hmax
    exact ⟨hrisk ▸ State.sameBytesButOut_resetInput { s with agenda := es },
      fun j hj => State.lookup_resetInput_outOff (hrisk.symm ▸ hj)⟩

end Sys2Proof.Machine
end

section
/-! The triple (+0.0, +0.0, +0.0) of the reset state (R252): a product with +0.0 and a nonnegative factor is +0.0, so
STEPF leaves the triple alone and the extractor's combination is +0.0. -/

namespace Sys2Proof.Machine

open Sys2Proof

/-! ### Arithmetic with +0.0 (R140) -/

/-- A finite value with its sign bit clear: +0.0 or positive. -/
def F64.Nonneg (v : F64) : Prop := ∃ m, v = .fin false m

/-- A finite encoding whose sign bit is clear (R95). -/
theorem F64.nonneg_ofBits {b : DWord} (hs : b.getLsbD 63 = false) (he : (b.extractLsb' 52 11).toNat ≠ 2047) :
    (F64.ofBits b).Nonneg := by
  simp only [F64.ofBits, hs, he, if_false]
  split
  · exact ⟨_, rfl⟩
  · exact ⟨_, rfl⟩

theorem fadd_zero_zero : fadd (.fin false 0) (.fin false 0) = .fin false 0 := by
  simpa [fadd] using F64.round_of_wf Nat.one_pos (F64.wf_zero false)

/-- Subtracting +0.0 leaves a nonnegative binary64 (R140). -/
theorem fsub_zero {v : F64} (h : v.Nonneg) (hwf : v.wf = true) : fsub v (.fin false 0) = v := by
  obtain ⟨m, rfl⟩ := h
  exact fsub_of_wf (Nat.zero_le m) hwf

theorem fmul_zero_left {v : F64} (h : v.Nonneg) : fmul (.fin false 0) v = .fin false 0 := by
  obtain ⟨m, rfl⟩ := h
  simpa [fmul] using F64.round_of_wf F64.one_pos (F64.wf_zero false)

theorem fmul_zero_right {v : F64} (h : v.Nonneg) : fmul v (.fin false 0) = .fin false 0 := by
  obtain ⟨m, rfl⟩ := h
  simpa [fmul] using F64.round_of_wf F64.one_pos (F64.wf_zero false)

/-! ### The triple of the reset state -/

/-- X, Y and Z after reset (R252). -/
def Chaos.zero : Chaos := ⟨.fin false 0, .fin false 0, .fin false 0⟩

theorem State.chaos_reset : State.reset.chaos = Chaos.zero := by
  obtain ⟨-, -, -, -, -, -, -, -, -, -, -, -, -, -, -, -, hchaos, -⟩ := resetValues
  exact hchaos

/-- The triple is a fixed point of the stepper: each of R142's increments is a product with a factor +0.0. -/
theorem stepF_zero : stepF Chaos.zero = Chaos.zero := by
  have hzero : (F64.fin false 0).Nonneg := ⟨0, rfl⟩
  have hsigma : sigma.Nonneg := F64.nonneg_ofBits (by decide) (by decide)
  have hrho : rho.Nonneg := F64.nonneg_ofBits (by decide) (by decide)
  have hbeta : beta.Nonneg := F64.nonneg_ofBits (by decide) (by decide)
  have hdt : dt.Nonneg := F64.nonneg_ofBits (by decide) (by decide)
  simp only [stepF, Chaos.zero, fsub_zero hzero (F64.wf_zero false), fsub_zero hrho (F64.wf_ofBits _),
    fmul_zero_right hsigma, fmul_zero_right hbeta, fmul_zero_left hzero, fmul_zero_left hrho, fmul_zero_left hdt,
    fadd_zero_zero]

/-- Its combination is +0.0 (R161). -/
theorem combination_zero : combination Chaos.zero = .fin false 0 := by
  have hphi : kPhi.Nonneg := F64.nonneg_ofBits (by decide) (by decide)
  have he : kE.Nonneg := F64.nonneg_ofBits (by decide) (by decide)
  have hpi : kPi.Nonneg := F64.nonneg_ofBits (by decide) (by decide)
  simp only [combination, Chaos.zero, fmul_zero_left hphi, fmul_zero_left he, fmul_zero_left hpi, fadd_zero_zero]

/-- With CTR = 0 the perturbation adds +0.0 to the fraction +0.0 (R164). -/
theorem perturb_zero : perturb (.fin false 0) 0 = .fin false 0 := by
  have hctr : cvtU32 0 = .fin false 0 := cvtU32_eq 0
  have hkCtr : kCtr.Nonneg := F64.nonneg_ofBits (by decide) (by decide)
  rw [perturb, hctr, fmul_zero_left hkCtr, fadd_zero_zero, ffmod_fOne, Nat.zero_mod]

/-- The three passes turn the scaled fraction 0 into 123 (R166 to R168). -/
theorem kbyteF_zero : kbyteF Chaos.zero 0 = some 123 := by
  have hfin : isfinite (combination Chaos.zero) = true := by rw [combination_zero]; rfl
  obtain ⟨b, hscaled, hbyte⟩ := kbyteF_of_finite hfin 0
  have hfraction : fraction (.fin false 0) = .fin false 0 := by rw [fraction_fin (F64.wf_zero false), Nat.zero_mod]
  obtain ⟨hzero, -⟩ := ftoint_scaled F64.one_pos (F64.wf_zero false)
  rw [combination_zero, hfraction, perturb_zero, hzero, Nat.zero_mul, Nat.zero_div] at hscaled
  obtain rfl := Option.some.inj hscaled
  rw [hbyte]
  decide

/-! ### The two commands -/

/-- A STEP that leaves the values of the triple, none a NaN, leaves its words. -/
theorem exec_step_sameTriple {s : State} (hfix : stepF s.chaos = s.chaos) (hx : s.chaos.x ≠ .nan)
    (hy : s.chaos.y ≠ .nan) (hz : s.chaos.z ≠ .nan) : ∃ t, exec .step s = .next t ∧ s.sameTriple t := by
  refine ⟨_, exec_step s, State.sameTriple_of_chaos_eq ?_ hx hy hz⟩
  rw [State.complete_chaos, State.chaos_writeChaos (wf_stepF _), hfix]

/-- Settles O60: the triple is the stepper's fixed point, and its keystream byte is 123. -/
theorem resetStateIsTheFixedPoint : Obligations.ResetStateIsTheFixedPoint := by
  unfold Obligations.ResetStateIsTheFixedPoint
  have hfix : stepF State.reset.chaos = State.reset.chaos := by rw [State.chaos_reset, stepF_zero]
  have hbyte : kbyteF State.reset.chaos State.reset.ctr = some 123 := by rw [State.chaos_reset]; exact kbyteF_zero
  refine ⟨exec_step_sameTriple hfix ?x ?y ?z, _, exec_extract_of_some hbyte, rfl, State.statusWord_complete_noError _⟩
  all_goals
    rw [State.chaos_reset]
    nofun

end Sys2Proof.Machine
end
